-- ==== Sys2Proof/Word.lean ====
section
/-! DEFINITION. The value types of the model: bytes, 40-bit values, command words, pipe numbers, frames
(spec/00_scope.md R6, spec/30_encoding.md R66, spec/10_state.md R25). -/

namespace Sys2Proof

/-- A byte is 8 bits (R6). -/
abbrev Byte := BitVec 8

/-- A 40-bit value: the operand `v` of a command word, the `val` of a response, and a register's raw
value (R66, R71, R19). A 1-byte register's raw value is below 2^8 (log entry 12). -/
abbrev Raw := BitVec 40

/-- A 64-bit command word (R66). -/
abbrev CmdWord := BitVec 64

/-- A pipe number 0..5 (R24). -/
abbrev PipeNo := Fin 6

/-- A frame is a list of bytes, opaque to the queue (R25). -/
abbrev Frame := List Byte

end Sys2Proof
end

