-- ==== Sys2Proof/Machine/Event.lean ====
section
/-! DEFINITION. The event alphabet of RFB's history (spec/10_state.md R30), the player's actions
(spec/44_decoder.md R175) and the outcome of one transfer (spec/20_memory.md R41, R58). -/

namespace Sys2Proof

/-- A level driven on a pin, 0 or 1 (R23, R30). -/
inductive Level where
  | low
  | high
deriving DecidableEq, Repr

/-- One invocation of the player collaborator (R175); the arguments are int8 values. -/
inductive PlayerAction where
  | incrVolume (delta : Int)
  | togglePlayPause
  | skipTracks (count : Int)
deriving DecidableEq, Repr

/-- What something outside RFB can see RFB do (R30). -/
inductive Event where
  | csn (level : Level)
  | ce (level : Level)
  | xfer (out inp : List Byte)
  | xferFail (out : List Byte)
  | wait (micros : Nat)
  | player (action : PlayerAction)
  | decodeFailure (frame : Frame)
  | drop (pipe : PipeNo) (frame : Frame)
  | close
deriving DecidableEq, Repr

/-- The outcome of one `transfer`: the bytes received, or a failure (R41, R58). -/
inductive Answer where
  | ok (inp : List Byte)
  | fail
deriving DecidableEq, Repr, Inhabited

end Sys2Proof
end

