-- ==== Sys2Proof/Config.lean ====
section
/-! DEFINITION. The configuration record CFG (spec/00_scope.md R5) with the shapes of TABLE, ROLE and PSEUDO
(spec/10_state.md R14 to R18), the constants the document fixes, and the free values. -/

namespace Sys2Proof

/-- Access right of a field (R15). -/
inductive Access where
  | rw
  | ro
deriving DecidableEq, Repr

/-- How a field is decoded (R15, R20). -/
inductive FieldDecode where
  | plain
  | plusOne
deriving DecidableEq, Repr

/-- A register is 1 or 5 bytes wide (R14). -/
inductive RegWidth where
  | one
  | five
deriving DecidableEq, Repr

/-- The number of bytes of a width. -/
def RegWidth.bytes : RegWidth → Nat
  | .one => 1
  | .five => 5

/-- Bitfield descriptor (R15). -/
structure Field where
  name : String
  off : Nat
  width : Nat
  dflt : Raw
  access : Access
  decode : FieldDecode := .plain
deriving DecidableEq, Repr

/-- Register descriptor (R14); its index is its position in TABLE. -/
structure RegDesc where
  name : String
  addr : Nat
  width : RegWidth
  fields : List Field
deriving DecidableEq, Repr

/-- A (register, field) pair of TABLE, both by index (R17). -/
structure FieldRef where
  reg : Nat
  field : Nat
deriving DecidableEq, Repr

/-- The binding of the fields the document names by function (R17). -/
structure Role where
  pwrUp : FieldRef
  primRx : FieldRef
  crcLen : FieldRef
  rfCh : FieldRef
  pipeNo : FieldRef
  enAA : Vector FieldRef 6
  dynPd : Vector FieldRef 6
  enRx : Vector FieldRef 6
deriving DecidableEq, Repr

/-- Descriptor of a pseudo-register: bus address and power-on default (R18). -/
structure PseudoDesc where
  addr : Nat
  dflt : Raw
deriving DecidableEq, Repr

/-- The pseudo-registers: 5-byte `rxAddr[p]` and `txAddr`, 1-byte `rxPw[p]` (R18). -/
structure Pseudo where
  rxAddr : Vector PseudoDesc 6
  txAddr : PseudoDesc
  rxPw : Vector PseudoDesc 6
deriving DecidableEq, Repr

/-- The configuration record (R5). `rcmd` and `wcmd` are given by their values at the mapped addresses,
the only ones a transaction can carry (R50; log entry 2). -/
structure Config where
  table : List RegDesc
  role : Role
  pseudo : Pseudo
  cap : Vector Nat 6
  rfChMax : Nat
  tCS : Nat
  tStop : Nat
  decPipe : Option PipeNo
  rcmd : List (Nat × Byte)
  wcmd : List (Nat × Byte)
  rxpl : Byte
  fill : Byte
  bus : Nat
  channel : Nat
deriving DecidableEq, Repr

/-- A register name: a table register by its index, or a pseudo-register (R14, R18, R68). -/
inductive RegName where
  | tab (index : Nat)
  | rxAddr (pipe : PipeNo)
  | txAddr
  | rxPw (pipe : PipeNo)
deriving DecidableEq, Repr

/-- `T_PU`, a lower bound in microseconds (R5). -/
def Config.tPU : Nat := 1500

/-- `T_MODE`, a lower bound in microseconds (R5). -/
def Config.tMode : Nat := 130

/-- `DRAIN_CAP_DEFAULT` (R5). -/
def Config.drainCapDefault : Nat := 3

/-- `LEN_MIN` and `LEN_MAX` (R5). -/
def Config.lenMin : Nat := 1
def Config.lenMax : Nat := 32

/-- `PIPE_EMPTY`: the pipe-number value meaning no data (R5). -/
def Config.pipeEmpty : Nat := 7

/-- FREE VALUE. The unconstrained oracle of R58: given the history so far and the bytes of a transfer, any
bytes or a failure. It answers when State lists no answer and holds no RefDev; the number, State's `draws`,
makes every use a fresh one (log entry 3). -/
opaque Config.oracle : Nat → List Event → List Byte → Answer

/-- FREE VALUE. By how much a wait outlasts its lower bound, at the number `draws` (R29, R121, U19; log
entry 4). -/
opaque Config.waitSlack : Nat → Nat

end Sys2Proof
end

