-- ==== Sys2Proof/Syntax.lean ====
section
/-! DEFINITION. The operations of RFB as terms: one constructor per row of spec/opcode_table.json
(spec/30_encoding.md R65, R73, R76, R80). -/

namespace Sys2Proof

/-- TransceiverStatus (spec/10_state.md R22). -/
inductive Status where
  | powerDown
  | standBy
  | rx
  | tx
deriving DecidableEq, Repr

/-- An operation. Register, field and pipe selectors are the unsigned bytes of the word (R67): a selector
that names nothing reaches the operation and gets the operation's own error (R74). -/
inductive Instr where
  -- RegisterFile
  | get (a : Byte)
  | set (a : Byte) (v : Raw)
  | getf (a b : Byte)
  | setf (a b : Byte) (v : Raw)
  | getch
  | setch (v : Raw)
  -- TransceiverStateMachine
  | goto (target : Status)
  | state
  -- RxPipeSet
  | psetaddr (a : Byte) (v : Raw)
  | psetlen (a : Byte) (v : Raw)
  | psetaa (a : Byte) (v : Raw)
  | psetdpl (a : Byte) (v : Raw)
  | pseten (a : Byte) (v : Raw)
  | pgetaddr (a : Byte)
  | pgetlen (a : Byte)
  | pgetaa (a : Byte)
  | pgetdpl (a : Byte)
  | pgeten (a : Byte)
  | enq (a : Byte) (frame : Frame)
  | hasdata (a : Byte)
  | recv (a : Byte)
  | recvw (a : Byte) (timeout : Option Raw)
  -- receive demultiplexer
  | drain (b : Byte)
  -- decoder control
  | dstop
  | shutdown
  -- wire commands `v`, `p`, `t`
  | volume (arg : Byte)
  | play (arg : Byte)
  | track (arg : Byte)
deriving DecidableEq, Repr

end Sys2Proof
end

