-- ==== Sys2Proof/WellFormed.lean ====
section
/-! DEFINITION. Well-formedness of an operation (spec/30_encoding.md R66, R74) and of a configuration
(spec/10_state.md R16, R17; spec/30_encoding.md R78; spec/00_scope.md R5). -/

namespace Sys2Proof

/-- The side-channel frame of ENQ has at most 32 bytes (R66, R74); every other operand value of the right
width can be encoded. -/
def Instr.wf : Instr → Bool
  | .enq _ frame => frame.length ≤ 32
  | .get _ | .set _ _ | .getf _ _ | .setf _ _ _ | .getch | .setch _ | .goto _ | .state
  | .psetaddr _ _ | .psetlen _ _ | .psetaa _ _ | .psetdpl _ _ | .pseten _ _
  | .pgetaddr _ | .pgetlen _ | .pgetaa _ | .pgetdpl _ | .pgeten _
  | .hasdata _ | .recv _ | .recvw _ _ | .drain _ | .dstop | .shutdown
  | .volume _ | .play _ | .track _ => true

/-- The 6 pipe numbers in order. -/
def PipeNo.all : List PipeNo := [0, 1, 2, 3, 4, 5]

/-- No element of a list occurs twice. -/
def distinct {α : Type} [DecidableEq α] (l : List α) : Bool := decide l.Nodup

/-- Two fields share no bit (R16). -/
def Field.disjoint (f g : Field) : Bool := f.off + f.width ≤ g.off || g.off + g.width ≤ f.off

/-- The clauses of R15 and R16 about one field of a register of `w` bytes. -/
def Field.wf (w : RegWidth) (f : Field) : Bool :=
  1 ≤ f.width && f.off + f.width ≤ 8 * w.bytes && f.dflt.toNat < 2 ^ f.width

/-- The clauses of R15 and R16 about one register. -/
def RegDesc.wf (r : RegDesc) : Bool :=
  distinct (r.fields.map Field.name) && r.fields.all (Field.wf r.width)
    && decide (r.fields.Pairwise fun f g => f.disjoint g = true)

/-- The descriptor pair a role names, when it exists (R17). -/
def Config.lookup (c : Config) (r : FieldRef) : Option (RegDesc × Field) :=
  (c.table[r.reg]?).bind fun d => (d.fields[r.field]?).map fun f => (d, f)

/-- A role names an existing field that satisfies `p` (R16, R17). -/
def Config.roleOk (c : Config) (r : FieldRef) (p : RegDesc → Field → Bool) : Bool :=
  match c.lookup r with
  | some (d, f) => p d f
  | none => false

/-- A width-1 read-write field (R17). -/
def Field.isFlag (f : Field) : Bool := f.width = 1 && f.access = .rw

/-- Every bus address of the map: table registers, then pseudo-registers (R50). -/
def Config.mapped (c : Config) : List Nat :=
  c.table.map RegDesc.addr ++ (c.pseudo.rxAddr.toList.map PseudoDesc.addr
    ++ (c.pseudo.txAddr.addr :: c.pseudo.rxPw.toList.map PseudoDesc.addr))

/-- Names and addresses are unique and every register is well formed (R14, R16). -/
def Config.tableWf (c : Config) : Bool :=
  distinct (c.table.map RegDesc.name) && distinct c.mapped && c.table.all RegDesc.wf

/-- The positions of the `plusOne` fields. -/
def Config.plusOnes (c : Config) : List FieldRef :=
  c.table.zipIdx.flatMap fun (r, i) =>
    (r.fields.zipIdx.filter fun (f, _) => f.decode = .plusOne).map fun (_, j) => ⟨i, j⟩

/-- At most one field is `plusOne`, and if one is then `ROLE.crcLen` names it and its width is at most 39 (R16). -/
def Config.plusOneWf (c : Config) : Bool :=
  match c.plusOnes with
  | [] => true
  | [r] => r = c.role.crcLen && c.roleOk r fun _ f => f.width ≤ 39
  | _ => false

/-- Every role names a field of the stated width, access right and register width (R17). -/
def Config.roleWf (c : Config) : Bool :=
  c.roleOk c.role.pwrUp (fun _ f => f.isFlag) && c.roleOk c.role.primRx (fun _ f => f.isFlag)
    && c.roleOk c.role.crcLen (fun _ f => f.access = .rw)
    && c.roleOk c.role.rfCh (fun d f => f.access = .rw && d.width = .one && c.rfChMax < 2 ^ f.width)
    && c.roleOk c.role.pipeNo (fun d f => f.width = 3 && d.width = .one)
    && PipeNo.all.all fun p =>
      c.roleOk c.role.enAA[p] (fun _ f => f.isFlag) && c.roleOk c.role.dynPd[p] (fun _ f => f.isFlag)
        && c.roleOk c.role.enRx[p] (fun _ f => f.isFlag)

/-- The command bytes are given at every mapped address and can be told apart (R78). -/
def Config.commandsWf (c : Config) : Bool :=
  let reads := c.mapped.map fun a => c.rcmd.lookup a
  let writes := c.mapped.map fun a => c.wcmd.lookup a
  reads.all Option.isSome && writes.all Option.isSome && distinct (some c.rxpl :: (reads ++ writes))

/-- Capacities are at least 1, 40 ≤ `RF_CH_MAX` ≤ 199, and the 1-byte pseudo-registers' defaults fit (R5, R18). -/
def Config.boundsWf (c : Config) : Bool :=
  c.cap.toList.all (1 ≤ ·) && 40 ≤ c.rfChMax && c.rfChMax ≤ 199
    && c.pseudo.rxPw.toList.all fun d => d.dflt.toNat < 256

/-- Duty `ConfigWellFormed` (spec/70_reset_and_hazards.md R225): the premise every rule assumes. -/
def Config.wf (c : Config) : Bool :=
  c.tableWf && c.plusOneWf && c.roleWf && c.commandsWf && c.boundsWf

end Sys2Proof
end

