-- ==== Sys2Proof/Decode.lean ====
section
/-! DEFINITION. Decoding of the 64-bit command word and of the 2-byte wire command, total, rejecting by name,
and the encoder from the same tables (spec/30_encoding.md R66 to R77). -/

namespace Sys2Proof

/-- Why bits are no instruction. A command word so rejected is answered `IllegalCommand` (R74); a frame so
rejected is a decode failure (R77). -/
inductive DecodeError where
  /-- `op` is not in the opcode map (R74). -/
  | unassignedOp
  /-- A field that must be zero is not (R74), GOTO's `a[7:2]` and RECVW's `b[7:1]` among them. -/
  | reservedNonzero
  /-- ENQ with `b` above 32 (R74). -/
  | frameTooLong
  /-- ENQ with a side-channel frame whose length is not `b` (R74). -/
  | frameLength
  /-- RECVW with a timeout value but no timeout flag (R74). -/
  | timeoutWithoutFlag
  /-- A wire frame of fewer than 2 bytes (R76). -/
  | frameTooShort
  /-- A wire frame whose byte 0 is no command letter (R77). -/
  | unknownLetter
deriving DecidableEq, Repr

/-- The state code of GOTO's operand and STATE's result (R70). -/
def Status.code : Status → Nat
  | .powerDown => 0
  | .standBy => 1
  | .rx => 2
  | .tx => 3

/-- The state a selector byte names; bits 7:2 must be 0 (R70). -/
def Status.ofCode (a : Byte) : Option Status :=
  match a.toNat with
  | 0 => some .powerDown
  | 1 => some .standBy
  | 2 => some .rx
  | 3 => some .tx
  | _ => none

/-- The mnemonics of format CW, one per row of the opcode map (R73). -/
inductive Op where
  | get | set | getf | setf | getch | setch
  | goto | state
  | psetaddr | psetlen | psetaa | psetdpl | pseten
  | pgetaddr | pgetlen | pgetaa | pgetdpl | pgeten
  | enq | hasdata | recv | recvw
  | drain
  | dstop | shutdown
deriving DecidableEq, Repr

/-- The rows of the opcode map in order. -/
def Op.all : List Op :=
  [.get, .set, .getf, .setf, .getch, .setch, .goto, .state]
    ++ [.psetaddr, .psetlen, .psetaa, .psetdpl, .pseten, .pgetaddr, .pgetlen, .pgetaa, .pgetdpl, .pgeten]
    ++ [.enq, .hasdata, .recv, .recvw, .drain, .dstop, .shutdown]

/-- `cw[63:56]` of each operation (R73). -/
def Op.code : Op → Byte
  | .get => 0x01
  | .set => 0x02
  | .getf => 0x03
  | .setf => 0x04
  | .getch => 0x05
  | .setch => 0x06
  | .goto => 0x10
  | .state => 0x11
  | .psetaddr => 0x20
  | .psetlen => 0x21
  | .psetaa => 0x22
  | .psetdpl => 0x23
  | .pseten => 0x24
  | .pgetaddr => 0x28
  | .pgetlen => 0x29
  | .pgetaa => 0x2A
  | .pgetdpl => 0x2B
  | .pgeten => 0x2C
  | .enq => 0x30
  | .hasdata => 0x31
  | .recv => 0x32
  | .recvw => 0x33
  | .drain => 0x40
  | .dstop => 0x50
  | .shutdown => 0x51

/-- The operation an opcode byte names, if any (R74, R75 step 2). -/
def Op.ofCode (b : Byte) : Option Op := Op.all.find? fun o => o.code = b

/-- Does the row's column `a`, `b`, `v` carry an operand? Where not ("-"), the field must be 0 (R73). -/
def Op.usesA : Op → Bool
  | .getch | .setch | .state | .drain | .dstop | .shutdown => false
  | .get | .set | .getf | .setf | .goto
  | .psetaddr | .psetlen | .psetaa | .psetdpl | .pseten
  | .pgetaddr | .pgetlen | .pgetaa | .pgetdpl | .pgeten
  | .enq | .hasdata | .recv | .recvw => true

def Op.usesB : Op → Bool
  | .getf | .setf | .enq | .recvw | .drain => true
  | .get | .set | .getch | .setch | .goto | .state
  | .psetaddr | .psetlen | .psetaa | .psetdpl | .pseten
  | .pgetaddr | .pgetlen | .pgetaa | .pgetdpl | .pgeten
  | .hasdata | .recv | .dstop | .shutdown => false

def Op.usesV : Op → Bool
  | .set | .setf | .setch | .psetaddr | .psetlen | .psetaa | .psetdpl | .pseten | .recvw => true
  | .get | .getf | .getch | .goto | .state
  | .pgetaddr | .pgetlen | .pgetaa | .pgetdpl | .pgeten
  | .enq | .hasdata | .recv | .drain | .dstop | .shutdown => false

/-- The four fields of a command word (R66). -/
def CmdWord.op (w : CmdWord) : Byte := w.extractLsb' 56 8
def CmdWord.a (w : CmdWord) : Byte := w.extractLsb' 48 8
def CmdWord.b (w : CmdWord) : Byte := w.extractLsb' 40 8
def CmdWord.v (w : CmdWord) : Raw := w.extractLsb' 0 40

/-- A command word from its fields (R66). -/
def CmdWord.mk (op a b : Byte) (v : Raw) : CmdWord := op ++ a ++ b ++ v

/-- Step 5 of the decode algorithm, with the constraints of R74 that `mask` and `match` do not express. -/
def Op.build (o : Op) (a b : Byte) (v : Raw) (frame : Frame) : Except DecodeError Instr :=
  match o with
  | .get => .ok (.get a)
  | .set => .ok (.set a v)
  | .getf => .ok (.getf a b)
  | .setf => .ok (.setf a b v)
  | .getch => .ok .getch
  | .setch => .ok (.setch v)
  | .goto =>
    match Status.ofCode a with
    | some t => .ok (.goto t)
    | none => .error .reservedNonzero
  | .state => .ok .state
  | .psetaddr => .ok (.psetaddr a v)
  | .psetlen => .ok (.psetlen a v)
  | .psetaa => .ok (.psetaa a v)
  | .psetdpl => .ok (.psetdpl a v)
  | .pseten => .ok (.pseten a v)
  | .pgetaddr => .ok (.pgetaddr a)
  | .pgetlen => .ok (.pgetlen a)
  | .pgetaa => .ok (.pgetaa a)
  | .pgetdpl => .ok (.pgetdpl a)
  | .pgeten => .ok (.pgeten a)
  | .enq =>
    if 32 < b.toNat then .error .frameTooLong
    else if frame.length ≠ b.toNat then .error .frameLength
    else .ok (.enq a frame)
  | .hasdata => .ok (.hasdata a)
  | .recv => .ok (.recv a)
  | .recvw =>
    if b = 1 then .ok (.recvw a (some v))
    else if b ≠ 0 then .error .reservedNonzero
    else if v ≠ 0 then .error .timeoutWithoutFlag
    else .ok (.recvw a none)
  | .drain => .ok (.drain b)
  | .dstop => .ok .dstop
  | .shutdown => .ok .shutdown

/-- Decode a command word with its side-channel frame (R75 steps 2, 4 and 5; the port is checked where the
word arrives, in Machine/Fetch.lean). Only ENQ reads the frame. -/
def decodeWord (w : CmdWord) (frame : Frame) : Except DecodeError Instr :=
  match Op.ofCode (CmdWord.op w) with
  | none => .error .unassignedOp
  | some o =>
    if (!o.usesA && CmdWord.a w != 0) || (!o.usesB && CmdWord.b w != 0) || (!o.usesV && CmdWord.v w != 0) then
      .error .reservedNonzero
    else o.build (CmdWord.a w) (CmdWord.b w) (CmdWord.v w) frame

/-- The ASCII codes of the wire letters `v`, `p`, `t` (R77). -/
def letterV : Byte := 0x76
def letterP : Byte := 0x70
def letterT : Byte := 0x74

/-- Parse a frame: byte 0 is the letter, byte 1 the argument, later bytes are ignored (R76, R77, R167). -/
def decodeFrame (frame : Frame) : Except DecodeError Instr :=
  match frame with
  | c :: arg :: _ =>
    if c = letterV then .ok (.volume arg)
    else if c = letterP then .ok (.play arg)
    else if c = letterT then .ok (.track arg)
    else .error .unknownLetter
  | [_] | [] => .error .frameTooShort

/-- The bits of an operation: a command word with its side-channel frame, or the bytes of a wire command. -/
inductive Encoded where
  | word (w : CmdWord) (frame : Frame)
  | wire (frame : Frame)
deriving DecidableEq, Repr

/-- Decode whichever form the bits have. -/
def decode : Encoded → Except DecodeError Instr
  | .word w frame => decodeWord w frame
  | .wire frame => decodeFrame frame

/-- A word without a side-channel frame. -/
def Op.word (o : Op) (a b : Byte) (v : Raw) : Encoded := .word (CmdWord.mk o.code a b v) []

/-- The bits of a well-formed operation (R66, R73, R76). -/
def encode : Instr → Encoded
  | .get a => Op.get.word a 0 0
  | .set a v => Op.set.word a 0 v
  | .getf a b => Op.getf.word a b 0
  | .setf a b v => Op.setf.word a b v
  | .getch => Op.getch.word 0 0 0
  | .setch v => Op.setch.word 0 0 v
  | .goto t => Op.goto.word (BitVec.ofNat 8 t.code) 0 0
  | .state => Op.state.word 0 0 0
  | .psetaddr a v => Op.psetaddr.word a 0 v
  | .psetlen a v => Op.psetlen.word a 0 v
  | .psetaa a v => Op.psetaa.word a 0 v
  | .psetdpl a v => Op.psetdpl.word a 0 v
  | .pseten a v => Op.pseten.word a 0 v
  | .pgetaddr a => Op.pgetaddr.word a 0 0
  | .pgetlen a => Op.pgetlen.word a 0 0
  | .pgetaa a => Op.pgetaa.word a 0 0
  | .pgetdpl a => Op.pgetdpl.word a 0 0
  | .pgeten a => Op.pgeten.word a 0 0
  | .enq a frame => .word (CmdWord.mk Op.enq.code a (BitVec.ofNat 8 frame.length) 0) frame
  | .hasdata a => Op.hasdata.word a 0 0
  | .recv a => Op.recv.word a 0 0
  | .recvw a (some timeout) => Op.recvw.word a 1 timeout
  | .recvw a none => Op.recvw.word a 0 0
  | .drain b => Op.drain.word 0 b 0
  | .dstop => Op.dstop.word 0 0 0
  | .shutdown => Op.shutdown.word 0 0 0
  | .volume arg => .wire [letterV, arg]
  | .play arg => .wire [letterP, arg]
  | .track arg => .wire [letterT, arg]

/-- Port C takes HASDATA, RECV and RECVW only (R72). -/
def Instr.onPortC : Instr → Bool
  | .hasdata _ | .recv _ | .recvw _ _ => true
  | .get _ | .set _ _ | .getf _ _ | .setf _ _ _ | .getch | .setch _ | .goto _ | .state
  | .psetaddr _ _ | .psetlen _ _ | .psetaa _ _ | .psetdpl _ _ | .pseten _ _
  | .pgetaddr _ | .pgetlen _ | .pgetaa _ | .pgetdpl _ | .pgeten _
  | .enq _ _ | .drain _ | .dstop | .shutdown
  | .volume _ | .play _ | .track _ => false

/-- The side-channel frame that goes with a command word whose bits above the table's are all 0: as many
zero bytes as the word's `b` says (log entry 16). -/
def zeroFrame (w : CmdWord) : Frame := List.replicate (CmdWord.b w).toNat 0

/-- The command word and frame that the table's numbering of an instruction's bits stands for. -/
def tableCommand (w : Nat) : CmdWord × Frame :=
  (BitVec.ofNat 64 w, zeroFrame (BitVec.ofNat 64 w))

/-- The wire frame that the table's numbering stands for: byte 0 in bits 15:8, byte 1 in bits 7:0 (R76). -/
def tableFrame (w : Nat) : Frame := [BitVec.ofNat 8 (w / 256), BitVec.ofNat 8 w]

/-- A row of the table is a wire command when it has at most 16 bits, else a command word (log entry 16). -/
def tableIsWire (nbits : Nat) : Bool := nbits ≤ 16

/-- The instruction this decoder reads from an instruction whose bits, numbered as the opcode table numbers
them, are `w`. -/
def decodeTableWord (nbits w : Nat) : Option Instr :=
  let w := w % 2 ^ nbits
  if tableIsWire nbits then (decodeFrame (tableFrame w)).toOption
  else (decodeWord (tableCommand w).1 (tableCommand w).2).toOption

end Sys2Proof
end

