-- ==== Sys2Proof/Machine/Operands.lean ====
section
/-! DEFINITION. Every operand form: register, field and pipe selectors (spec/30_encoding.md R68, R69;
spec/42_rxpipeset.md R125), the map of register names (spec/20_memory.md R50), bitfield decode and insert
(spec/10_state.md R20, R21), byte order (spec/20_memory.md R45) and sext_8 (spec/00_scope.md R6). -/

namespace Sys2Proof

/-! ## Registers by name -/

/-- One raw value per register name: the shape of RFB's mirror (R19) and of RefDev's registers (R59). -/
structure RegFile where
  tab : List Raw
  rxAddr : Vector Raw 6
  txAddr : Raw
  rxPw : Vector Raw 6
deriving DecidableEq, Repr

def RegFile.get (f : RegFile) : RegName → Raw
  | .tab i => f.tab.getD i 0
  | .rxAddr p => f.rxAddr[p]
  | .txAddr => f.txAddr
  | .rxPw p => f.rxPw[p]

def RegFile.set (f : RegFile) (n : RegName) (v : Raw) : RegFile :=
  match n with
  | .tab i => { f with tab := f.tab.set i v }
  | .rxAddr p => { f with rxAddr := f.rxAddr.set p v }
  | .txAddr => { f with txAddr := v }
  | .rxPw p => { f with rxPw := f.rxPw.set p v }

/-- The registers of a configuration: table registers by index, then the pseudo-registers (R50). -/
def Config.names (c : Config) : List RegName :=
  (List.range c.table.length).map .tab
    ++ (PipeNo.all.map .rxAddr ++ (.txAddr :: PipeNo.all.map .rxPw))

/-- The fields of a register; a pseudo-register has none (R18). -/
def Config.fieldsOf (c : Config) : RegName → List Field
  | .tab i => ((c.table[i]?).map RegDesc.fields).getD []
  | .rxAddr _ | .txAddr | .rxPw _ => []

/-- The bus address of a register (R14, R18). -/
def Config.addrOf (c : Config) : RegName → Nat
  | .tab i => ((c.table[i]?).map RegDesc.addr).getD 0
  | .rxAddr p => c.pseudo.rxAddr[p].addr
  | .txAddr => c.pseudo.txAddr.addr
  | .rxPw p => c.pseudo.rxPw[p].addr

/-- The width of a register: pseudo-registers are 5, 5 and 1 bytes (R14, R18). -/
def Config.widthOf (c : Config) : RegName → RegWidth
  | .tab i => ((c.table[i]?).map RegDesc.width).getD .one
  | .rxAddr _ => .five
  | .txAddr => .five
  | .rxPw _ => .one

/-- The number of bytes of a register. -/
def Config.bytesOf (c : Config) (n : RegName) : Nat := (c.widthOf n).bytes

/-- The default raw value: the sum of the fields' defaults at their offsets, uncovered bits 0 (R16). -/
def RegDesc.dflt (r : RegDesc) : Raw :=
  r.fields.foldl (fun acc f => acc + (f.dflt <<< f.off)) 0

/-- Every register at its power-on default (R33). -/
def Config.defaults (c : Config) : RegFile where
  tab := c.table.map RegDesc.dflt
  rxAddr := c.pseudo.rxAddr.map PseudoDesc.dflt
  txAddr := c.pseudo.txAddr.dflt
  rxPw := c.pseudo.rxPw.map PseudoDesc.dflt

/-- The command byte of a register read at a mapped address (R43, R78). -/
def Config.readCommand (c : Config) (addr : Nat) : Byte := (c.rcmd.lookup addr).getD c.fill

/-- The command byte of a register write at a mapped address (R44, R78). -/
def Config.writeCommand (c : Config) (addr : Nat) : Byte := (c.wcmd.lookup addr).getD c.fill

/-! ## Selectors -/

/-- The register a selector byte names, if any (R68). -/
def resolveReg (c : Config) (a : Byte) : Option RegName :=
  let k := a.toNat
  if k ≤ 0x7F then
    if k < c.table.length then some (.tab k) else none
  else if h : 0x80 ≤ k ∧ k - 0x80 < 6 then some (.rxAddr ⟨k - 0x80, h.2⟩)
  else if k = 0x86 then some .txAddr
  else if h : 0x90 ≤ k ∧ k - 0x90 < 6 then some (.rxPw ⟨k - 0x90, h.2⟩)
  else none

/-- The field a selector byte names in a register, if any (R69). -/
def resolveField (c : Config) (n : RegName) (b : Byte) : Option Field := (c.fieldsOf n)[b.toNat]?

/-- The pipe a selector byte names, if any: `checkPipe` (R125). -/
def checkPipe (a : Byte) : Option PipeNo :=
  if h : a.toNat < 6 then some ⟨a.toNat, h⟩ else none

/-- A field of a configuration that is not well formed: width 1 at bit 0 (log entry 13). -/
def noField : Field := { name := "", off := 0, width := 1, dflt := 0, access := .rw }

/-- The field a role names (R17). -/
def Config.roleField (c : Config) (r : FieldRef) : Field := ((c.lookup r).map Prod.snd).getD noField

/-! ## Bitfields -/

/-- `mask(w) = 2^w - 1` (R6). -/
def mask (w : Nat) : Raw := BitVec.ofNat 40 (2 ^ w - 1)

/-- `extract(f, raw)` (R20). -/
def extract (f : Field) (raw : Raw) : Raw := (raw >>> f.off) &&& mask f.width

/-- `decode(f, raw)`: the `plusOne` field is one more than its bits (R20). -/
def decodeField (f : Field) (raw : Raw) : Raw :=
  match f.decode with
  | .plain => extract f raw
  | .plusOne => extract f raw + 1

/-- `decodeAll(r, raw)`: the decoded view of a whole register (R20, R90). -/
def decodeAll (c : Config) (n : RegName) (raw : Raw) : List (String × Raw) :=
  (c.fieldsOf n).map fun f => (f.name, decodeField f raw)

/-- `insert(f, raw, v)`: mask in the field's bits at its offset (R21). -/
def insertField (f : Field) (raw v : Raw) : Raw :=
  (raw &&& ~~~(mask f.width <<< f.off)) ||| (v <<< f.off)

/-- Does a value fit a field of this width, a register of this many bytes (R91, R93)? -/
def fitsField (f : Field) (v : Raw) : Bool := v.toNat < 2 ^ f.width
def fitsReg (c : Config) (n : RegName) (v : Raw) : Bool := v.toNat < 2 ^ (8 * c.bytesOf n)

/-! ## Bytes and signs -/

/-- The raw value of data bytes, least significant byte first (R43, R45). -/
def assemble : List Byte → Raw
  | [] => 0
  | b :: bs => b.setWidth 40 ||| (assemble bs <<< 8)

/-- The `n` data bytes of a raw value, least significant byte first (R44, R45). -/
def toBytes : Nat → Raw → List Byte
  | 0, _ => []
  | n + 1, v => v.setWidth 8 :: toBytes n (v >>> 8)

/-- `sext_8(b)`: two's complement, -128..127 (R6, R177). -/
def sext8 (b : Byte) : Int := if b.toNat ≤ 127 then b.toNat else (b.toNat : Int) - 256

end Sys2Proof
end

