-- ==== Sys2Proof/Machine/RefTable.lean ====
section
/-! DEFINITION. REF, the reference instance of the open parameters (spec/10_state.md R34; the REF column of
spec/00_scope.md R5; spec/30_encoding.md R78). Every value is general knowledge of the family, not in the source
document (log entry 1). -/

namespace Sys2Proof

/-- A one-bit read-write field. -/
def bit (name : String) (off : Nat) (dflt : Raw := 0) (access : Access := .rw) : Field :=
  { name := name, off := off, width := 1, dflt := dflt, access := access }

/-- A plain field. -/
def bits (name : String) (off width : Nat) (dflt : Raw) (access : Access := .rw) : Field :=
  { name := name, off := off, width := width, dflt := dflt, access := access }

/-- A 1-byte register. -/
def byteReg (name : String) (addr : Nat) (fields : List Field) : RegDesc :=
  { name := name, addr := addr, width := .one, fields := fields }

/-- TABLE, indices 0 to 4. -/
def refTableA : List RegDesc :=
  [ byteReg "CONFIG" 0x00
      [bit "PRIM_RX" 0, bit "PWR_UP" 1,
       { name := "CRCO", off := 2, width := 1, dflt := 0, access := .rw, decode := .plusOne },
       bit "EN_CRC" 3 1, bit "MASK_MAX_RT" 4, bit "MASK_TX_DS" 5, bit "MASK_RX_DR" 6],
    byteReg "EN_AA" 0x01
      [bit "ENAA_P0" 0 1, bit "ENAA_P1" 1 1, bit "ENAA_P2" 2 1, bit "ENAA_P3" 3 1, bit "ENAA_P4" 4 1,
       bit "ENAA_P5" 5 1],
    byteReg "EN_RXADDR" 0x02
      [bit "ERX_P0" 0 1, bit "ERX_P1" 1 1, bit "ERX_P2" 2, bit "ERX_P3" 3, bit "ERX_P4" 4, bit "ERX_P5" 5],
    byteReg "SETUP_AW" 0x03 [bits "AW" 0 2 3],
    byteReg "SETUP_RETR" 0x04 [bits "ARC" 0 4 3, bits "ARD" 4 4 0] ]

/-- TABLE, indices 5 to 8. -/
def refTableB : List RegDesc :=
  [ byteReg "RF_CH" 0x05 [bits "RF_CH" 0 7 2],
    byteReg "RF_SETUP" 0x06 [bit "LNA_HCURR" 0 1, bits "RF_PWR" 1 2 3, bit "RF_DR" 3 1, bit "PLL_LOCK" 4],
    byteReg "STATUS" 0x07
      [bit "TX_FULL" 0 0 .ro, bits "RX_P_NO" 1 3 7 .ro, bit "MAX_RT" 4, bit "TX_DS" 5, bit "RX_DR" 6],
    byteReg "OBSERVE_TX" 0x08 [bits "ARC_CNT" 0 4 0 .ro, bits "PLOS_CNT" 4 4 0 .ro] ]

/-- TABLE, indices 9 to 12. -/
def refTableC : List RegDesc :=
  [ byteReg "CD" 0x09 [bit "CD" 0 0 .ro],
    byteReg "FIFO_STATUS" 0x17
      [bit "RX_EMPTY" 0 1 .ro, bit "RX_FULL" 1 0 .ro, bit "TX_EMPTY" 4 1 .ro, bit "TX_FULL" 5 0 .ro,
       bit "TX_REUSE" 6 0 .ro],
    byteReg "DYNPD" 0x1C
      [bit "DPL_P0" 0, bit "DPL_P1" 1, bit "DPL_P2" 2, bit "DPL_P3" 3, bit "DPL_P4" 4, bit "DPL_P5" 5],
    byteReg "FEATURE" 0x1D [bit "EN_DYN_ACK" 0, bit "EN_ACK_PAY" 1, bit "EN_DPL" 2] ]

/-- The roles in REF. -/
def refRole : Role where
  pwrUp := ⟨0, 1⟩
  primRx := ⟨0, 0⟩
  crcLen := ⟨0, 2⟩
  rfCh := ⟨5, 0⟩
  pipeNo := ⟨7, 1⟩
  enAA := #v[⟨1, 0⟩, ⟨1, 1⟩, ⟨1, 2⟩, ⟨1, 3⟩, ⟨1, 4⟩, ⟨1, 5⟩]
  dynPd := #v[⟨11, 0⟩, ⟨11, 1⟩, ⟨11, 2⟩, ⟨11, 3⟩, ⟨11, 4⟩, ⟨11, 5⟩]
  enRx := #v[⟨2, 0⟩, ⟨2, 1⟩, ⟨2, 2⟩, ⟨2, 3⟩, ⟨2, 4⟩, ⟨2, 5⟩]

/-- The pseudo-registers in REF. -/
def refPseudo : Pseudo where
  rxAddr := #v[⟨0x0A, 0xE7E7E7E7E7⟩, ⟨0x0B, 0xC2C2C2C2C2⟩, ⟨0x0C, 0xC2C2C2C2C3⟩,
    ⟨0x0D, 0xC2C2C2C2C4⟩, ⟨0x0E, 0xC2C2C2C2C5⟩, ⟨0x0F, 0xC2C2C2C2C6⟩]
  txAddr := ⟨0x10, 0xE7E7E7E7E7⟩
  rxPw := #v[⟨0x11, 0⟩, ⟨0x12, 0⟩, ⟨0x13, 0⟩, ⟨0x14, 0⟩, ⟨0x15, 0⟩, ⟨0x16, 0⟩]

/-- REF's mapped addresses: 0x00 to 0x17, 0x1C, 0x1D (R35). -/
def refAddrs : List Nat := List.range 0x18 ++ [0x1C, 0x1D]

/-- REF. `rcmd a = a`, `wcmd a = 0x20 | a`, `RXPL = 0x61`, `FILL = 0x00`; `CAP` 4, `RF_CH_MAX` 125, `T_CS` 1000,
`T_STOP` 1 000 000, `DEC_PIPE` pipe 0. `BUS` and `CHANNEL` have no value anywhere and no rule reads them. -/
def Config.ref : Config where
  table := refTableA ++ refTableB ++ refTableC
  role := refRole
  pseudo := refPseudo
  cap := Vector.replicate 6 4
  rfChMax := 125
  tCS := 1000
  tStop := 1000000
  decPipe := some 0
  rcmd := refAddrs.map fun a => (a, BitVec.ofNat 8 a)
  wcmd := refAddrs.map fun a => (a, 0x20 ||| BitVec.ofNat 8 a)
  rxpl := 0x61
  fill := 0x00
  bus := 0
  channel := 0

end Sys2Proof
end

