-- ==== Sys2Proof/Machine/Device.lean ====
section
/-! DEFINITION. The far end of the bus: listed answers, then the free oracle (spec/20_memory.md R54, R58), or
RefDev, the deterministic reference device (R59, R60). -/

namespace Sys2Proof

/-- RefDev's state (R59): its registers, its receive buffer of (pipe number, payload), the command of the open
bracket, and how many data positions of that bracket have been moved. -/
structure RefDev where
  reg : RegFile
  rx : List (Nat × Frame)
  cur : Option Byte
  pos : Nat
deriving DecidableEq, Repr

/-- What answers transfers: the answers still to come, oldest first, or RefDev. -/
inductive Device where
  | scripted (answers : List Answer)
  | refDev (d : RefDev)
deriving DecidableEq, Repr

/-- RefDev at power-on with this receive buffer (R59). -/
def RefDev.initial (c : Config) (rx : List (Nat × Frame)) : RefDev where
  reg := c.defaults
  rx := rx
  cur := none
  pos := 0

/-- The pipe number RefDev reports: the head of its receive buffer, or 7 (R59). -/
def RefDev.headPipe (d : RefDev) : Nat :=
  match d.rx with
  | (h, _) :: _ => h
  | [] => Config.pipeEmpty

/-- RefDev's status byte `St` (R59). -/
def RefDev.statusByte (c : Config) (d : RefDev) : Byte :=
  (insertField (c.roleField c.role.pipeNo) (d.reg.get (.tab c.role.pipeNo.reg))
    (BitVec.ofNat 40 d.headPipe)).setWidth 8

/-- The register a command byte reads, writes, if any (R59). -/
def Config.readTarget (c : Config) (cmd : Byte) : Option RegName :=
  c.names.find? fun n => c.readCommand (c.addrOf n) = cmd
def Config.writeTarget (c : Config) (cmd : Byte) : Option RegName :=
  c.names.find? fun n => c.writeCommand (c.addrOf n) = cmd

/-- The bits of a register that belong to read-only fields. -/
def Config.readOnlyBits (c : Config) (n : RegName) : Raw :=
  (c.fieldsOf n).foldl (fun acc f => if f.access = .ro then acc ||| (mask f.width <<< f.off) else acc) 0

/-- Store a byte at byte position `i` of a register, read-only bits keeping their old value (R59). -/
def storeByte (c : Config) (n : RegName) (i : Nat) (old : Raw) (b : Byte) : Raw :=
  let new := (old &&& ~~~((0xFF : Raw) <<< (8 * i))) ||| (b.setWidth 40 <<< (8 * i))
  (old &&& c.readOnlyBits n) ||| (new &&& ~~~c.readOnlyBits n)

/-- Byte `i` of a raw value. -/
def byteAt (v : Raw) (i : Nat) : Byte := (v >>> (8 * i)).setWidth 8

/-- RefDev's answer at data position `pos` of a bracket whose command is `cmd`, and its registers after (R59). -/
def RefDev.dataByte (c : Config) (d : RefDev) (cmd sent : Byte) : Byte × RegFile :=
  if cmd = c.rxpl then
    match d.rx with
    | (_, payload) :: _ => (payload.getD d.pos 0, d.reg)
    | [] => (0, d.reg)
  else match c.readTarget cmd with
    | some n => (if d.pos < c.bytesOf n then byteAt (d.reg.get n) d.pos else 0, d.reg)
    | none =>
      match c.writeTarget cmd with
      | some n =>
        if d.pos < c.bytesOf n then (0, d.reg.set n (storeByte c n d.pos (d.reg.get n) sent)) else (0, d.reg)
      | none => (0, d.reg)

/-- One byte moved: the first byte of a bracket is its command and returns the status byte (R59). -/
def RefDev.moveByte (c : Config) (d : RefDev) (sent : Byte) : Byte × RefDev :=
  match d.cur with
  | none => (d.statusByte c, { d with cur := some sent, pos := 0 })
  | some cmd =>
    let r := d.dataByte c cmd sent
    (r.1, { d with reg := r.2, pos := d.pos + 1 })

/-- A transfer moves its bytes in order. -/
def RefDev.transfer (c : Config) : RefDev → List Byte → List Byte × RefDev
  | d, [] => ([], d)
  | d, b :: bs =>
    let r := d.moveByte c b
    let rest := RefDev.transfer c r.2 bs
    (r.1 :: rest.1, rest.2)

/-- The end of a bracket: a payload read that moved a data position removes the head frame (R59). -/
def RefDev.deselect (c : Config) (d : RefDev) : RefDev :=
  { d with
    rx := if d.cur = some c.rxpl && 1 ≤ d.pos then d.rx.tail else d.rx
    cur := none
    pos := 0 }

/-- A transfer receives as many bytes as it sends (R41); an answer of another length is no successful transfer
(log entry 3). -/
def Answer.checked (n : Nat) : Answer → Answer
  | .ok inp => if inp.length = n then .ok inp else .fail
  | .fail => .fail

/-- The outcome of `transfer(out)` after this history, the `draw`-th use of a free value (R58). -/
def Device.transfer (c : Config) (draw : Nat) (hist : List Event) (out : List Byte) : Device → Answer × Device
  | .scripted (a :: rest) => (a.checked out.length, .scripted rest)
  | .scripted [] => ((Config.oracle draw hist out).checked out.length, .scripted [])
  | .refDev d => (.ok (d.transfer c out).1, .refDev (d.transfer c out).2)

/-- Chip-select goes high: only RefDev notices. -/
def Device.deselect (c : Config) : Device → Device
  | .scripted answers => .scripted answers
  | .refDev d => .refDev (d.deselect c)

end Sys2Proof
end

