-- ==== Sys2Proof/Machine/State.lean ====
section
/-! DEFINITION. The state of RFB (spec/10_state.md R10), the operations that hold, the configuration, the
ports and the environment, as plain data; the machine after reset (R33). -/

namespace Sys2Proof.Machine

open Sys2Proof

/-- A command port: H is the owner's, C a consumer's (spec/30_encoding.md R72). -/
inductive Port where
  | H
  | C
deriving DecidableEq, Repr

/-- Response codes (R71). -/
inductive Code where
  | ok
  | unknownRegister
  | unknownField
  | readOnlyField
  | illegalStateTransition
  | invalidConfiguration
  | busFault
  | noData
  | timeout
  | cancelled
  | illegalCommand
  | closed
  | noSuchPipe
  | pipeNotConfigured
deriving DecidableEq, Repr

/-- A response: `code`, `val`, and for RECV and RECVW a frame `rfd` (R71). -/
structure Response where
  code : Code
  val : Raw
  rfd : Option Frame
deriving DecidableEq, Repr

/-- The decoder's run state (R27). -/
inductive DecState where
  | running
  | exited
deriving DecidableEq, Repr

/-- Lifecycle (R28). -/
inductive Life where
  | opened
  | closed
deriving DecidableEq, Repr

/-- The pipe record (R24). -/
structure Pipe where
  addr : Option Raw
  len : Option Nat
  autoAck : Option Bool
  dynPayload : Option Bool
  enabled : Option Bool
  q : List Frame
  drops : Nat
deriving DecidableEq, Repr

/-- A RECVW that holds on its port: its pipe, and the time its timeout expires at, if it has one (R139). -/
structure Waiting where
  pipe : PipeNo
  expiry : Option Nat
deriving DecidableEq, Repr

/-- What can hold on port H: RECVW, or SHUTDOWN with the time its bounded wait ends at (R139, R174). On port C only
RECVW can (R72). -/
inductive Hold where
  | recvw (w : Waiting)
  | shutdown (expiry : Nat)
deriving DecidableEq, Repr

/-- What an agent other than the owner, or the environment, does in one indivisible step (R57, R204). A reset is an
input of its own (Input.reset, Input.ownerReset). -/
inductive Act where
  /-- A consumer presents a command word on port C. -/
  | consumer (word : CmdWord)
  /-- The hold of port C is examined again. -/
  | pollC
  /-- The decoder takes a step. -/
  | decoder
  /-- Time passes. -/
  | time (micros : Nat)
  /-- The `cancel` input of a port is driven. -/
  | cancel (port : Port) (level : Bool)
deriving DecidableEq, Repr

/-- What happens next outside any operation of port H. -/
inductive Input where
  /-- The owner presents a command word on port H, with the side-channel frame of ENQ. -/
  | owner (word : CmdWord) (frame : Frame)
  /-- The hold of port H is examined again. -/
  | pollH
  /-- Another agent or the environment acts. -/
  | act (a : Act)
  /-- Reset: "driver construction" (spec/70_reset_and_hazards.md R215), between operations or while a RECVW or a
  SHUTDOWN holds. -/
  | reset
  /-- The owner presents a command word, and a reset meets the operation before its response, in the state it passes
  that has this number (R215; log entry 23). -/
  | ownerReset (word : CmdWord) (frame : Frame) (point : Nat)
deriving DecidableEq, Repr

/-- The machine. -/
structure State where
  /-- CFG; no step changes it (log entry 1). -/
  cfg : Config
  -- the record `s` of R10
  mirror : RegFile
  status : Status
  ce : Option Level
  csn : Option Level
  pipe : Vector Pipe 6
  dec : DecState
  stop : Bool
  decFail : Nat
  life : Life
  busFault : Bool
  hist : List Event
  -- operations in flight and the ports (log entry 5)
  holdH : Option Hold
  holdC : Option Waiting
  port : Port
  replies : List (Port × Response)
  -- the environment (log entries 3 to 8)
  cancelH : Bool
  cancelC : Bool
  now : Nat
  draws : Nat
  device : Device
  inputs : List Input
  within : List (List Act)
deriving DecidableEq, Repr

/-- Why the machine stops with a fault. RFB has no such condition: every error is a response
(spec/60_exceptions.md R185), so no meaning raises one (log entry 21). -/
inductive Fault where
deriving DecidableEq, Repr

/-- Why the model gives no step. -/
inductive Refusal where
  /-- Raised by an arm of `exec` whose instruction has no meaning yet; safe. No arm raises it now. -/
  | notModelled (mnemonic : String)
  /-- Raised by `step` when a command word is presented on a port whose operation is still in flight, which the
  duty `SingleOwner` excludes (spec/93_implementation_defined.md U1; R53, R225); safe. -/
  | portBusy (port : Port)
deriving DecidableEq, Repr

/-- A pipe that has never been configured, with an empty queue (R33). -/
def Pipe.initial : Pipe where
  addr := none
  len := none
  autoAck := none
  dynPayload := none
  enabled := none
  q := []
  drops := 0

/-- RFB after reset under a configuration (R33); the ports and the environment hold nothing (log entry 5). -/
def State.resetFor (c : Config) : State where
  cfg := c
  mirror := c.defaults
  status := .powerDown
  ce := none
  csn := none
  pipe := Vector.replicate 6 Pipe.initial
  dec := if c.decPipe.isSome then .running else .exited
  stop := false
  decFail := 0
  life := .opened
  busFault := false
  hist := []
  holdH := none
  holdC := none
  port := .H
  replies := []
  cancelH := false
  cancelC := false
  now := 0
  draws := 0
  device := .scripted []
  inputs := []
  within := []

/-- The machine right after reset, under REF (log entry 1). -/
def State.reset : State := State.resetFor Config.ref

end Sys2Proof.Machine
end

