-- ==== Sys2Proof/Machine/Flags.lean ====
section
/-! DEFINITION. The sticky bits and counters. RFB has no condition codes (spec/10_state.md R13): these are all
the flags there are. -/

namespace Sys2Proof.Machine

/-- A bus transfer failed: `s.busFault <- true` (R13, R41). -/
def State.markBusFault (s : State) : State := { s with busFault := true }

/-- Raise the decoder's stop signal: `s.stop <- true` (R13, R173). -/
def State.raiseStop (s : State) : State := { s with stop := true }

/-- Count one decode failure (R13, R171). -/
def State.countDecodeFailure (s : State) : State := { s with decFail := s.decFail + 1 }

/-- Count one backpressure event of a pipe (R13, R136). -/
def Pipe.countDrop (p : Pipe) : Pipe := { p with drops := p.drops + 1 }

end Sys2Proof.Machine
end

