-- ==== Sys2Proof/Machine/Ops.lean ====
section
/-! DEFINITION. The named operations over State: the history, the pins, waits, responses and errors
(spec/60_exceptions.md R185, R199), the transaction bracket and the bus accesses (spec/20_memory.md R41 to R44, R51),
the pipe records and queues (spec/42_rxpipeset.md R136, R138). -/

namespace Sys2Proof.Machine

open Sys2Proof

/-! ## History, pins, time -/

/-- `emit e` (R7, R30). -/
def State.emit (e : Event) (s : State) : State := { s with hist := s.hist ++ [e] }

/-- `emit Wait(d)`: at least `d` microseconds pass, and a free amount more (R29, R121; log entry 4). -/
def State.wait (d : Nat) (s : State) : State :=
  { s with hist := s.hist ++ [.wait d], now := s.now + d + Config.waitSlack s.draws, draws := s.draws + 1 }

/-- `emit CSN(l); s.csn <- some l` (R42). -/
def State.driveCsn (l : Level) (s : State) : State := { s.emit (.csn l) with csn := some l }

/-- `emit CE(l); s.ce <- some l` (R111 to R115). -/
def State.driveCe (l : Level) (s : State) : State := { s.emit (.ce l) with ce := some l }

/-! ## Responses and errors -/

/-- The response `OK(val)` (R71). -/
def Response.okay (val : Raw) : Response := { code := .ok, val := val, rfd := none }

/-- The response `OK` with a frame (R138, R139). -/
def Response.okFrame (fr : Frame) : Response := { code := .ok, val := 0, rfd := some fr }

/-- An error or answer code with its `val` (R71). -/
def Response.ofCode (code : Code) (val : Raw) : Response := { code := code, val := val, rfd := none }

/-- The 8-bit number of a response code (R71). -/
def Code.code : Code → Byte
  | .ok => 0x00
  | .unknownRegister => 0x01
  | .unknownField => 0x02
  | .readOnlyField => 0x03
  | .illegalStateTransition => 0x04
  | .invalidConfiguration => 0x05
  | .busFault => 0x06
  | .noData => 0x07
  | .timeout => 0x08
  | .cancelled => 0x09
  | .illegalCommand => 0x0A
  | .closed => 0x0B
  | .noSuchPipe => 0x0C
  | .pipeNotConfigured => 0x0D

/-- `rfl`, the length of a response's frame; 0 without one (R71). -/
def Response.frameLength (r : Response) : Nat := (r.rfd.map List.length).getD 0

/-- The operation on the current port ends with this response (R71, R185). -/
def State.respond (r : Response) (s : State) : State := { s with replies := s.replies ++ [(s.port, r)] }

/-- Taking an error, `raise E`: the response names it, `val` is 0, and nothing else happens; the port accepts the
next operation (R7, R185, R199, R201). -/
def State.raise (code : Code) (s : State) : State := s.respond (Response.ofCode code 0)

/-- Has a port an operation in flight (R72)? -/
def State.busy (s : State) : Port → Bool
  | .H => s.holdH.isSome
  | .C => s.holdC.isSome

/-- The operation on a port is no longer in flight. -/
def State.release (p : Port) (s : State) : State :=
  match p with
  | .H => { s with holdH := none }
  | .C => { s with holdC := none }

/-- RECVW holds on a port (R139). -/
def State.holdRecvw (p : Port) (w : Waiting) (s : State) : State :=
  match p with
  | .H => { s with holdH := some (.recvw w) }
  | .C => { s with holdC := some w }

/-- SHUTDOWN, an operation of port H only, holds (R174). -/
def State.holdShutdown (expiry : Nat) (s : State) : State := { s with holdH := some (.shutdown expiry) }

/-- The `cancel` input of a port (R139). -/
def State.cancel (s : State) : Port → Bool
  | .H => s.cancelH
  | .C => s.cancelC

/-- The responses delivered on a port, oldest first. -/
def State.repliesOn (s : State) (p : Port) : List Response :=
  (s.replies.filter fun r => r.1 = p).map Prod.snd

/-! ## The transaction bracket and the bus primitive -/

/-- Open a bracket (R42). -/
def State.select (s : State) : State := (s.driveCsn .low).wait s.cfg.tCS

/-- Close a bracket, on every exit path (R42). -/
def State.deselect (s : State) : State :=
  { (s.wait s.cfg.tCS).driveCsn .high with device := s.device.deselect s.cfg }

/-- What the device answers to `transfer(out)` now (R58). -/
def State.answer (s : State) (out : List Byte) : Answer × Device := s.device.transfer s.cfg s.draws s.hist out

/-- The device after a transfer; the next free value is a fresh one. -/
def State.moved (d : Device) (s : State) : State := { s with device := d, draws := s.draws + 1 }

/-- `transfer(out)`: the bytes received, or none when `BusFault` is raised (R41). -/
def State.transfer (out : List Byte) (s : State) : Option (List Byte) × State :=
  match (s.answer out).1 with
  | .ok inp => (some inp, (s.emit (.xfer out inp)).moved (s.answer out).2)
  | .fail => (none, (s.emit (.xferFail out)).markBusFault.moved (s.answer out).2)

/-- One bracket around one transfer. -/
def State.bracket (out : List Byte) (s : State) : Option (List Byte) × State :=
  let r := s.select.transfer out
  (r.1, r.2.deselect)

/-- The bytes sent by a register read and by a register write (R43, R44). -/
def readBytes (c : Config) (n : RegName) : List Byte :=
  c.readCommand (c.addrOf n) :: List.replicate (c.bytesOf n) c.fill
def writeBytes (c : Config) (n : RegName) (v : Raw) : List Byte :=
  c.writeCommand (c.addrOf n) :: toBytes (c.bytesOf n) v

/-- `BusRead(n) = MemRead(addr(n), nbytes(n))`: byte 0 of the reply is ignored (R43). -/
def busRead (n : RegName) (s : State) : Option Raw × State :=
  let r := s.bracket (readBytes s.cfg n)
  (r.1.map fun inp => assemble inp.tail, r.2)

/-- `BusWrite(n, v)`: the mirror takes `v` only when the transfer succeeded; the result says whether it did (R44). -/
def busWrite (n : RegName) (v : Raw) (s : State) : Bool × State :=
  let r := s.bracket (writeBytes s.cfg n v)
  match r.1 with
  | some _ => (true, { r.2 with mirror := r.2.mirror.set n v })
  | none => (false, r.2)

/-! ## Pipes and queues -/

/-- Replace one pipe record. -/
def State.setPipe (p : PipeNo) (r : Pipe) (s : State) : State := { s with pipe := s.pipe.set p r }

/-- Is there room for one more frame in the queue (R140)? -/
def State.hasRoom (s : State) (p : PipeNo) : Bool := s.pipe[p].q.length < s.cfg.cap[p]

/-- `enq(p, fr)`: store at the tail, or drop the incoming frame and record it (R136; log entry 14). -/
def enqueue (p : PipeNo) (fr : Frame) (s : State) : Bool × State :=
  if s.hasRoom p then (true, s.setPipe p { s.pipe[p] with q := s.pipe[p].q ++ [fr] })
  else (false, (s.setPipe p s.pipe[p].countDrop).emit (.drop p fr))

/-- Remove the head of a queue (R138, R166). -/
def dequeue (p : PipeNo) (s : State) : State := s.setPipe p { s.pipe[p] with q := s.pipe[p].q.tail }

/-! ## The payload read -/

/-- What one payload read found (R51). -/
inductive PopResult where
  | empty
  | noPipe
  | noLen (pipe : PipeNo)
  | frame (pipe : PipeNo) (bytes : Frame)
  | busFault
deriving DecidableEq, Repr

/-- What the pipe-number field of a status byte says (R51, R79). -/
inductive StatusPipe where
  | empty
  | noPipe
  | pipe (p : PipeNo)
deriving DecidableEq, Repr

/-- The pipe-number field of the status byte (R51, R79). -/
def statusPipe (c : Config) (status : Byte) : StatusPipe :=
  let pn := (extract (c.roleField c.role.pipeNo) (status.setWidth 40)).toNat
  if h : pn < 6 then .pipe ⟨pn, h⟩
  else if pn = Config.pipeEmpty then .empty
  else .noPipe

/-- The body of `RxPop` after the status byte: a second transfer of exactly `len` fillers (R51). -/
def popPayload (p : PipeNo) (s : State) : PopResult × State :=
  match s.pipe[p].len with
  | none => (.noLen p, s)
  | some len =>
    let r := s.transfer (List.replicate len s.cfg.fill)
    match r.1 with
    | some bytes => (.frame p bytes, r.2)
    | none => (.busFault, r.2)

/-- The body of `RxPop` (R51). -/
def popBody (s : State) : PopResult × State :=
  let r := s.transfer [s.cfg.rxpl]
  match r.1 with
  | none => (.busFault, r.2)
  | some inp =>
    match statusPipe s.cfg (inp.headD 0) with
    | .empty => (.empty, r.2)
    | .noPipe => (.noPipe, r.2)
    | .pipe p => popPayload p r.2

/-- `RxPop()`: one bracket around the body, closed on every result (R51). -/
def rxPop (s : State) : PopResult × State :=
  let r := popBody s.select
  (r.1, r.2.deselect)

end Sys2Proof.Machine
end

