-- ==== Sys2Proof/Machine/Decoder.lean ====
section
/-! DEFINITION. The wire commands `v`, `p`, `t`, the decode failure, and the owner's DSTOP and SHUTDOWN
(spec/44_decoder.md R166 to R174). The frame has left the queue when a wire command runs (Machine/Fetch.lean). -/

namespace Sys2Proof.Machine

open Sys2Proof

/-- Wire command `v` (R168). -/
def volumeEffect (arg : Byte) (s : State) : State := s.emit (.player (.incrVolume (sext8 arg)))

def execVolume (arg : Byte) (s : State) : Host.Outcome State Fault Refusal := .next (volumeEffect arg s)

/-- Wire command `p`; the argument is ignored (R169). -/
def playEffect (_arg : Byte) (s : State) : State := s.emit (.player .togglePlayPause)

def execPlay (arg : Byte) (s : State) : Host.Outcome State Fault Refusal := .next (playEffect arg s)

/-- Wire command `t`; a count of 0 is a no-op (R170). -/
def trackEffect (arg : Byte) (s : State) : State :=
  if sext8 arg = 0 then s else s.emit (.player (.skipTracks (sext8 arg)))

def execTrack (arg : Byte) (s : State) : Host.Outcome State Fault Refusal := .next (trackEffect arg s)

/-- `fail(fr)`: counted and logged; the frame is gone (R171). -/
def decodeFailure (fr : Frame) (s : State) : State := s.countDecodeFailure.emit (.decodeFailure fr)

/-- DSTOP (R173). -/
def execDstop (s : State) : Host.Outcome State Fault Refusal := .next (s.raiseStop.respond (.okay 0))

/-- The end of SHUTDOWN: cancel a decoder that still runs, release the bus and the pins (R174). DESIGN CHOICE (log
entry 24), unsafe: `ce` and `csn` keep the last level driven, R174 listing neither among what SHUTDOWN writes; the level
of a pin after `Close` is any (spec/93_implementation_defined.md U5). -/
def finishShutdown (s : State) : State :=
  { (({ s with dec := .exited } : State).emit .close) with life := .closed }.respond (.okay 0)

/-- One examination of SHUTDOWN's hold: until the decoder has exited or the bounded wait is over (R174). -/
def shutdownTry (expiry : Nat) (s : State) : State :=
  if s.dec = .exited ∨ expiry ≤ s.now then finishShutdown (s.release .H)
  else s.holdShutdown expiry

/-- SHUTDOWN (R174). -/
def shutdownEffect (s : State) : State := shutdownTry (s.now + s.cfg.tStop) s.raiseStop

def execShutdown (s : State) : Host.Outcome State Fault Refusal := .next (shutdownEffect s)

end Sys2Proof.Machine
end

