-- ==== Sys2Proof/Machine/Queue.lean ====
section
/-! DEFINITION. Queue operations of RxPipeSet: ENQ, HASDATA, RECV, RECVW (spec/42_rxpipeset.md R125, R136 to R140). -/

namespace Sys2Proof.Machine

open Sys2Proof

/-- The 40-bit value of a truth value: 1 or 0 (R136, R137). -/
def flagValue (b : Bool) : Raw := if b then 1 else 0

/-- ENQ (R136). -/
def enqEffect (a : Byte) (fr : Frame) (s : State) : State :=
  match checkPipe a with
  | none => s.raise .invalidConfiguration
  | some p => (enqueue p fr s).2.respond (.okay (flagValue (enqueue p fr s).1))

def execEnq (a : Byte) (fr : Frame) (s : State) : Host.Outcome State Fault Refusal := .next (enqEffect a fr s)

/-- HASDATA (R137). -/
def hasdataEffect (a : Byte) (s : State) : State :=
  match checkPipe a with
  | none => s.raise .invalidConfiguration
  | some p => s.respond (.okay (flagValue (!s.pipe[p].q.isEmpty)))

def execHasdata (a : Byte) (s : State) : Host.Outcome State Fault Refusal := .next (hasdataEffect a s)

/-- RECV: the oldest frame, or `NoData` (R138, R191). -/
def recvEffect (a : Byte) (s : State) : State :=
  match checkPipe a with
  | none => s.raise .invalidConfiguration
  | some p =>
    match s.pipe[p].q with
    | [] => s.raise .noData
    | fr :: _ => (dequeue p s).respond (.okFrame fr)

def execRecv (a : Byte) (s : State) : Host.Outcome State Fault Refusal := .next (recvEffect a s)

/-- Has the timeout of a hold, if it has one, expired: `now >= t0 + to` (R139)? -/
def State.expired (s : State) (expiry : Option Nat) : Bool :=
  match expiry with
  | none => false
  | some e => e ≤ s.now

/-- RECVW with no frame to return: `Cancelled`, else `Timeout`, else it holds (R139, R191). -/
def recvwWait (w : Waiting) (s : State) : State :=
  if s.cancel s.port then (s.release s.port).raise .cancelled
  else if s.expired w.expiry then (s.release s.port).raise .timeout
  else s.holdRecvw s.port w

/-- One examination of RECVW's hold; a frame wins over an expiry or a cancellation (R139). -/
def recvwTry (w : Waiting) (s : State) : State :=
  match s.pipe[w.pipe].q with
  | fr :: _ => ((dequeue w.pipe s).release s.port).respond (.okFrame fr)
  | [] => recvwWait w s

/-- A later examination: once RFB is closed nothing can reach the queues (R174; log entry 9). -/
def recvwPoll (w : Waiting) (s : State) : State :=
  match s.life with
  | .opened => recvwTry w s
  | .closed => recvwWait w s

/-- When a timeout given now expires (R139). -/
def State.expiryOf (s : State) (timeout : Option Raw) : Option Nat := timeout.map fun t => s.now + t.toNat

/-- RECVW (R139): the time of acceptance is now. -/
def recvwEffect (a : Byte) (timeout : Option Raw) (s : State) : State :=
  match checkPipe a with
  | none => s.raise .invalidConfiguration
  | some p => recvwTry { pipe := p, expiry := s.expiryOf timeout } s

def execRecvw (a : Byte) (timeout : Option Raw) (s : State) : Host.Outcome State Fault Refusal :=
  .next (recvwEffect a timeout s)

end Sys2Proof.Machine
end

