-- ==== Sys2Proof/Machine/Fetch.lean ====
section
/-! DEFINITION. How an agent comes to run an operation: a command word arrives on a port
(spec/30_encoding.md R72, R75; spec/60_exceptions.md R196, R198), the decoder takes a frame (spec/44_decoder.md
R166), a hold is examined again (R139, R174), the environment acts (R204); what a reset leaves (R215). -/

namespace Sys2Proof.Machine

open Sys2Proof

/-- What an agent's turn comes to: run an operation at a state, be done, or have no step. -/
inductive Fetch where
  | run (i : Instr) (s : State)
  | done (s : State)
  | refuse (r : Refusal)
deriving DecidableEq, Repr

/-- A command word arrives on a port (R75): `Closed` first, then the decoding and the port, then the operation. -/
def fetchCommand (p : Port) (word : CmdWord) (frame : Frame) (s : State) : Fetch :=
  if s.busy p then .refuse (.portBusy p)
  else match s.life with
    | .closed => .done (({ s with port := p } : State).raise .closed)
    | .opened =>
      match decodeWord word frame with
      | .error _ => .done (({ s with port := p } : State).raise .illegalCommand)
      | .ok i =>
        if p = .C ∧ i.onPortC = false then .done (({ s with port := p } : State).raise .illegalCommand)
        else .run i { s with port := p }

/-- The decoder's step (R166): stop is tested first, then the head frame is taken and parsed. With no decoder, an
exited decoder, a closed RFB or nothing to do there is no step. -/
def fetchDecoder (s : State) : Fetch :=
  match s.cfg.decPipe with
  | none => .done s
  | some dp =>
    if s.dec = .running ∧ s.life = .opened then
      if s.stop then .done { s with dec := .exited }
      else match s.pipe[dp].q with
        | [] => .done s
        | fr :: _ =>
          match decodeFrame fr with
          | .ok i => .run i (dequeue dp s)
          | .error _ => .done (decodeFailure fr (dequeue dp s))
    else .done s

/-- The hold of port H, of port C, is examined again; a port without a hold has nothing to do. -/
def pollOwner (s : State) : State :=
  match s.holdH with
  | none => s
  | some (.recvw w) => recvwPoll w { s with port := .H }
  | some (.shutdown expiry) => shutdownTry expiry { s with port := .H }
def pollConsumer (s : State) : State :=
  match s.holdC with
  | none => s
  | some w => recvwPoll w { s with port := .C }

/-- The environment drives a `cancel` input (R139, R197; log entry 8). -/
def State.driveCancel (p : Port) (level : Bool) (s : State) : State :=
  match p with
  | .H => { s with cancelH := level }
  | .C => { s with cancelC := level }

/-- Reset in any state (R33, R215): RFB is as constructed; the environment is what it was (log entry 11). -/
def State.construct (s : State) : State :=
  { State.resetFor s.cfg with
    replies := s.replies
    cancelH := s.cancelH
    cancelC := s.cancelC
    now := s.now
    draws := s.draws
    device := s.device
    inputs := s.inputs
    within := s.within }

/-- The turn of an agent other than the owner. -/
def fetchAct (a : Act) (s : State) : Fetch :=
  match a with
  | .consumer word => fetchCommand .C word [] s
  | .pollC => .done (pollConsumer s)
  | .decoder => fetchDecoder s
  | .time d => .done { s with now := s.now + d }
  | .cancel p level => .done (s.driveCancel p level)

/-- Place a command word where port H takes its next one; port H is free and RFB open (log entry 15). -/
def placeCommand (word : CmdWord) (frame : Frame) (s : State) : State :=
  { s with inputs := .owner word frame :: s.inputs, holdH := none, life := .opened }

/-- Place a frame where the decoder takes its next one, over the queue's head; the decoder runs and moves next
(log entry 15). -/
def placeFrame (frame : Frame) (s : State) : State :=
  let dp := s.cfg.decPipe.getD 0
  { s.setPipe dp { s.pipe[dp] with q := frame :: s.pipe[dp].q.tail } with
    cfg := { s.cfg with decPipe := some dp }
    dec := .running
    stop := false
    life := .opened
    inputs := .act .decoder :: s.inputs }

end Sys2Proof.Machine
end

