-- ==== Sys2Proof/Machine/Interleave.lean ====
section
/-! DEFINITION. The points inside an operation of port H at which other agents may step: between its brackets,
pin events, waits and queue steps, never inside a bracket (spec/20_memory.md R42, R57; spec/44_decoder.md R165;
log entry 6). An operation is written as a run from point to point. -/

namespace Sys2Proof.Machine

open Sys2Proof

/-- The effect of an operation that an agent other than the owner can run: the three dequeue operations and the
wire commands. No other operation is fetched by those agents. -/
def guestEffect (i : Instr) (s : State) : State :=
  match i with
  | .hasdata a => hasdataEffect a s
  | .recv a => recvEffect a s
  | .recvw a timeout => recvwEffect a timeout s
  | .volume arg => volumeEffect arg s
  | .play arg => playEffect arg s
  | .track arg => trackEffect arg s
  | .get _ | .set _ _ | .getf _ _ | .setf _ _ _ | .getch | .setch _ | .goto _ | .state
  | .psetaddr _ _ | .psetlen _ _ | .psetaa _ _ | .psetdpl _ _ | .pseten _ _
  | .pgetaddr _ | .pgetlen _ | .pgetaa _ | .pgetdpl _ | .pgeten _
  | .enq _ _ | .drain _ | .dstop | .shutdown => s

/-- One act inside an operation. An act whose agent has no step is none: nothing happens (log entry 7). -/
def runAct (s : State) (a : Act) : State :=
  match fetchAct a s with
  | .run i s' => guestEffect i s'
  | .done s' => s'
  | .refuse _ => s

/-- One interleaving point: the acts listed for it happen, and the operation goes on on its own port. -/
def interleave (s : State) : State :=
  match s.within with
  | [] => s
  | acts :: rest => { acts.foldl runAct { s with within := rest } with port := s.port }

/-! ## Operations of port H, from point to point -/

/-- The rest of an operation of port H: it is done, or it has come to a point at which other agents may step, and goes
on from the state they leave. -/
inductive Run (α : Type) where
  | done (result : α) (s : State)
  | point (s : State) (next : State → Run α)

/-- The operation runs to its end: its result and the state. -/
def Run.finish {α : Type} : Run α → α × State
  | .done a s => (a, s)
  | .point s next => (next (interleave s)).finish

/-- The states it passes: at each point, and at its end before it responds. -/
def Run.passes {α : Type} : Run α → List State
  | .done _ s => [s]
  | .point s next => interleave s :: (next (interleave s)).passes

/-- One run after another. -/
def Run.andThen {α β : Type} (r : Run α) (f : α → State → Run β) : Run β :=
  match r with
  | .done a s => f a s
  | .point s next => .point s fun u => (next u).andThen f

/-- An error found before anything is done (R199). -/
def Run.raise (code : Code) (s : State) : Run Response := .done (.ofCode code 0) s

/-- The operation ends with its response (R71). -/
def Run.answer (r : Run Response) : State := r.finish.2.respond r.finish.1

end Sys2Proof.Machine
end

