-- ==== Sys2Proof/Machine/Drain.lean ====
section
/-! DEFINITION. The receive demultiplexer: DRAIN (spec/43_draindemux.md R155 to R161). -/

namespace Sys2Proof.Machine

open Sys2Proof

/-- The iteration cap of an operand byte (R155). -/
def drainCap (b : Byte) : Nat := if b = 0 then Config.drainCapDefault else b.toNat

/-- The number of popped frames as a response value. -/
def countValue (n : Nat) : Raw := BitVec.ofNat 40 n

/-- The loop with `k` iterations left and `n` frames popped so far (R155 to R158). Other agents may step after each
bracket that delivered a frame and after each frame is handed over. -/
def drainLoopRun : Nat → Nat → State → Run Response
  | 0, n, s => .done (.okay (countValue n)) s
  | k + 1, n, s =>
    match (rxPop s).1 with
    | .empty => .done (.okay (countValue n)) (rxPop s).2
    | .noPipe => .done (.ofCode .noSuchPipe (countValue n)) (rxPop s).2
    | .noLen _ => .done (.ofCode .pipeNotConfigured (countValue n)) (rxPop s).2
    | .busFault => .done (.ofCode .busFault (countValue n)) (rxPop s).2
    | .frame p bytes => .point (rxPop s).2 fun u => .point (enqueue p bytes u).2 fun w => drainLoopRun k (n + 1) w

/-- DRAIN: only in Rx (R155, R159). -/
def drainRun (b : Byte) (s : State) : Run Response :=
  match s.status with
  | .rx => drainLoopRun (drainCap b) 0 s
  | .powerDown | .standBy | .tx => .raise .illegalStateTransition s

def execDrain (b : Byte) (s : State) : Host.Outcome State Fault Refusal := .next (drainRun b s).answer

end Sys2Proof.Machine
end

