-- ==== Sys2Proof/Machine/RegisterFile.lean ====
section
/-! DEFINITION. RegisterFile: GET, SET, GETF, SETF, GETCH, SETCH and the field write they share with the other
families (spec/40_registerfile.md R90 to R99). -/

namespace Sys2Proof.Machine

open Sys2Proof

/-- What an operation that reads answers: the value, or `BusFault` (R90, R192). -/
def readResponse (value : Option Raw) : Response :=
  match value with
  | some v => .okay v
  | none => .ofCode .busFault 0

/-- What an operation that writes answers: `OK(0)`, or `BusFault` (R91, R192). -/
def writeResponse (ok : Bool) : Response := if ok then .okay 0 else .ofCode .busFault 0

/-- An operation ends after a bus read, after a bus write. -/
def Run.ofRead (r : Option Raw × State) : Run Response := .done (readResponse r.1) r.2
def Run.ofWrite (r : Bool × State) : Run Response := .done (writeResponse r.1) r.2

/-- `doGetF` (R92). -/
def readField (n : RegName) (f : Field) (s : State) : Option Raw × State :=
  ((busRead n s).1.map (decodeField f), (busRead n s).2)

/-- `doSetF`: read the whole register, mask in the field, write it back; two brackets, and other agents may step
between them (R93). -/
def writeFieldRun (n : RegName) (f : Field) (v : Raw) (s : State) : Run Bool :=
  match (busRead n s).1 with
  | none => .done false (busRead n s).2
  | some old => .point (busRead n s).2 fun u =>
      .done (busWrite n (insertField f old v) u).1 (busWrite n (insertField f old v) u).2

/-- `doGetF` and `doSetF` on the field a role names. -/
def readRole (r : FieldRef) (s : State) : Option Raw × State := readField (.tab r.reg) (s.cfg.roleField r) s
def writeRoleRun (r : FieldRef) (v : Raw) (s : State) : Run Bool :=
  writeFieldRun (.tab r.reg) (s.cfg.roleField r) v s

/-- GET (R90). -/
def getRun (a : Byte) (s : State) : Run Response :=
  match resolveReg s.cfg a with
  | none => .raise .unknownRegister s
  | some n => .ofRead (busRead n s)

def execGet (a : Byte) (s : State) : Host.Outcome State Fault Refusal := .next (getRun a s).answer

/-- SET (R91). -/
def setRun (a : Byte) (v : Raw) (s : State) : Run Response :=
  match resolveReg s.cfg a with
  | none => .raise .unknownRegister s
  | some n => if fitsReg s.cfg n v then .ofWrite (busWrite n v s) else .raise .invalidConfiguration s

def execSet (a : Byte) (v : Raw) (s : State) : Host.Outcome State Fault Refusal := .next (setRun a v s).answer

/-- GETF (R92). -/
def getfRun (a b : Byte) (s : State) : Run Response :=
  match resolveReg s.cfg a with
  | none => .raise .unknownRegister s
  | some n =>
    match resolveField s.cfg n b with
    | none => .raise .unknownField s
    | some f => .ofRead (readField n f s)

def execGetf (a b : Byte) (s : State) : Host.Outcome State Fault Refusal := .next (getfRun a b s).answer

/-- SETF (R93), its checks in the order of R96. -/
def setfRun (a b : Byte) (v : Raw) (s : State) : Run Response :=
  match resolveReg s.cfg a with
  | none => .raise .unknownRegister s
  | some n =>
    match resolveField s.cfg n b with
    | none => .raise .unknownField s
    | some f =>
      match f.access with
      | .ro => .raise .readOnlyField s
      | .rw =>
        if fitsField f v then (writeFieldRun n f v s).andThen fun ok u => .ofWrite (ok, u)
        else .raise .invalidConfiguration s

def execSetf (a b : Byte) (v : Raw) (s : State) : Host.Outcome State Fault Refusal := .next (setfRun a b v s).answer

/-- GETCH: the full raw byte, no mask, no shift (R94). -/
def getchRun (s : State) : Run Response := .ofRead (busRead (.tab s.cfg.role.rfCh.reg) s)

def execGetch (s : State) : Host.Outcome State Fault Refusal := .next (getchRun s).answer

/-- SETCH (R95). -/
def setchRun (v : Raw) (s : State) : Run Response :=
  if s.cfg.rfChMax < v.toNat then .raise .invalidConfiguration s
  else (writeRoleRun s.cfg.role.rfCh v s).andThen fun ok u => .ofWrite (ok, u)

def execSetch (v : Raw) (s : State) : Host.Outcome State Fault Refusal := .next (setchRun v s).answer

end Sys2Proof.Machine
end

