-- ==== Sys2Proof/Machine/PipeConfig.lean ====
section
/-! DEFINITION. Pipe configuration: PSETADDR, PSETLEN, PSETAA, PSETDPL, PSETEN and the PGET operations
(spec/42_rxpipeset.md R125 to R135, R141). -/

namespace Sys2Proof.Machine

open Sys2Proof

/-- The pipe number check comes before any other (R125). -/
def Run.onPipe (a : Byte) (s : State) (k : PipeNo → Run Response) : Run Response :=
  match checkPipe a with
  | none => .raise .invalidConfiguration s
  | some p => k p

/-- The local copy is assigned only when the register write succeeded (R141). -/
def copyIfWritten (p : PipeNo) (update : Pipe → Pipe) (r : Bool × State) : Bool × State :=
  if r.1 then (true, r.2.setPipe p (update r.2.pipe[p])) else r

/-- A flag operand is 0 or 1 (R67, R128). -/
def isFlagValue (v : Raw) : Bool := v.toNat < 2

/-- A payload length is 1 to 32 (R127). -/
def isLength (v : Raw) : Bool := Config.lenMin ≤ v.toNat && v.toNat ≤ Config.lenMax

/-- A per-pipe flag write (R128 to R130). -/
def psetFlagRun (a : Byte) (v : Raw) (role : PipeNo → FieldRef) (update : Bool → Pipe → Pipe) (s : State) :
    Run Response :=
  .onPipe a s fun p =>
    if isFlagValue v then
      (writeRoleRun (role p) v s).andThen fun ok u => .ofWrite (copyIfWritten p (update (v = 1)) (ok, u))
    else .raise .invalidConfiguration s

/-- PSETADDR (R126). -/
def psetaddrRun (a : Byte) (v : Raw) (s : State) : Run Response :=
  .onPipe a s fun p => .ofWrite (copyIfWritten p (fun r => { r with addr := some v }) (busWrite (.rxAddr p) v s))

def execPsetaddr (a : Byte) (v : Raw) (s : State) : Host.Outcome State Fault Refusal := .next (psetaddrRun a v s).answer

/-- PSETLEN (R127). -/
def psetlenRun (a : Byte) (v : Raw) (s : State) : Run Response :=
  .onPipe a s fun p =>
    if isLength v then
      .ofWrite (copyIfWritten p (fun r => { r with len := some v.toNat }) (busWrite (.rxPw p) v s))
    else .raise .invalidConfiguration s

def execPsetlen (a : Byte) (v : Raw) (s : State) : Host.Outcome State Fault Refusal := .next (psetlenRun a v s).answer

/-- PSETAA (R128). -/
def psetaaRun (a : Byte) (v : Raw) (s : State) : Run Response :=
  psetFlagRun a v (fun p => s.cfg.role.enAA[p]) (fun b r => { r with autoAck := some b }) s

def execPsetaa (a : Byte) (v : Raw) (s : State) : Host.Outcome State Fault Refusal := .next (psetaaRun a v s).answer

/-- PSETDPL (R129). -/
def psetdplRun (a : Byte) (v : Raw) (s : State) : Run Response :=
  psetFlagRun a v (fun p => s.cfg.role.dynPd[p]) (fun b r => { r with dynPayload := some b }) s

def execPsetdpl (a : Byte) (v : Raw) (s : State) : Host.Outcome State Fault Refusal := .next (psetdplRun a v s).answer

/-- PSETEN (R130). -/
def psetenRun (a : Byte) (v : Raw) (s : State) : Run Response :=
  psetFlagRun a v (fun p => s.cfg.role.enRx[p]) (fun b r => { r with enabled := some b }) s

def execPseten (a : Byte) (v : Raw) (s : State) : Host.Outcome State Fault Refusal := .next (psetenRun a v s).answer

/-- PGETADDR: the device's answer, not the local copy (R131, R141). -/
def pgetaddrRun (a : Byte) (s : State) : Run Response := .onPipe a s fun p => .ofRead (busRead (.rxAddr p) s)

def execPgetaddr (a : Byte) (s : State) : Host.Outcome State Fault Refusal := .next (pgetaddrRun a s).answer

/-- PGETLEN: the raw byte, not range-checked (R132). -/
def pgetlenRun (a : Byte) (s : State) : Run Response := .onPipe a s fun p => .ofRead (busRead (.rxPw p) s)

def execPgetlen (a : Byte) (s : State) : Host.Outcome State Fault Refusal := .next (pgetlenRun a s).answer

/-- PGETAA (R133). -/
def pgetaaRun (a : Byte) (s : State) : Run Response := .onPipe a s fun p => .ofRead (readRole s.cfg.role.enAA[p] s)

def execPgetaa (a : Byte) (s : State) : Host.Outcome State Fault Refusal := .next (pgetaaRun a s).answer

/-- PGETDPL (R134). -/
def pgetdplRun (a : Byte) (s : State) : Run Response := .onPipe a s fun p => .ofRead (readRole s.cfg.role.dynPd[p] s)

def execPgetdpl (a : Byte) (s : State) : Host.Outcome State Fault Refusal := .next (pgetdplRun a s).answer

/-- PGETEN (R135). -/
def pgetenRun (a : Byte) (s : State) : Run Response := .onPipe a s fun p => .ofRead (readRole s.cfg.role.enRx[p] s)

def execPgeten (a : Byte) (s : State) : Host.Outcome State Fault Refusal := .next (pgetenRun a s).answer

end Sys2Proof.Machine
end

