-- ==== Sys2Proof/Machine/Transceiver.lean ====
section
/-! DEFINITION. TransceiverStateMachine: GOTO with its edges, STATE (spec/41_statemachine.md R110 to R122). -/

namespace Sys2Proof.Machine

open Sys2Proof

/-- The recorded status changes (R22). -/
def State.setStatus (t : Status) (s : State) : State := { s with status := t }

/-- Edge PowerDown to StandBy (R111). -/
def runPU (s : State) : Run Bool :=
  (writeRoleRun s.cfg.role.pwrUp 1 s).andThen fun ok w =>
    if ok then
      .point w fun u => .point (u.driveCe .low) fun u => .done true ((u.wait Config.tPU).setStatus .standBy)
    else .done false w

/-- Edge StandBy to PowerDown (R112). -/
def runPD (s : State) : Run Bool :=
  (writeRoleRun s.cfg.role.pwrUp 0 s).andThen fun ok w =>
    if ok then .done true (w.setStatus .powerDown) else .done false w

/-- Edge StandBy to Rx (R113). -/
def runRX (s : State) : Run Bool :=
  (writeRoleRun s.cfg.role.primRx 1 s).andThen fun ok w =>
    if ok then .point w fun u => .done true ((u.driveCe .high).setStatus .rx) else .done false w

/-- Edge StandBy to Tx (R114). -/
def runTX (s : State) : Run Bool :=
  (writeRoleRun s.cfg.role.primRx 0 s).andThen fun ok w =>
    if ok then
      .point w fun u => .point (u.driveCe .high) fun u => .done true ((u.wait Config.tMode).setStatus .tx)
    else .done false w

/-- Edge Rx or Tx to StandBy: no bus transaction (R115). -/
def runSB (s : State) : Run Bool :=
  .point (s.driveCe .low) fun u => .done true ((u.wait Config.tMode).setStatus .standBy)

/-- The state after it. -/
def edgeSB (s : State) : State := (runSB s).finish.2

/-- Edge Rx or Tx to PowerDown: two internal steps (R116). -/
def runSBPD (s : State) : Run Bool := (runSB s).andThen fun _ w => .point w runPD

/-- The transition table (R110); none for the eight pairs that are not in it (R117). -/
def transition (source target : Status) : Option (State → Run Bool) :=
  match source, target with
  | .powerDown, .standBy => some runPU
  | .standBy, .powerDown => some runPD
  | .standBy, .rx => some runRX
  | .standBy, .tx => some runTX
  | .rx, .standBy | .tx, .standBy => some runSB
  | .rx, .powerDown | .tx, .powerDown => some runSBPD
  | .powerDown, .powerDown | .powerDown, .rx | .powerDown, .tx
  | .standBy, .standBy | .rx, .rx | .rx, .tx | .tx, .tx | .tx, .rx => none

/-- The code of a status as a response value (R70). -/
def statusValue (t : Status) : Raw := BitVec.ofNat 40 t.code

/-- GOTO (R110): the new status, or `BusFault` with the status of the step that failed (R119). -/
def gotoRun (target : Status) (s : State) : Run Response :=
  match transition s.status target with
  | none => .raise .illegalStateTransition s
  | some edge => (edge s).andThen fun ok u =>
      .done (if ok then .okay (statusValue u.status) else .ofCode .busFault 0) u

def execGoto (target : Status) (s : State) : Host.Outcome State Fault Refusal := .next (gotoRun target s).answer

/-- STATE (R118). -/
def execState (s : State) : Host.Outcome State Fault Refusal := .next (s.respond (.okay (statusValue s.status)))

end Sys2Proof.Machine
end

