-- ==== Sys2Proof/Machine/Dispatch.lean ====
section
/-! DEFINITION. One arm per constructor of Instr. -/

namespace Sys2Proof.Machine

def exec (i : Instr) (s : State) : Host.Outcome State Fault Refusal :=
  match i with
  | .get a => Sys2Proof.Machine.execGet a s
  | .set a v => Sys2Proof.Machine.execSet a v s
  | .getf a b => Sys2Proof.Machine.execGetf a b s
  | .setf a b v => Sys2Proof.Machine.execSetf a b v s
  | .getch => Sys2Proof.Machine.execGetch s
  | .setch v => Sys2Proof.Machine.execSetch v s
  | .goto target => Sys2Proof.Machine.execGoto target s
  | .state => Sys2Proof.Machine.execState s
  | .psetaddr a v => Sys2Proof.Machine.execPsetaddr a v s
  | .psetlen a v => Sys2Proof.Machine.execPsetlen a v s
  | .psetaa a v => Sys2Proof.Machine.execPsetaa a v s
  | .psetdpl a v => Sys2Proof.Machine.execPsetdpl a v s
  | .pseten a v => Sys2Proof.Machine.execPseten a v s
  | .pgetaddr a => Sys2Proof.Machine.execPgetaddr a s
  | .pgetlen a => Sys2Proof.Machine.execPgetlen a s
  | .pgetaa a => Sys2Proof.Machine.execPgetaa a s
  | .pgetdpl a => Sys2Proof.Machine.execPgetdpl a s
  | .pgeten a => Sys2Proof.Machine.execPgeten a s
  | .enq a frame => Sys2Proof.Machine.execEnq a frame s
  | .hasdata a => Sys2Proof.Machine.execHasdata a s
  | .recv a => Sys2Proof.Machine.execRecv a s
  | .recvw a timeout => Sys2Proof.Machine.execRecvw a timeout s
  | .drain b => Sys2Proof.Machine.execDrain b s
  | .dstop => Sys2Proof.Machine.execDstop s
  | .shutdown => Sys2Proof.Machine.execShutdown s
  | .volume arg => Sys2Proof.Machine.execVolume arg s
  | .play arg => Sys2Proof.Machine.execPlay arg s
  | .track arg => Sys2Proof.Machine.execTrack arg s

end Sys2Proof.Machine
end

