-- ==== Sys2Proof/Machine/Turn.lean ====
section
/-! DEFINITION. The machine's next turn: an operation, another agent's turn, a reset between operations, or a reset
that meets an operation of port H (spec/60_exceptions.md R204; spec/70_reset_and_hazards.md R215). -/

namespace Sys2Proof.Machine

open Sys2Proof

/-- The states in which a reset can meet an operation of port H after the operation has done something: after each of
its brackets, pin events, waits and queue steps, and before its response, never inside a bracket, in which nothing
else of RFB happens (R42; log entry 23). An operation that is one indivisible step and leaves the environment alone
has none: a reset before its response leaves what a reset before the operation does. -/
def passes (i : Instr) (s : State) : List State :=
  match i with
  | .get a => (getRun a s).passes
  | .set a v => (setRun a v s).passes
  | .getf a b => (getfRun a b s).passes
  | .setf a b v => (setfRun a b v s).passes
  | .getch => (getchRun s).passes
  | .setch v => (setchRun v s).passes
  | .goto target => (gotoRun target s).passes
  | .psetaddr a v => (psetaddrRun a v s).passes
  | .psetlen a v => (psetlenRun a v s).passes
  | .psetaa a v => (psetaaRun a v s).passes
  | .psetdpl a v => (psetdplRun a v s).passes
  | .pseten a v => (psetenRun a v s).passes
  | .pgetaddr a => (pgetaddrRun a s).passes
  | .pgetlen a => (pgetlenRun a s).passes
  | .pgetaa a => (pgetaaRun a s).passes
  | .pgetdpl a => (pgetdplRun a s).passes
  | .pgeten a => (pgetenRun a s).passes
  | .drain b => (drainRun b s).passes
  | .state | .enq _ _ | .hasdata _ | .recv _ | .recvw _ _ | .dstop | .shutdown
  | .volume _ | .play _ | .track _ => []

/-- A reset meets the operation that a command word on port H starts (R215): RFB is as constructed, no response comes,
and the environment is what the operation has left of it so far. A number that is none of the states it passes means
that nothing has been done yet, as for a word that starts no operation. -/
def fetchOwnerReset (word : CmdWord) (frame : Frame) (point : Nat) (s : State) : Fetch :=
  match fetchCommand .H word frame s with
  | .run i s' => .done ((passes i s').getD point s').construct
  | .done _ => .done s.construct
  | .refuse r => .refuse r

/-- The turn an input gives. -/
def fetchInput (i : Input) (s : State) : Fetch :=
  match i with
  | .owner word frame => fetchCommand .H word frame s
  | .pollH => .done (pollOwner s)
  | .act a => fetchAct a s
  | .reset => .done s.construct
  | .ownerReset word frame point => fetchOwnerReset word frame point s

/-- The next turn: the head of `inputs`. With no input nothing happens (log entry 5). -/
def fetch (s : State) : Fetch :=
  match s.inputs with
  | [] => .done s
  | i :: rest => fetchInput i { s with inputs := rest }

end Sys2Proof.Machine
end

