-- ==== Sys2Proof/Machine/Step.lean ====
section
/-! DEFINITION. One step of the machine: the next agent's turn. RFB has no program counter and fetches no program
(spec/10_state.md R12): an operation runs when a command word is presented on a port, a wire command when the
decoder takes a frame. -/

namespace Sys2Proof.Machine

/-- One step: fetch the next turn; an operation runs whole, another turn is done, a turn the model gives no step
is refused. -/
def step (s : State) : Host.Outcome State Fault Refusal :=
  match fetch s with
  | .run i s' => exec i s'
  | .done s' => .next s'
  | .refuse r => .refused r

/-- `s` with the instruction whose bits, numbered as the opcode table numbers them, are `w`, placed where the
next step takes it (log entries 15 and 16). -/
def State.withFetchWord (s : State) (nbits w : Nat) : State :=
  let w := w % 2 ^ nbits
  if tableIsWire nbits then placeFrame (tableFrame w) s
  else placeCommand (tableCommand w).1 (tableCommand w).2 s

end Sys2Proof.Machine
end

