-- ==== Sys2Proof/Safety.lean ====
section
/-! DEFINITION. The vocabulary of claims: what a history says (spec/10_state.md R30, spec/20_memory.md R42, R52),
the invariants of the machine (R32, R19, R25, R28), what other agents may change inside an operation
(spec/44_decoder.md R165), quiescent and final states (spec/70_reset_and_hazards.md R231). -/

namespace Sys2Proof.Machine

open Sys2Proof

/-! ## What a history says -/

/-- The events of one bracket around these transfers (R42). -/
def bracketEvents (c : Config) (body : List Event) : List Event :=
  [.csn .low, .wait c.tCS] ++ body ++ [.wait c.tCS, .csn .high]

/-- An event of the decoder, the only agent besides the owner that emits any (R165). -/
def Event.ofDecoder : Event → Bool
  | .player _ | .decodeFailure _ => true
  | .csn _ | .ce _ | .xfer _ _ | .xferFail _ | .wait _ | .drop _ _ | .close => false

/-- The events of the owner's operations, in order. -/
def ownerEvents (l : List Event) : List Event := l.filter fun e => !Event.ofDecoder e

/-- One event moves a scan of a history between outside (`some false`) and inside (`some true`) a bracket; an event
that may not stand there ends it (`none`) (R42). -/
def bracketStep : Option Bool → Event → Option Bool
  | some false, .csn .low => some true
  | some false, .csn .high => none
  | some false, .xfer _ _ => none
  | some false, .xferFail _ => none
  | some false, .ce _ => some false
  | some false, .wait _ => some false
  | some false, .player _ => some false
  | some false, .decodeFailure _ => some false
  | some false, .drop _ _ => some false
  | some false, .close => some false
  | some true, .csn .high => some false
  | some true, .xfer _ _ => some true
  | some true, .xferFail _ => some true
  | some true, .wait _ => some true
  | some true, .csn .low => none
  | some true, .ce _ => none
  | some true, .player _ => none
  | some true, .decodeFailure _ => none
  | some true, .drop _ _ => none
  | some true, .close => none
  | none, _ => none

/-- Each `CSN(0)` is followed by a `CSN(1)` with only waits and transfers between them, and no transfer lies
outside such a pair (R42). -/
def wellBracketed (l : List Event) : Bool := l.foldl bracketStep (some false) = some false

/-- The last level driven on a pin in a history; after `Close` it need not be the level the pin has (log entry 24). -/
def lastCsn (l : List Event) : Option Level :=
  l.foldl (fun acc e => match e with | .csn v => some v | _ => acc) none
def lastCe (l : List Event) : Option Level :=
  l.foldl (fun acc e => match e with | .ce v => some v | _ => acc) none

/-- Has a transfer failed in this history? -/
def anyFailure (l : List Event) : Bool := l.any fun e => match e with | .xferFail _ => true | _ => false

/-- How many frames of a pipe were dropped, and how many frames failed to parse, in this history. -/
def dropCount (p : PipeNo) (l : List Event) : Nat :=
  l.countP fun e => match e with | .drop q _ => q = p | _ => false
def decodeFailureCount (l : List Event) : Nat :=
  l.countP fun e => match e with | .decodeFailure _ => true | _ => false

/-- How many transfers, successful or not, and how many brackets a history holds. -/
def transferCount (l : List Event) : Nat :=
  l.countP fun e => match e with | .xfer _ _ => true | .xferFail _ => true | _ => false
def bracketCount (l : List Event) : Nat := l.countP fun e => e = .csn .low

/-- The sum of the lower bounds of the waits of a history (R121, R230). -/
def waitTotal (l : List Event) : Nat :=
  (l.map fun e => match e with | .wait d => d | _ => 0).sum

/-! ## What travels on the bus -/

/-- What a register read sends, `[rcmd(addr)] ++ [FILL]^nbytes`, written out for the claims (R43). -/
def readOut (c : Config) (n : RegName) : List Byte :=
  c.readCommand (c.addrOf n) :: List.replicate (c.bytesOf n) c.fill

/-- What a register write sends, `[wcmd(addr)] ++ [(v >> 8i) & 0xFF for i in 0..nbytes-1]`, written out for the
claims (R44). -/
def writeOut (c : Config) (n : RegName) (v : Raw) : List Byte :=
  c.writeCommand (c.addrOf n) :: (List.range (c.bytesOf n)).map fun i => (v >>> (8 * i)).setWidth 8

/-- The device answers the one transfer of the next bracket with these bytes; it fails it. -/
abbrev State.answers (s : State) (out inp : List Byte) : Prop := (s.select.answer out).1 = .ok inp
abbrev State.fails (s : State) (out : List Byte) : Prop := (s.select.answer out).1 = .fail

/-- What a transfer sent. -/
def Event.sent : Event → List Byte
  | .xfer out _ => out
  | .xferFail out => out
  | .csn _ | .ce _ | .wait _ | .player _ | .decodeFailure _ | .drop _ _ | .close => []

/-- The device after one bracket that sends these bytes: it has answered the transfer and seen the bracket end (R58). -/
def State.deviceAfter (s : State) (out : List Byte) : Device := (s.select.answer out).2.deselect s.cfg

/-- A transfer that the device answered with these bytes, and one that it failed: the event is recorded, the device has
moved on, and the next free value is a fresh one (R41, R58). -/
def State.received (s : State) (out inp : List Byte) : State :=
  { s with hist := s.hist ++ [.xfer out inp], device := (s.answer out).2, draws := s.draws + 1 }
def State.lost (s : State) (out : List Byte) : State :=
  { s with hist := s.hist ++ [.xferFail out], busFault := true, device := (s.answer out).2, draws := s.draws + 1 }

/-! ## Invariants -/

/-- A pipe record within its bounds (R24, R25, R32). -/
def Pipe.within (cap : Nat) (p : Pipe) : Prop :=
  p.q.length ≤ cap ∧ (∀ fr ∈ p.q, fr.length ≤ 32) ∧ ∀ l ∈ p.len, 1 ≤ l ∧ l ≤ 32

/-- Every queue holds at most its capacity of frames of at most 32 bytes, every length is 1 to 32 (R32). -/
def PipesWithinBounds (s : State) : Prop := ∀ p : PipeNo, Pipe.within s.cfg.cap[p] s.pipe[p]

/-- Every register's mirror fits the register (R19). -/
def MirrorFits (s : State) : Prop :=
  s.mirror.tab.length = s.cfg.table.length ∧
    ∀ n ∈ s.cfg.names, (s.mirror.get n).toNat < 2 ^ (8 * s.cfg.bytesOf n)

/-- The state agrees with the history: the pins, the sticky bit, the counters, the lifecycle (R13, R23, R28, R42). -/
structure HistoryAgrees (s : State) : Prop where
  brackets : wellBracketed s.hist = true
  csn : s.csn = lastCsn s.hist
  ce : s.ce = lastCe s.hist
  busFault : s.busFault = anyFailure s.hist
  drops : ∀ p : PipeNo, s.pipe[p].drops = dropCount p s.hist
  decFail : s.decFail = decodeFailureCount s.hist
  life : s.life = .closed ↔ Event.close ∈ s.hist

/-- The decoder and the lifecycle (R27, R28, R174): without a designated pipe the decoder has exited; once closed, it
has exited, stop is set, and port H holds nothing. -/
structure LifecycleInv (s : State) : Prop where
  noDecoder : s.cfg.decPipe = none → s.dec = .exited
  closedDecoder : s.life = .closed → s.dec = .exited
  closedStop : s.life = .closed → s.stop = true
  closedPort : s.life = .closed → s.holdH = none
  shutdownStop : ∀ e, s.holdH = some (.shutdown e) → s.stop = true

/-! ## What changes and what does not -/

/-- Everything is as before but what one bus bracket and a response change. -/
def SameButBus (s t : State) : Prop :=
  t = { s with
    mirror := t.mirror, csn := t.csn, busFault := t.busFault, hist := t.hist
    replies := t.replies, now := t.now, draws := t.draws, device := t.device }

/-- A pipe record from which other agents have taken the `k` oldest frames and nothing else. -/
def SamePipeButTaken (p r : Pipe) : Prop := ∃ k, r = { p with q := p.q.drop k }

/-- What other agents may change inside an operation of port H (R57, R165): frames leave the queues at the head, the
decoder exits only when stop is set, failures are counted and player actions emitted, port C goes on, time passes,
`cancel` is driven. Nothing else changes: in particular not the mirror, the status, the pins, the device, the
configuration copies, and no response appears on port H. -/
structure GuestsOnly (s t : State) : Prop where
  rest : t = { s with
    pipe := t.pipe, dec := t.dec, decFail := t.decFail, hist := t.hist, holdC := t.holdC
    replies := t.replies, cancelH := t.cancelH, cancelC := t.cancelC, now := t.now, within := t.within }
  pipes : ∀ p : PipeNo, SamePipeButTaken s.pipe[p] t.pipe[p]
  dec : t.dec = s.dec ∨ (s.stop = true ∧ t.dec = .exited)
  decFail : s.decFail ≤ t.decFail
  events : ∃ new, t.hist = s.hist ++ new ∧ new.all Event.ofDecoder = true
  replies : t.repliesOn .H = s.repliesOn .H
  time : s.now ≤ t.now

/-- Everything is as before but what bus brackets, pin events, waits and a response of port H change, and what other
agents may change meanwhile. The status and the pin levels are left open here and said where they are claimed. -/
structure SameButBusAndGuests (s t : State) : Prop where
  rest : t = { s with
    mirror := t.mirror, status := t.status, ce := t.ce, csn := t.csn, busFault := t.busFault, hist := t.hist
    pipe := t.pipe, dec := t.dec, decFail := t.decFail, holdC := t.holdC, replies := t.replies
    cancelH := t.cancelH, cancelC := t.cancelC, now := t.now, draws := t.draws, device := t.device
    within := t.within }
  dec : t.dec = s.dec ∨ (s.stop = true ∧ t.dec = .exited)
  decFail : s.decFail ≤ t.decFail
  time : s.now ≤ t.now

/-- No pipe changed but by frames other agents have taken, and none at all when no agent is listed to step inside the
operation (R25). -/
structure PipesSameButTaken (s t : State) : Prop where
  taken : ∀ p : PipeNo, SamePipeButTaken s.pipe[p] t.pipe[p]
  quiet : s.within = [] → t.pipe = s.pipe

/-! ## What an operation did -/

/-- One bracket around one transfer happened and nothing else: its five events, chip-select high after it, at least
its two margins of time (R42), the device moved on by what it answered, so that the next transfer asks it anew (R58),
and the next free value is a fresh one (`draws`, log entries 3 and 4). What the bracket did to the mirror and the
sticky bit is said beside it. -/
structure Bracketed (s t : State) (body : Event) : Prop where
  hist : t.hist = s.hist ++ bracketEvents s.cfg [body]
  csn : t.csn = some .high
  time : s.now + 2 * s.cfg.tCS ≤ t.now
  device : t.device = s.deviceAfter (Event.sent body)
  draws : s.draws < t.draws
  rest : SameButBus s t

/-- One bracket happened, then the response was given on the operation's port. -/
structure OneBracket (s t : State) (body : Event) (r : Response) : Prop extends Bracketed s t body where
  replies : t.replies = s.replies ++ [(s.port, r)]

/-- The state in which the write bracket of a field write begins: the read bracket is over, and other agents have
had their turns (R93, R47). -/
def between (n : RegName) (s : State) : State := interleave (busRead n s).2

/-- A field write's read bracket succeeded with these bytes, other agents did what they may, and its write bracket
begins at `between n s` (R93). -/
structure ReadHalf (n : RegName) (s : State) (inp : List Byte) : Prop where
  bracket : Bracketed s (busRead n s).2 (.xfer (readOut s.cfg n) inp)
  mirror : (busRead n s).2.mirror = s.mirror
  busFault : (busRead n s).2.busFault = s.busFault
  replies : (busRead n s).2.replies = s.replies
  guests : GuestsOnly (busRead n s).2 (between n s)
  quiet : s.within = [] → between n s = (busRead n s).2

/-- An operation of port H emitted these events and gave this response; besides them only what the operation's
claim names and what other agents may change is different. With no agent listed to step inside the operation (`quiet`)
the events are the whole of the new history and the response the only new one, and the decoder, port C and `cancel`
are as before. -/
structure OwnerDid (s t : State) (done : List Event) (r : Response) : Prop where
  events : ownerEvents t.hist = ownerEvents s.hist ++ done
  replies : t.repliesOn .H = s.repliesOn .H ++ [r]
  time : s.now + waitTotal done ≤ t.now
  rest : SameButBusAndGuests s t
  quiet : s.within = [] → t = { s with
    mirror := t.mirror, status := t.status, ce := t.ce, csn := t.csn, busFault := t.busFault, pipe := t.pipe
    hist := s.hist ++ done, replies := s.replies ++ [(.H, r)], now := t.now, draws := t.draws, device := t.device }

/-- The bytes a field write puts back: the register as read, with the field's bits masked in (R93). -/
def fieldWriteBytes (c : Config) (n : RegName) (f : Field) (v : Raw) (inp : List Byte) : List Byte :=
  writeOut c n (insertField f (assemble inp.tail) v)

/-- The events of a field write whose two transfers received these bytes (R93). -/
def fieldWriteEvents (c : Config) (n : RegName) (f : Field) (v : Raw) (inp inp' : List Byte) : List Event :=
  bracketEvents c [.xfer (readOut c n) inp] ++ bracketEvents c [.xfer (fieldWriteBytes c n f v inp) inp']

/-- Both transfers of a field write that begins at `s` succeed, and receive these bytes. -/
structure FieldWriteAnswers (n : RegName) (f : Field) (v : Raw) (s : State) (inp inp' : List Byte) : Prop where
  read : s.answers (readOut s.cfg n) inp
  write : (between n s).answers (fieldWriteBytes s.cfg n f v inp) inp'

/-- The device after a field write whose read received these bytes (R93). -/
def fieldWriteDevice (n : RegName) (f : Field) (v : Raw) (s : State) (inp : List Byte) : Device :=
  (between n s).deviceAfter (fieldWriteBytes s.cfg n f v inp)

/-- A transfer of a field write that begins at `s` fails, the read or the write, after these events, and leaves the
device so (R93, R192). -/
inductive FieldWriteFails (n : RegName) (f : Field) (v : Raw) (s : State) : List Event → Device → Prop where
  | read : s.fails (readOut s.cfg n) →
      FieldWriteFails n f v s (bracketEvents s.cfg [.xferFail (readOut s.cfg n)]) (s.deviceAfter (readOut s.cfg n))
  | write (inp : List Byte) : s.answers (readOut s.cfg n) inp →
      (between n s).fails (fieldWriteBytes s.cfg n f v inp) →
      FieldWriteFails n f v s
        (bracketEvents s.cfg [.xfer (readOut s.cfg n) inp]
          ++ bracketEvents s.cfg [.xferFail (fieldWriteBytes s.cfg n f v inp)])
        (fieldWriteDevice n f v s inp)

/-- An operation of port H ended with `BusFault` in a field write: these events and nothing after them; the mirror and
the configuration copies keep their values (R119, R192, R228). -/
structure EndsInBusFault (s t : State) (done : List Event) : Prop where
  did : OwnerDid s t done (.ofCode .busFault 0)
  busFault : t.busFault = true
  csn : t.csn = some .high
  mirror : t.mirror = s.mirror
  pipes : PipesSameButTaken s t

/-- A transition of port H whose field write succeeded: its events and response, and the mirror at the new raw value
(R111 to R116). The status and the level of chip-enable are said beside it. -/
structure EdgeDone (s t : State) (done : List Event) (r : Response) (n : RegName) (raw : Raw) : Prop where
  did : OwnerDid s t done r
  busFault : t.busFault = s.busFault
  csn : t.csn = some .high
  mirror : t.mirror = s.mirror.set n raw
  pipes : PipesSameButTaken s t

/-! ## Reset -/

/-- What a reset met in the state `u` leaves: every piece of RFB's state at its reset value (R33), no operation in
flight, and the environment as it was in `u` (R216; log entry 11). -/
structure ResetFrom (u t : State) : Prop where
  table : ∀ i r, u.cfg.table[i]? = some r →
    t.mirror.get (.tab i) = (r.fields.map fun f => f.dflt <<< f.off).foldl (· + ·) 0
  pseudo : ∀ p : PipeNo, t.mirror.get (.rxAddr p) = u.cfg.pseudo.rxAddr[p].dflt ∧
    t.mirror.get (.rxPw p) = u.cfg.pseudo.rxPw[p].dflt
  txAddr : t.mirror.get .txAddr = u.cfg.pseudo.txAddr.dflt
  status : t.status = .powerDown
  pins : t.ce = none ∧ t.csn = none
  pipes : ∀ p : PipeNo, t.pipe[p] = { addr := none, len := none, autoAck := none, dynPayload := none, enabled := none,
                                      q := [], drops := 0 }
  dec : t.dec = .running ↔ u.cfg.decPipe ≠ none
  decoder : t.stop = false ∧ t.decFail = 0
  life : t.life = .opened
  busFault : t.busFault = false
  hist : t.hist = []
  ports : t.holdH = none ∧ t.holdC = none
  cfg : t.cfg = u.cfg
  device : t.device = u.device
  time : t.now = u.now ∧ t.draws = u.draws
  replies : t.replies = u.replies
  environment : t.cancelH = u.cancelH ∧ t.cancelC = u.cancelC ∧ t.inputs = u.inputs ∧ t.within = u.within

/-- Does the operation use the bus or a pin? -/
def Instr.atBoundary : Instr → Bool
  | .get _ | .set _ _ | .getf _ _ | .setf _ _ _ | .getch | .setch _ | .goto _
  | .psetaddr _ _ | .psetlen _ _ | .psetaa _ _ | .psetdpl _ _ | .pseten _ _
  | .pgetaddr _ | .pgetlen _ | .pgetaa _ | .pgetdpl _ | .pgeten _ | .drain _ => true
  | .state | .enq _ _ | .hasdata _ | .recv _ | .recvw _ _ | .dstop | .shutdown
  | .volume _ | .play _ | .track _ => false

/-- In `u` an operation of port H that began at `s` has done a first part of its events, every bracket it began is
closed, and it has not responded. -/
structure PartDone (s u : State) (done : List Event) : Prop where
  events : ownerEvents u.hist = ownerEvents s.hist ++ done
  closed : wellBracketed done = true
  replies : u.repliesOn .H = s.repliesOn .H
  rest : SameButBusAndGuests s u

/-! ## The receive demultiplexer -/

/-- The pipe-number field of a status byte, as a number (R79). -/
def pipeNumberField (c : Config) (status : Byte) : Nat := status.toNat / 2 ^ (c.roleField c.role.pipeNo).off % 8

/-- One frame DRAIN took from the device: the status byte, the pipe it names, the payload, and whether the queue had
room. -/
structure Popped where
  status : Byte
  pipe : PipeNo
  frame : Frame
  stored : Bool
deriving DecidableEq, Repr

/-- Its events: one bracket with two transfers, and the backpressure record if it was dropped (R156). -/
def Popped.events (c : Config) (x : Popped) : List Event :=
  bracketEvents c [.xfer [c.rxpl] [x.status], .xfer (List.replicate x.frame.length c.fill) x.frame]
    ++ if x.stored then [] else [.drop x.pipe x.frame]

/-- It was read as the status byte and the pipe's payload length say (R156). -/
def Popped.ok (s : State) (x : Popped) : Prop :=
  pipeNumberField s.cfg x.status = x.pipe ∧ s.pipe[x.pipe].len = some x.frame.length

/-- How an invocation with this cap ends after `n` popped frames: its response code and the events of the bracket
that ended it (R155, R157, R158, R161). -/
inductive DrainEnd (s : State) (cap n : Nat) : Code → List Event → Prop where
  | capReached : n = cap → DrainEnd s cap n .ok []
  | empty (st : Byte) : n < cap → pipeNumberField s.cfg st = 7 →
      DrainEnd s cap n .ok (bracketEvents s.cfg [.xfer [s.cfg.rxpl] [st]])
  | noSuchPipe (st : Byte) : n < cap → pipeNumberField s.cfg st = 6 →
      DrainEnd s cap n .noSuchPipe (bracketEvents s.cfg [.xfer [s.cfg.rxpl] [st]])
  | notConfigured (st : Byte) (p : PipeNo) : n < cap → pipeNumberField s.cfg st = p → s.pipe[p].len = none →
      DrainEnd s cap n .pipeNotConfigured (bracketEvents s.cfg [.xfer [s.cfg.rxpl] [st]])
  | statusFault : n < cap → DrainEnd s cap n .busFault (bracketEvents s.cfg [.xferFail [s.cfg.rxpl]])
  | payloadFault (st : Byte) (p : PipeNo) (len : Nat) : n < cap → pipeNumberField s.cfg st = p →
      s.pipe[p].len = some len →
      DrainEnd s cap n .busFault
        (bracketEvents s.cfg [.xfer [s.cfg.rxpl] [st], .xferFail (List.replicate len s.cfg.fill)])

/-- The state after the bracket in which the device answered both transfers of a payload read (R51). -/
def State.popBracket (s : State) (x : Popped) : State :=
  ((s.select.received [s.cfg.rxpl] [x.status]).received (List.replicate x.frame.length s.cfg.fill) x.frame).deselect

/-- The state in which the next iteration begins: the frame is handed to its queue, and other agents have had their
turns after the bracket and after that (R156; log entry 6). -/
def State.afterPop (s : State) (x : Popped) : State :=
  interleave (enqueue x.pipe x.frame (interleave (s.popBracket x))).2

/-- An invocation with this cap, asked of the device transfer by transfer: in every iteration what the device answers,
in the state the iteration has come to, is what is recorded and decides how it goes on (R51, R155 to R158). The last
state is the one in which the response is given. -/
inductive DrainTrace : Nat → State → List Popped → Code → List Event → State → Prop where
  | capReached (s : State) : DrainTrace 0 s [] .ok [] s
  | empty (k : Nat) (s : State) (st : Byte) : s.answers [s.cfg.rxpl] [st] → pipeNumberField s.cfg st = 7 →
      DrainTrace (k + 1) s [] .ok (bracketEvents s.cfg [.xfer [s.cfg.rxpl] [st]])
        (s.select.received [s.cfg.rxpl] [st]).deselect
  | noSuchPipe (k : Nat) (s : State) (st : Byte) : s.answers [s.cfg.rxpl] [st] → pipeNumberField s.cfg st = 6 →
      DrainTrace (k + 1) s [] .noSuchPipe (bracketEvents s.cfg [.xfer [s.cfg.rxpl] [st]])
        (s.select.received [s.cfg.rxpl] [st]).deselect
  | notConfigured (k : Nat) (s : State) (st : Byte) (p : PipeNo) : s.answers [s.cfg.rxpl] [st] →
      pipeNumberField s.cfg st = p → s.pipe[p].len = none →
      DrainTrace (k + 1) s [] .pipeNotConfigured (bracketEvents s.cfg [.xfer [s.cfg.rxpl] [st]])
        (s.select.received [s.cfg.rxpl] [st]).deselect
  | statusFault (k : Nat) (s : State) : s.fails [s.cfg.rxpl] →
      DrainTrace (k + 1) s [] .busFault (bracketEvents s.cfg [.xferFail [s.cfg.rxpl]])
        (s.select.lost [s.cfg.rxpl]).deselect
  | payloadFault (k : Nat) (s : State) (st : Byte) (p : PipeNo) (len : Nat) : s.answers [s.cfg.rxpl] [st] →
      pipeNumberField s.cfg st = p → s.pipe[p].len = some len →
      ((s.select.received [s.cfg.rxpl] [st]).answer (List.replicate len s.cfg.fill)).1 = .fail →
      DrainTrace (k + 1) s [] .busFault
        (bracketEvents s.cfg [.xfer [s.cfg.rxpl] [st], .xferFail (List.replicate len s.cfg.fill)])
        ((s.select.received [s.cfg.rxpl] [st]).lost (List.replicate len s.cfg.fill)).deselect
  | popped (k : Nat) (s : State) (x : Popped) (rest : List Popped) (code : Code) (last : List Event) (t : State) :
      s.answers [s.cfg.rxpl] [x.status] → x.ok s →
      ((s.select.received [s.cfg.rxpl] [x.status]).answer (List.replicate x.frame.length s.cfg.fill)).1
        = .ok x.frame →
      (x.stored = true ↔ (interleave (s.popBracket x)).pipe[x.pipe].q.length < s.cfg.cap[x.pipe]) →
      DrainTrace k (s.afterPop x) rest code last t → DrainTrace (k + 1) s (x :: rest) code last t

/-- The states an invocation passes while it pops these frames: after each bracket that delivered one, and after each
is handed to its queue (R156; log entry 6). -/
def State.popPasses (s : State) : List Popped → List State
  | [] => []
  | x :: rest => interleave (s.popBracket x) :: s.afterPop x :: (s.afterPop x).popPasses rest

/-- The frames for one pipe, in the order they were popped. -/
def framesFor (p : PipeNo) (l : List Popped) : List Frame := (l.filter fun x => x.pipe = p).map Popped.frame

/-! ## Command words -/

/-- The operation codes of the opcode map, as numbers (R73, R74). -/
def legalOps : List Nat :=
  [0x01, 0x02, 0x03, 0x04, 0x05, 0x06, 0x10, 0x11, 0x20, 0x21, 0x22, 0x23, 0x24]
    ++ [0x28, 0x29, 0x2A, 0x2B, 0x2C, 0x30, 0x31, 0x32, 0x33, 0x40, 0x50, 0x51]

/-- The four fields of a command word, as numbers (R66). -/
def opOf (w : CmdWord) : Nat := w.toNat / 2 ^ 56
def aOf (w : CmdWord) : Nat := w.toNat / 2 ^ 48 % 2 ^ 8
def bOf (w : CmdWord) : Nat := w.toNat / 2 ^ 40 % 2 ^ 8
def vOf (w : CmdWord) : Nat := w.toNat % 2 ^ 40

/-- The errors of the word itself, clause by clause (R74), over numbers and independent of the decoder. -/
def illegalWord (w : CmdWord) (frame : Frame) : Prop :=
  opOf w ∉ legalOps
    ∨ (opOf w ∈ [0x05, 0x06, 0x11, 0x40, 0x50, 0x51] ∧ aOf w ≠ 0)
    ∨ (opOf w ∉ [0x03, 0x04, 0x30, 0x33, 0x40] ∧ bOf w ≠ 0)
    ∨ (opOf w ∉ [0x02, 0x04, 0x06, 0x20, 0x21, 0x22, 0x23, 0x24, 0x33] ∧ vOf w ≠ 0)
    ∨ (opOf w = 0x10 ∧ 4 ≤ aOf w)
    ∨ (opOf w = 0x30 ∧ (32 < bOf w ∨ frame.length ≠ bOf w))
    ∨ (opOf w = 0x33 ∧ (2 ≤ bOf w ∨ (bOf w % 2 = 0 ∧ vOf w ≠ 0)))

/-! ## Runs of operations -/

/-- Operations executed one after another, when each has a next state. -/
def execAll : List Instr → State → Option State
  | [], s => some s
  | i :: rest, s =>
    match exec i s with
    | .next t => execAll rest t
    | .fault _ => none
    | .refused _ => none

/-- A state without what no rule reads: the mirror and, of each pipe, the copies of the address and of the three
flags (R19, R142). -/
def Pipe.forget (p : Pipe) : Pipe := { p with addr := none, autoAck := none, dynPayload := none, enabled := none }
def State.forget (s : State) : State :=
  { s with mirror := s.cfg.defaults, pipe := s.pipe.map Pipe.forget }

/-! ## The end of a run -/

/-- Has the decoder an enabled step (R166, R172)? -/
def decoderEnabled (s : State) : Prop :=
  ∃ dp, s.cfg.decPipe = some dp ∧ s.dec = .running ∧ s.life = .opened ∧ (s.stop = true ∨ s.pipe[dp].q ≠ [])

/-- No port has an operation in flight and the decoder has no enabled step (R231). -/
def quiescent (s : State) : Prop := s.holdH = none ∧ s.holdC = none ∧ ¬ decoderEnabled s

/-- A final state (R231). -/
def final (s : State) : Prop := s.life = .closed

end Sys2Proof.Machine
end

