-- ==== Sys2Proof/Certificates/Slice0/Obligations.lean ====
section
/-! DEFINITION. The statements for the provers. A docstring names the rules of spec/ a statement comes from. -/

section Statements

open Sys2Proof Sys2Proof.Machine

/-! ## Encoding -/

/-- The worked encodings of R82: each word, with REF selectors, decodes to the operation it is written for, and that
operation encodes to the word. REF is the model's presumption (log entry 1). -/
def Obligations.WorkedEncodings : Prop :=
  (Config.ref.table[0]?).map RegDesc.name = some "CONFIG" ∧
  (Config.ref.table[5]?).map RegDesc.name = some "RF_CH" ∧
  ((resolveField Config.ref (.tab 0) 1).map Field.name = some "PWR_UP") ∧
  resolveReg Config.ref 0x80 = some (.rxAddr 0) ∧ resolveReg Config.ref 0x93 = some (.rxPw 3) ∧
  (∀ wi ∈ ([
      (0x0100000000000000, .get 0),
      (0x0205000000000028, .set 5 0x28),
      (0x0300010000000000, .getf 0 1),
      (0x0400010000000001, .setf 0 1 1),
      (0x0600000000000028, .setch 40),
      (0x06000000000000C8, .setch 200),
      (0x1001000000000000, .goto .standBy),
      (0x1002000000000000, .goto .rx),
      (0x200100C2C2C2C2C2, .psetaddr 1 0xC2C2C2C2C2),
      (0x2100000000000002, .psetlen 0 2),
      (0x2100000000000021, .psetlen 0 33)] ++ [
      (0x2900000000000000, .pgetlen 0),
      (0x3200000000000000, .recv 0),
      (0x3300010000001388, .recvw 0 (some 5000)),
      (0x4000000000000000, .drain 0),
      (0x4000050000000000, .drain 5),
      (0x0280000102030405, .set 0x80 0x0102030405),
      (0x0193000000000000, .get 0x93)] : List (CmdWord × Instr)),
    decodeWord wi.1 [] = .ok wi.2 ∧ encode wi.2 = .word wi.1 []) ∧
  decodeWord 0x3000020000000000 [0x76, 0xF6] = .ok (.enq 0 [0x76, 0xF6]) ∧
  encode (.enq 0 [0x76, 0xF6]) = .word 0x3000020000000000 [0x76, 0xF6] ∧
  decodeFrame [0x76, 0xF6] = .ok (.volume 0xF6) ∧ encode (.volume 0xF6) = .wire [0x76, 0xF6] ∧
  sext8 0xF6 = -10

/-- Decode and encode agree, for every well-formed operation with every operand value (R66, R73, R74, R76, R77). -/
def Obligations.DecodeOfEncode : Prop := ∀ i : Instr, i.wf = true → decode (encode i) = .ok i

/-- Every word has one meaning: what a word decodes to is well formed and encodes to that word and, for ENQ, that frame
(R66, R73 to R75). -/
def Obligations.EncodeOfDecode : Prop :=
  ∀ (w : CmdWord) (fr : Frame) (i : Instr), decodeWord w fr = .ok i →
    i.wf = true ∧ encode i = .word w (if opOf w = 0x30 then fr else [])

/-- R74: with RFB open and the port free, a word is answered `IllegalCommand`, with no state change and no event,
exactly when it is illegal; every other word runs its operation. On port C a word of another `op` than HASDATA, RECV
and RECVW is illegal too. 231 operation codes are unassigned. -/
def Obligations.IllegalWordsAreRejected : Prop :=
  (List.range 256).countP (fun op => op ∉ legalOps) = 231 ∧
  ∀ (s : State) (w : CmdWord) (rest : List Input), s.life = .opened →
    (∀ fr, s.inputs = .owner w fr :: rest → s.holdH = none →
      (illegalWord w fr →
        step s = .next (({ s with inputs := rest, port := .H } : State).raise .illegalCommand)) ∧
      (¬ illegalWord w fr →
        ∃ i, decodeWord w fr = .ok i ∧ step s = exec i { s with inputs := rest, port := .H })) ∧
    (s.inputs = .act (.consumer w) :: rest → s.holdC = none →
      (illegalWord w [] ∨ opOf w ∉ [0x31, 0x32, 0x33] →
        step s = .next (({ s with inputs := rest, port := .C } : State).raise .illegalCommand)) ∧
      (¬ illegalWord w [] → opOf w ∈ [0x31, 0x32, 0x33] →
        ∃ i, decodeWord w [] = .ok i ∧ step s = exec i { s with inputs := rest, port := .C }))

/-- R68 and R186: which register a selector names, and that an unrecognised one is answered `UnknownRegister` by the
four operations that take one, with nothing changed. -/
def Obligations.RegisterSelectorsNameRegisters : Prop :=
  (∀ (c : Config) (a : Byte),
    (∀ k, resolveReg c a = some (.tab k) ↔ a.toNat = k ∧ k ≤ 0x7F ∧ k < c.table.length) ∧
    (∀ p : PipeNo, resolveReg c a = some (.rxAddr p) ↔ a.toNat = 0x80 + p) ∧
    (resolveReg c a = some .txAddr ↔ a.toNat = 0x86) ∧
    (∀ p : PipeNo, resolveReg c a = some (.rxPw p) ↔ a.toNat = 0x90 + p)) ∧
  ∀ (s : State) (a b : Byte) (v : Raw), resolveReg s.cfg a = none →
    exec (.get a) s = .next (s.raise .unknownRegister) ∧ exec (.set a v) s = .next (s.raise .unknownRegister) ∧
    exec (.getf a b) s = .next (s.raise .unknownRegister) ∧
    exec (.setf a b v) s = .next (s.raise .unknownRegister)

/-! ## Bitfields and bytes -/

/-- R20 and the arithmetic of R99: `extract` and `decode` as numbers. The `plusOne` addition is exact, so a field of
all ones decodes to 2^width. -/
def Obligations.FieldDecodeIsExact : Prop :=
  ∀ (f : Field) (raw : Raw),
    (extract f raw).toNat = raw.toNat / 2 ^ f.off % 2 ^ f.width ∧
    (f.decode = .plain → decodeField f raw = extract f raw) ∧
    (f.decode = .plusOne → f.width ≤ 39 → (decodeField f raw).toNat = (extract f raw).toNat + 1) ∧
    ∀ (c : Config) (n : RegName),
      (decodeAll c n raw).length = (c.fieldsOf n).length ∧
      ∀ (j : Nat) (g : Field), (c.fieldsOf n)[j]? = some g → (decodeAll c n raw)[j]? = some (g.name, decodeField g raw)

/-- R21: `insert` replaces exactly the field's bits, stays within the register, and satisfies the two laws. -/
def Obligations.FieldInsertReplacesTheField : Prop :=
  ∀ (f : Field) (raw v : Raw), v.toNat < 2 ^ f.width → f.off + f.width ≤ 40 →
    (∀ k, k < 40 → (insertField f raw v).getLsbD k =
      if f.off ≤ k ∧ k < f.off + f.width then v.getLsbD (k - f.off) else raw.getLsbD k) ∧
    (∀ m, f.off + f.width ≤ m → raw.toNat < 2 ^ m → (insertField f raw v).toNat < 2 ^ m) ∧
    extract f (insertField f raw v) = v ∧
    ∀ g : Field, f.disjoint g = true → extract g (insertField f raw v) = extract g raw

/-- R45: data position i carries bits 8i+7..8i of the value, in both directions. R14, R18, R43, R44, R50 and R78: the
address, the width and the command byte a register access uses, and that what the model sends for a register is what
R43 and R44 write out. -/
def Obligations.RegisterBytesOnTheBus : Prop :=
  (∀ (n : Nat) (v : Raw), (toBytes n v).length = n ∧
    ∀ i j, i < n → j < 8 → ∃ b, (toBytes n v)[i]? = some b ∧ b.getLsbD j = v.getLsbD (8 * i + j)) ∧
  (∀ (l : List Byte) (i j : Nat) (b : Byte), l[i]? = some b → i < 5 → j < 8 →
    (assemble l).getLsbD (8 * i + j) = b.getLsbD j) ∧
  (∀ l : List Byte, (assemble l).toNat < 2 ^ (8 * l.length)) ∧
  (∀ (n : Nat) (v : Raw), n ≤ 5 → v.toNat < 2 ^ (8 * n) → assemble (toBytes n v) = v) ∧
  ∀ (c : Config) (n : RegName) (v : Raw),
    (∀ k r, n = .tab k → c.table[k]? = some r →
      c.addrOf n = r.addr ∧ c.bytesOf n = match r.width with | .one => 1 | .five => 5) ∧
    (∀ p : PipeNo, n = .rxAddr p → c.addrOf n = c.pseudo.rxAddr[p].addr ∧ c.bytesOf n = 5) ∧
    (n = .txAddr → c.addrOf n = c.pseudo.txAddr.addr ∧ c.bytesOf n = 5) ∧
    (∀ p : PipeNo, n = .rxPw p → c.addrOf n = c.pseudo.rxPw[p].addr ∧ c.bytesOf n = 1) ∧
    (∀ b, c.rcmd.lookup (c.addrOf n) = some b → c.readCommand (c.addrOf n) = b) ∧
    (∀ b, c.wcmd.lookup (c.addrOf n) = some b → c.writeCommand (c.addrOf n) = b) ∧
    readBytes c n = c.readCommand (c.addrOf n) :: List.replicate (c.bytesOf n) c.fill ∧
    writeBytes c n v =
      c.writeCommand (c.addrOf n) :: (List.range (c.bytesOf n)).map fun i => (v >>> (8 * i)).setWidth 8

/-! ## RegisterFile -/

/-- R90: GET is one register read; the response carries the raw value; the mirror is not written. -/
def Obligations.GetReadsTheRegister : Prop :=
  ∀ (s : State) (a : Byte),
    (resolveReg s.cfg a = none → exec (.get a) s = .next (s.raise .unknownRegister)) ∧
    ∀ n, resolveReg s.cfg a = some n →
      let out := s.cfg.readCommand (s.cfg.addrOf n) :: List.replicate (s.cfg.bytesOf n) s.cfg.fill
      (∀ inp, s.answers out inp →
        ∃ t, exec (.get a) s = .next t ∧
          OneBracket s t (.xfer out inp) (.okay (assemble inp.tail)) ∧
          t.mirror = s.mirror ∧ t.busFault = s.busFault) ∧
      (s.fails out →
        ∃ t, exec (.get a) s = .next t ∧
          OneBracket s t (.xferFail out) (.ofCode .busFault 0) ∧
          t.mirror = s.mirror ∧ t.busFault = true)

/-- R91: SET checks the register and the width, then writes once; the mirror takes the value only on success. -/
def Obligations.SetWritesTheRegister : Prop :=
  ∀ (s : State) (a : Byte) (v : Raw),
    (resolveReg s.cfg a = none → exec (.set a v) s = .next (s.raise .unknownRegister)) ∧
    ∀ n, resolveReg s.cfg a = some n →
      (2 ^ (8 * s.cfg.bytesOf n) ≤ v.toNat → exec (.set a v) s = .next (s.raise .invalidConfiguration)) ∧
      (v.toNat < 2 ^ (8 * s.cfg.bytesOf n) →
        let out := s.cfg.writeCommand (s.cfg.addrOf n) ::
          (List.range (s.cfg.bytesOf n)).map fun i => (v >>> (8 * i)).setWidth 8
        (∀ inp, s.answers out inp →
          ∃ t, exec (.set a v) s = .next t ∧
            OneBracket s t (.xfer out inp) (.okay 0) ∧
            t.mirror = s.mirror.set n v ∧ t.busFault = s.busFault) ∧
        (s.fails out →
          ∃ t, exec (.set a v) s = .next t ∧
            OneBracket s t (.xferFail out) (.ofCode .busFault 0) ∧
            t.mirror = s.mirror ∧ t.busFault = true))

/-- R92: GETF reads the whole register once and answers the field's decoded value; a pseudo-register and an index
beyond the field list give `UnknownField`. -/
def Obligations.GetfAnswersTheField : Prop :=
  ∀ (s : State) (a b : Byte),
    (resolveReg s.cfg a = none → exec (.getf a b) s = .next (s.raise .unknownRegister)) ∧
    ∀ n, resolveReg s.cfg a = some n →
      ((s.cfg.fieldsOf n).length ≤ b.toNat → exec (.getf a b) s = .next (s.raise .unknownField)) ∧
      ((∀ k, n ≠ .tab k) → exec (.getf a b) s = .next (s.raise .unknownField)) ∧
      ∀ f, (s.cfg.fieldsOf n)[b.toNat]? = some f →
        let out := s.cfg.readCommand (s.cfg.addrOf n) :: List.replicate (s.cfg.bytesOf n) s.cfg.fill
        (∀ inp, s.answers out inp →
          ∃ t, exec (.getf a b) s = .next t ∧
            OneBracket s t (.xfer out inp) (.okay (decodeField f (assemble inp.tail))) ∧
            t.mirror = s.mirror ∧ t.busFault = s.busFault) ∧
        (s.fails out →
          ∃ t, exec (.getf a b) s = .next t ∧
            OneBracket s t (.xferFail out) (.ofCode .busFault 0) ∧
            t.mirror = s.mirror ∧ t.busFault = true)

/-- R93: SETF makes its four checks in order, then reads the register, masks the field in and writes it back in a
second bracket; other agents may step between the two. A bus failure in either leaves the mirror.
At which points other agents may step, and a reset can meet it, is the model's reading (log entries 6 and 23). -/
def Obligations.SetfReadsThenWrites : Prop :=
  ∀ (s : State) (a b : Byte) (v : Raw),
    (resolveReg s.cfg a = none → exec (.setf a b v) s = .next (s.raise .unknownRegister)) ∧
    ∀ n, resolveReg s.cfg a = some n →
      ((s.cfg.fieldsOf n).length ≤ b.toNat → exec (.setf a b v) s = .next (s.raise .unknownField)) ∧
      ∀ f, (s.cfg.fieldsOf n)[b.toNat]? = some f →
        (f.access = .ro → exec (.setf a b v) s = .next (s.raise .readOnlyField)) ∧
        (f.access = .rw → 2 ^ f.width ≤ v.toNat → exec (.setf a b v) s = .next (s.raise .invalidConfiguration)) ∧
        (f.access = .rw → v.toNat < 2 ^ f.width → s.port = .H →
          (∀ inp inp', FieldWriteAnswers n f v s inp inp' →
            ∃ t, exec (.setf a b v) s = .next t ∧ ReadHalf n s inp ∧
              OneBracket (between n s) t (.xfer (fieldWriteBytes s.cfg n f v inp) inp') (.okay 0) ∧
              t.mirror = s.mirror.set n (insertField f (assemble inp.tail) v) ∧ t.busFault = s.busFault ∧
              ∃ u, passes (.setf a b v) s = [between n s, u] ∧ t = u.respond (.okay 0)) ∧
          (∀ evs d, FieldWriteFails n f v s evs d →
            ∃ t, exec (.setf a b v) s = .next t ∧ EndsInBusFault s t evs ∧ t.status = s.status ∧ t.ce = s.ce ∧
              t.device = d))

/-- R94: GETCH answers the full raw byte of the channel's register, whatever the field's offset and width. -/
def Obligations.GetchAnswersTheRawByte : Prop :=
  ∀ s : State,
    let n : RegName := .tab s.cfg.role.rfCh.reg
    let out := s.cfg.readCommand (s.cfg.addrOf n) :: List.replicate (s.cfg.bytesOf n) s.cfg.fill
    (∀ inp, s.answers out inp →
      ∃ t, exec .getch s = .next t ∧
        OneBracket s t (.xfer out inp) (.okay (assemble inp.tail)) ∧
        t.mirror = s.mirror ∧ t.busFault = s.busFault) ∧
    (s.fails out →
      ∃ t, exec .getch s = .next t ∧
        OneBracket s t (.xferFail out) (.ofCode .busFault 0) ∧
        t.mirror = s.mirror ∧ t.busFault = true)

/-- R95: SETCH refuses a channel above `RF_CH_MAX` before the bus and writes any other through its field.
At which points other agents may step, and a reset can meet it, is the model's reading (log entries 6 and 23). -/
def Obligations.SetchChecksThenWrites : Prop :=
  ∀ (s : State) (v : Raw),
    (s.cfg.rfChMax < v.toNat → exec (.setch v) s = .next (s.raise .invalidConfiguration)) ∧
    (v.toNat ≤ s.cfg.rfChMax → s.port = .H →
      let n : RegName := .tab s.cfg.role.rfCh.reg
      let f := s.cfg.roleField s.cfg.role.rfCh
      (s.cfg.wf = true → v.toNat < 2 ^ f.width) ∧
      (∀ inp inp', FieldWriteAnswers n f v s inp inp' →
        ∃ t, exec (.setch v) s = .next t ∧ ReadHalf n s inp ∧
          OneBracket (between n s) t (.xfer (fieldWriteBytes s.cfg n f v inp) inp') (.okay 0) ∧
          t.mirror = s.mirror.set n (insertField f (assemble inp.tail) v) ∧ t.busFault = s.busFault ∧
          ∃ u, passes (.setch v) s = [between n s, u] ∧ t = u.respond (.okay 0)) ∧
      (∀ evs d, FieldWriteFails n f v s evs d →
        ∃ t, exec (.setch v) s = .next t ∧ EndsInBusFault s t evs ∧ t.status = s.status ∧ t.ce = s.ce ∧
          t.device = d))

/-- R98: writing a read-only field is rejected, for every value, and leaves the state, the history included. -/
def Obligations.ReadOnlyFieldsAreRejected : Prop :=
  ∀ (s : State) (a b : Byte) (v : Raw) (n : RegName) (f : Field),
    resolveReg s.cfg a = some n → resolveField s.cfg n b = some f → f.access = .ro →
    ∃ t, exec (.setf a b v) s = .next t ∧
      t = { s with replies := s.replies ++ [(s.port, .ofCode .readOnlyField 0)] } ∧ t.hist = s.hist

/-- R97: after a SETF that succeeded, a GETF of the same field answers the value written, plus one for the `plusOne`
field, when the device returns in the field's bits what RFB last wrote to the register (the mirror). -/
def Obligations.ReadBackAfterFieldWrite : Prop :=
  ∀ (s t s' : State) (a b : Byte) (v : Raw) (n : RegName) (f : Field) (inp inp' back : List Byte),
    s.cfg.wf = true → MirrorFits s → s.port = .H →
    resolveReg s.cfg a = some n → resolveField s.cfg n b = some f → f.access = .rw → v.toNat < 2 ^ f.width →
    FieldWriteAnswers n f v s inp inp' → exec (.setf a b v) s = .next t →
    s'.cfg = t.cfg → s'.mirror.get n = t.mirror.get n → s'.answers (readOut s.cfg n) back →
    extract f (assemble back.tail) = extract f (s'.mirror.get n) →
    ∃ u, exec (.getf a b) s' = .next u ∧
      u.replies = s'.replies ++ [(s'.port, .okay (if f.decode = .plusOne then v + 1 else v))]

/-- Errors of kinds 3 to 8 are clean (R199, R198): an operation of port H that answers one of these codes has changed
nothing else, and `val` is 0. -/
def Obligations.CleanErrorsChangeNothing : Prop :=
  ∀ (i : Instr) (s t : State) (r : Response), s.port = .H → exec i s = .next t →
    t.repliesOn .H = s.repliesOn .H ++ [r] →
    r.code ∈ [Code.unknownRegister, .unknownField, .readOnlyField, .illegalStateTransition, .invalidConfiguration] →
    t = { s with replies := s.replies ++ [(.H, r)] } ∧ r.val = 0 ∧ r.rfd = none

/-- `BusFault` (R192): it comes only from an operation that issues a bus transaction; the sticky bit is set and
chip-select is high again; the mirror and the configuration copies are not updated; `val` is 0 except for DRAIN. -/
def Obligations.BusFaultLeavesCopies : Prop :=
  ∀ (i : Instr) (s t : State) (r : Response), s.port = .H → exec i s = .next t →
    t.repliesOn .H = s.repliesOn .H ++ [r] → r.code = .busFault →
    t.busFault = true ∧ t.csn = some .high ∧ t.mirror = s.mirror ∧
    (∀ p : PipeNo, t.pipe[p] = { s.pipe[p] with q := t.pipe[p].q, drops := t.pipe[p].drops }) ∧
    ((∀ b, i ≠ .drain b) → r.val = 0) ∧
    i ≠ .state ∧ i ≠ .dstop ∧ i ≠ .shutdown ∧ (s.status = .rx ∨ s.status = .tx → i ≠ .goto .standBy) ∧
    ∀ (a : Byte) (fr : Frame) (timeout : Option Raw),
      i ≠ .enq a fr ∧ i ≠ .hasdata a ∧ i ≠ .recv a ∧ i ≠ .recvw a timeout

/-! ## TransceiverStateMachine -/

/-- R111: PowerDown to StandBy.
At which points other agents may step, and a reset can meet it, is the model's reading (log entries 6 and 23). -/
def Obligations.EdgePowerDownToStandBy : Prop :=
  ∀ (s : State) (inp inp' : List Byte), s.port = .H → s.status = .powerDown →
    let n : RegName := .tab s.cfg.role.pwrUp.reg
    let f := s.cfg.roleField s.cfg.role.pwrUp
    FieldWriteAnswers n f 1 s inp inp' →
    ∃ t, exec (.goto .standBy) s = .next t ∧
      EdgeDone s t (fieldWriteEvents s.cfg n f 1 inp inp' ++ [.ce .low, .wait 1500]) (.okay 1)
        n (insertField f (assemble inp.tail) 1) ∧
      t.ce = some .low ∧ t.status = .standBy ∧ t.device = fieldWriteDevice n f 1 s inp ∧
      between n s ∈ passes (.goto .standBy) s

/-- R112: StandBy to PowerDown; chip-enable is not touched.
At which points other agents may step, and a reset can meet it, is the model's reading (log entries 6 and 23). -/
def Obligations.EdgeStandByToPowerDown : Prop :=
  ∀ (s : State) (inp inp' : List Byte), s.port = .H → s.status = .standBy →
    let n : RegName := .tab s.cfg.role.pwrUp.reg
    let f := s.cfg.roleField s.cfg.role.pwrUp
    FieldWriteAnswers n f 0 s inp inp' →
    ∃ t, exec (.goto .powerDown) s = .next t ∧
      EdgeDone s t (fieldWriteEvents s.cfg n f 0 inp inp') (.okay 0) n (insertField f (assemble inp.tail) 0) ∧
      t.ce = s.ce ∧ t.status = .powerDown ∧ t.device = fieldWriteDevice n f 0 s inp ∧
      between n s ∈ passes (.goto .powerDown) s

/-- R113: StandBy to Rx; no wait.
At which points other agents may step, and a reset can meet it, is the model's reading (log entries 6 and 23). -/
def Obligations.EdgeStandByToRx : Prop :=
  ∀ (s : State) (inp inp' : List Byte), s.port = .H → s.status = .standBy →
    let n : RegName := .tab s.cfg.role.primRx.reg
    let f := s.cfg.roleField s.cfg.role.primRx
    FieldWriteAnswers n f 1 s inp inp' →
    ∃ t, exec (.goto .rx) s = .next t ∧
      EdgeDone s t (fieldWriteEvents s.cfg n f 1 inp inp' ++ [.ce .high]) (.okay 2)
        n (insertField f (assemble inp.tail) 1) ∧
      t.ce = some .high ∧ t.status = .rx ∧ t.device = fieldWriteDevice n f 1 s inp ∧
      between n s ∈ passes (.goto .rx) s

/-- R114: StandBy to Tx.
At which points other agents may step, and a reset can meet it, is the model's reading (log entries 6 and 23). -/
def Obligations.EdgeStandByToTx : Prop :=
  ∀ (s : State) (inp inp' : List Byte), s.port = .H → s.status = .standBy →
    let n : RegName := .tab s.cfg.role.primRx.reg
    let f := s.cfg.roleField s.cfg.role.primRx
    FieldWriteAnswers n f 0 s inp inp' →
    ∃ t, exec (.goto .tx) s = .next t ∧
      EdgeDone s t (fieldWriteEvents s.cfg n f 0 inp inp' ++ [.ce .high, .wait 130]) (.okay 3)
        n (insertField f (assemble inp.tail) 0) ∧
      t.ce = some .high ∧ t.status = .tx ∧ t.device = fieldWriteDevice n f 0 s inp ∧
      between n s ∈ passes (.goto .tx) s

/-- R115: Rx or Tx to StandBy; no bus transaction, so no failure.
At which points other agents may step is the model's reading (log entry 6). -/
def Obligations.EdgeActiveToStandBy : Prop :=
  ∀ s : State, s.port = .H → s.status = .rx ∨ s.status = .tx →
    ∃ t, exec (.goto .standBy) s = .next t ∧ OwnerDid s t [.ce .low, .wait 130] (.okay 1) ∧
      t.ce = some .low ∧ t.status = .standBy ∧ t.mirror = s.mirror ∧ t.csn = s.csn ∧ t.busFault = s.busFault ∧
      t.device = s.device ∧ PipesSameButTaken s t

/-- R116: Rx or Tx to PowerDown is the step to StandBy, then the step to PowerDown, inside one operation.
At which points other agents may step, and a reset can meet it, is the model's reading (log entries 6 and 23). -/
def Obligations.EdgeActiveToPowerDown : Prop :=
  ∀ (s : State) (inp inp' : List Byte), s.port = .H → s.status = .rx ∨ s.status = .tx →
    let n : RegName := .tab s.cfg.role.pwrUp.reg
    let f := s.cfg.roleField s.cfg.role.pwrUp
    let s₁ := interleave (edgeSB s)
    OwnerDid s (s₁.respond (.okay 1)) [.ce .low, .wait 130] (.okay 1) ∧ s₁.status = .standBy ∧ s₁.ce = some .low ∧
    (FieldWriteAnswers n f 0 s₁ inp inp' →
      ∃ t, exec (.goto .powerDown) s = .next t ∧
        EdgeDone s t ([.ce .low, .wait 130] ++ fieldWriteEvents s.cfg n f 0 inp inp') (.okay 0)
          n (insertField f (assemble inp.tail) 0) ∧
        t.ce = some .low ∧ t.status = .powerDown ∧ t.device = fieldWriteDevice n f 0 s₁ inp ∧
        s₁ ∈ passes (.goto .powerDown) s ∧ between n s₁ ∈ passes (.goto .powerDown) s)

/-- R117: the eight pairs outside the transition table, and no other pair, are refused with nothing changed. -/
def Obligations.IllegalTransitionsAreRefused : Prop :=
  ∀ (s : State) (target : Status), s.port = .H →
    ((s.status, target) ∈ ([(.powerDown, .powerDown), (.powerDown, .rx), (.powerDown, .tx), (.standBy, .standBy),
        (.rx, .rx), (.rx, .tx), (.tx, .tx), (.tx, .rx)] : List (Status × Status)) ↔
      exec (.goto target) s = .next (s.raise .illegalStateTransition))

/-- R119: a failing field write ends an edge. The status and chip-enable stay as they were when the edge began, which
for the second step of the two-step transition is StandBy and low.
At which points other agents may step is the model's reading (log entry 6). -/
def Obligations.TransitionFailureKeepsTheStatus : Prop :=
  ∀ (s : State) (evs : List Event) (d : Device), s.port = .H →
    (∀ (source target : Status) (r : FieldRef) (v : Raw),
      (source, target, r, v) ∈ ([(.powerDown, .standBy, s.cfg.role.pwrUp, 1), (.standBy, .powerDown, s.cfg.role.pwrUp, 0),
        (.standBy, .rx, s.cfg.role.primRx, 1), (.standBy, .tx, s.cfg.role.primRx, 0)]
          : List (Status × Status × FieldRef × Raw)) →
      s.status = source → FieldWriteFails (.tab r.reg) (s.cfg.roleField r) v s evs d →
      ∃ t, exec (.goto target) s = .next t ∧ EndsInBusFault s t evs ∧ t.status = source ∧ t.ce = s.ce ∧
        t.device = d) ∧
    (s.status = .rx ∨ s.status = .tx →
      let r := s.cfg.role.pwrUp
      FieldWriteFails (.tab r.reg) (s.cfg.roleField r) 0 (interleave (edgeSB s)) evs d →
      ∃ t, exec (.goto .powerDown) s = .next t ∧ EndsInBusFault s t ([.ce .low, .wait 130] ++ evs) ∧
        t.status = .standBy ∧ t.ce = some .low ∧ t.device = d)

/-- R118: STATE answers the recorded status, and changes nothing. -/
def Obligations.StateAnswersTheStatus : Prop :=
  ∀ s : State, ∃ t, exec .state s = .next t ∧
    t = { s with replies := s.replies ++ [(s.port, .okay (BitVec.ofNat 40
      (match s.status with | .powerDown => 0 | .standBy => 1 | .rx => 2 | .tx => 3)))] }

/-- R22 and R203: only a GOTO of the owner and reset change the recorded status or the level of chip-enable. -/
def Obligations.OnlyGotoChangesStatus : Prop :=
  ∀ (s t : State), step s = .next t → (t.status ≠ s.status ∨ t.ce ≠ s.ce) →
    (∃ w fr target rest, s.inputs = .owner w fr :: rest ∧ decodeWord w fr = .ok (.goto target)) ∨
    (∃ rest, s.inputs = .reset :: rest) ∨ ∃ w fr k rest, s.inputs = .ownerReset w fr k :: rest

/-! ## RxPipeSet -/

/-- R125: every operation on a pipe checks the pipe number before anything else. -/
def Obligations.PipeNumberCheckedFirst : Prop :=
  ∀ (s : State) (a : Byte) (v : Raw) (fr : Frame) (timeout : Option Raw), 6 ≤ a.toNat →
    ∀ i ∈ [Instr.psetaddr a v, .psetlen a v, .psetaa a v, .psetdpl a v, .pseten a v, .pgetaddr a, .pgetlen a,
        .pgetaa a, .pgetdpl a, .pgeten a, .enq a fr, .hasdata a, .recv a, .recvw a timeout],
      exec i s = .next (s.raise .invalidConfiguration)

/-- R126: PSETADDR writes the five bytes, then the local copy, which a bus failure leaves. -/
def Obligations.PsetaddrWritesThenCopies : Prop :=
  ∀ (s : State) (a : Byte) (v : Raw),
    (6 ≤ a.toNat → exec (.psetaddr a v) s = .next (s.raise .invalidConfiguration)) ∧
    ∀ p : PipeNo, a.toNat = p →
      let out := s.cfg.writeCommand s.cfg.pseudo.rxAddr[p].addr ::
        (List.range 5).map fun i => (v >>> (8 * i)).setWidth 8
      (∀ inp, s.answers out inp →
        ∃ t, exec (.psetaddr a v) s = .next t ∧
          OneBracket (s.setPipe p { s.pipe[p] with addr := some v }) t (.xfer out inp) (.okay 0) ∧
          t.mirror = s.mirror.set (.rxAddr p) v ∧ t.busFault = s.busFault) ∧
      (s.fails out →
        ∃ t, exec (.psetaddr a v) s = .next t ∧
          OneBracket s t (.xferFail out) (.ofCode .busFault 0) ∧
          t.mirror = s.mirror ∧ t.busFault = true)

/-- R127: PSETLEN refuses a length outside 1..32 before any write; else it writes the byte, then the local copy. -/
def Obligations.PsetlenWritesThenCopies : Prop :=
  ∀ (s : State) (a : Byte) (v : Raw),
    (6 ≤ a.toNat → exec (.psetlen a v) s = .next (s.raise .invalidConfiguration)) ∧
    ∀ p : PipeNo, a.toNat = p →
      (v.toNat < 1 ∨ 32 < v.toNat → exec (.psetlen a v) s = .next (s.raise .invalidConfiguration)) ∧
      (1 ≤ v.toNat → v.toNat ≤ 32 →
        let out := [s.cfg.writeCommand s.cfg.pseudo.rxPw[p].addr, BitVec.ofNat 8 v.toNat]
        (∀ inp, s.answers out inp →
          ∃ t, exec (.psetlen a v) s = .next t ∧
            OneBracket (s.setPipe p { s.pipe[p] with len := some v.toNat }) t (.xfer out inp) (.okay 0) ∧
            t.mirror = s.mirror.set (.rxPw p) v ∧ t.busFault = s.busFault) ∧
        (s.fails out →
          ∃ t, exec (.psetlen a v) s = .next t ∧
            OneBracket s t (.xferFail out) (.ofCode .busFault 0) ∧
            t.mirror = s.mirror ∧ t.busFault = true))

/-- R128 to R130: PSETAA, PSETDPL, PSETEN refuse a flag value above 1 before the bus; else each writes its bit through
a field write, then its local copy, which a bus failure leaves.
At which points other agents may step, and a reset can meet it, is the model's reading (log entries 6 and 23). -/
def Obligations.PsetFlagsWriteThenCopy : Prop :=
  ∀ (op : Byte → Raw → Instr) (role : Config → PipeNo → FieldRef) (update : Bool → Pipe → Pipe),
    (op, role, update) ∈ ([
      (Instr.psetaa, fun c p => c.role.enAA[p], fun b r => { r with autoAck := some b }),
      (Instr.psetdpl, fun c p => c.role.dynPd[p], fun b r => { r with dynPayload := some b }),
      (Instr.pseten, fun c p => c.role.enRx[p], fun b r => { r with enabled := some b })]
        : List ((Byte → Raw → Instr) × (Config → PipeNo → FieldRef) × (Bool → Pipe → Pipe))) →
    ∀ (s : State) (a : Byte) (v : Raw),
      (6 ≤ a.toNat → exec (op a v) s = .next (s.raise .invalidConfiguration)) ∧
      ∀ p : PipeNo, a.toNat = p →
        (2 ≤ v.toNat → exec (op a v) s = .next (s.raise .invalidConfiguration)) ∧
        (v.toNat < 2 → s.port = .H →
          let n : RegName := .tab (role s.cfg p).reg
          let f := s.cfg.roleField (role s.cfg p)
          (∀ inp inp', FieldWriteAnswers n f v s inp inp' →
            ∃ t, exec (op a v) s = .next t ∧ ReadHalf n s inp ∧
              OneBracket ((between n s).setPipe p (update (v = 1) (between n s).pipe[p])) t
                (.xfer (fieldWriteBytes s.cfg n f v inp) inp') (.okay 0) ∧
              t.mirror = s.mirror.set n (insertField f (assemble inp.tail) v) ∧ t.busFault = s.busFault ∧
              ∃ u, passes (op a v) s = [between n s, u] ∧ t = u.respond (.okay 0)) ∧
          (∀ evs d, FieldWriteFails n f v s evs d →
            ∃ t, exec (op a v) s = .next t ∧ EndsInBusFault s t evs ∧ t.status = s.status ∧ t.ce = s.ce ∧
              t.device = d))

/-- R131 and R132: PGETADDR and PGETLEN answer what the device returns, not the local copy, not range-checked. -/
def Obligations.PgetRegistersReadTheDevice : Prop :=
  ∀ (op : Byte → Instr) (reg : PipeNo → RegName) (bytes : Nat),
    (op, reg, bytes) ∈ ([(Instr.pgetaddr, RegName.rxAddr, 5), (Instr.pgetlen, RegName.rxPw, 1)]
      : List ((Byte → Instr) × (PipeNo → RegName) × Nat)) →
    ∀ (s : State) (a : Byte),
      (6 ≤ a.toNat → exec (op a) s = .next (s.raise .invalidConfiguration)) ∧
      ∀ p : PipeNo, a.toNat = p →
        let out := s.cfg.readCommand (s.cfg.addrOf (reg p)) :: List.replicate bytes s.cfg.fill
        (∀ inp, s.answers out inp →
          ∃ t, exec (op a) s = .next t ∧ OneBracket s t (.xfer out inp) (.okay (assemble inp.tail)) ∧
            t.mirror = s.mirror ∧ t.busFault = s.busFault) ∧
        (s.fails out →
          ∃ t, exec (op a) s = .next t ∧ OneBracket s t (.xferFail out) (.ofCode .busFault 0) ∧
            t.mirror = s.mirror ∧ t.busFault = true)

/-- R133 to R135: PGETAA, PGETDPL, PGETEN read the register that holds the pipe's bit and answer the field. -/
def Obligations.PgetFlagsReadTheDevice : Prop :=
  ∀ (op : Byte → Instr) (role : Config → PipeNo → FieldRef),
    (op, role) ∈ ([(Instr.pgetaa, fun c p => c.role.enAA[p]), (Instr.pgetdpl, fun c p => c.role.dynPd[p]),
      (Instr.pgeten, fun c p => c.role.enRx[p])] : List ((Byte → Instr) × (Config → PipeNo → FieldRef))) →
    ∀ (s : State) (a : Byte),
      (6 ≤ a.toNat → exec (op a) s = .next (s.raise .invalidConfiguration)) ∧
      ∀ p : PipeNo, a.toNat = p →
        let n : RegName := .tab (role s.cfg p).reg
        let f := s.cfg.roleField (role s.cfg p)
        let out := s.cfg.readCommand (s.cfg.addrOf n) :: List.replicate (s.cfg.bytesOf n) s.cfg.fill
        (∀ inp, s.answers out inp →
          ∃ t, exec (op a) s = .next t ∧
            OneBracket s t (.xfer out inp) (.okay (decodeField f (assemble inp.tail))) ∧
            t.mirror = s.mirror ∧ t.busFault = s.busFault) ∧
        (s.fails out →
          ∃ t, exec (op a) s = .next t ∧
            OneBracket s t (.xferFail out) (.ofCode .busFault 0) ∧
            t.mirror = s.mirror ∧ t.busFault = true)

/-- R136 and R140: ENQ stores at the tail, or drops the incoming frame and records it; nothing else changes.
In a state with more frames than the capacity, which no run reaches, R136's test for exactly CAP frames would store;
that the frame is dropped there is the model's reading (log entry 14, with R140). -/
def Obligations.EnqStoresOrDrops : Prop :=
  ∀ (s : State) (a : Byte) (fr : Frame),
    (6 ≤ a.toNat → exec (.enq a fr) s = .next (s.raise .invalidConfiguration)) ∧
    ∀ p : PipeNo, a.toNat = p →
      (s.pipe[p].q.length < s.cfg.cap[p] →
        exec (.enq a fr) s = .next { s with
          pipe := s.pipe.set p { s.pipe[p] with q := s.pipe[p].q ++ [fr] }
          replies := s.replies ++ [(s.port, .okay 1)] }) ∧
      (s.cfg.cap[p] ≤ s.pipe[p].q.length →
        exec (.enq a fr) s = .next { s with
          pipe := s.pipe.set p { s.pipe[p] with drops := s.pipe[p].drops + 1 }
          hist := s.hist ++ [.drop p fr]
          replies := s.replies ++ [(s.port, .okay 0)] })

/-- R137: HASDATA answers whether the queue holds a frame, and changes nothing. -/
def Obligations.HasdataTellsIfQueued : Prop :=
  ∀ (s : State) (a : Byte),
    (6 ≤ a.toNat → exec (.hasdata a) s = .next (s.raise .invalidConfiguration)) ∧
    ∀ p : PipeNo, a.toNat = p →
      (s.pipe[p].q ≠ [] → exec (.hasdata a) s = .next (s.respond (.okay 1))) ∧
      (s.pipe[p].q = [] → exec (.hasdata a) s = .next (s.respond (.okay 0)))

/-- R138: RECV removes exactly the oldest frame and answers it; on an empty queue it answers `NoData`. -/
def Obligations.RecvTakesTheOldest : Prop :=
  ∀ (s : State) (a : Byte),
    (6 ≤ a.toNat → exec (.recv a) s = .next (s.raise .invalidConfiguration)) ∧
    ∀ p : PipeNo, a.toNat = p →
      (s.pipe[p].q = [] → exec (.recv a) s = .next (s.raise .noData)) ∧
      ∀ fr rest, s.pipe[p].q = fr :: rest →
        exec (.recv a) s = .next { s with
          pipe := s.pipe.set p { s.pipe[p] with q := rest }
          replies := s.replies ++ [(s.port, .okFrame fr)] }

/-- R139, at acceptance: a frame is answered at once, whatever the timeout and `cancel`; on an empty queue `cancel` and
a timeout of 0 end RECVW at once; else it holds and nothing is answered.
That a RECVW accepted with `cancel` already high is Cancelled is the model's reading (log entry 8), and that the hold
is data, examined first at acceptance, its choice (log entry 5). -/
def Obligations.RecvwAccepted : Prop :=
  ∀ (s : State) (a : Byte) (timeout : Option Raw),
    (6 ≤ a.toNat → exec (.recvw a timeout) s = .next (s.raise .invalidConfiguration)) ∧
    ∀ p : PipeNo, a.toNat = p →
      (∀ fr rest, s.pipe[p].q = fr :: rest →
        exec (.recvw a timeout) s =
          .next (((s.setPipe p { s.pipe[p] with q := rest }).release s.port).respond (.okFrame fr))) ∧
      (s.pipe[p].q = [] →
        (s.cancel s.port = true → exec (.recvw a timeout) s = .next ((s.release s.port).raise .cancelled)) ∧
        (s.cancel s.port = false → timeout = some 0 →
          exec (.recvw a timeout) s = .next ((s.release s.port).raise .timeout)) ∧
        (s.cancel s.port = false → timeout ≠ some 0 →
          exec (.recvw a timeout) s =
            .next (s.holdRecvw s.port { pipe := p, expiry := timeout.map fun d => s.now + d.toNat })))

/-- R139, while RECVW holds: when a port is examined again, a frame wins over `cancel`, `cancel` over an expiry, and
with none of the three the hold stays and nothing else changes. A RECVW that is pending when RFB has closed no longer
reaches its queue: it ends by `cancel` or its expiry, whatever the queue holds.
That a hold is examined in a step of its own is the model's choice (log entry 5), how `cancel` is read (log entry 8)
and what a pending RECVW does once RFB is closed (log entry 9) its readings. -/
def Obligations.RecvwHolds : Prop :=
  ∀ (s : State) (p : Port) (w : Waiting) (rest : List Input),
    (p = .H ∧ s.inputs = .pollH :: rest ∧ s.holdH = some (.recvw w) ∨
      p = .C ∧ s.inputs = .act .pollC :: rest ∧ s.holdC = some w) →
    let s₀ : State := { s with inputs := rest, port := p }
    (∀ fr tl, s.life = .opened → s.pipe[w.pipe].q = fr :: tl →
      step s = .next (((s₀.setPipe w.pipe { s.pipe[w.pipe] with q := tl }).release p).respond (.okFrame fr))) ∧
    (s.life = .closed ∨ s.pipe[w.pipe].q = [] →
      (s.cancel p = true → step s = .next ((s₀.release p).raise .cancelled)) ∧
      (s.cancel p = false → (∃ e, w.expiry = some e ∧ e ≤ s.now) →
        step s = .next ((s₀.release p).raise .timeout)) ∧
      (s.cancel p = false → (∀ e, w.expiry = some e → s.now < e) → step s = .next s₀))

/-- R224: a RECVW of port H on an empty queue with no timeout is ended by `cancel` (or reset) and by nothing else. -/
def Obligations.OwnerHoldEndsByCancel : Prop :=
  ∀ (s t : State) (w : Waiting), s.holdH = some (.recvw w) → w.expiry = none → s.pipe[w.pipe].q = [] →
    s.cancelH = false → step s = .next t → (∀ rest, s.inputs ≠ .reset :: rest) →
    t.holdH = some (.recvw w) ∧ t.pipe[w.pipe].q = [] ∧ t.repliesOn .H = s.repliesOn .H

/-- R140: frames enqueued to an empty queue with no dequeue in between are stored up to the capacity, in order, the
rest dropped and counted; receives then return them in that order, each once, and `NoData` after the last. -/
def Obligations.FirstInFirstOut : Prop :=
  ∀ (s : State) (a : Byte) (p : PipeNo) (frames : List Frame), a.toNat = p → s.pipe[p].q = [] →
    let cap := s.cfg.cap[p]
    ∃ t, execAll (frames.map fun fr => .enq a fr) s = some t ∧
      t.pipe[p].q = frames.take cap ∧
      t.pipe[p].drops = s.pipe[p].drops + (frames.length - cap) ∧
      t.hist = s.hist ++ (frames.drop cap).map (Event.drop p) ∧
      (∀ q : PipeNo, q ≠ p → t.pipe[q] = s.pipe[q]) ∧
      ∀ m, ∃ u, execAll (List.replicate m (.recv a)) t = some u ∧
        u.pipe[p].q = (frames.take cap).drop m ∧ u.hist = t.hist ∧
        u.replies = t.replies ++ ((frames.take cap).take m).map (fun fr => (s.port, .okFrame fr))
          ++ List.replicate (m - (frames.take cap).length) (s.port, .ofCode .noData 0)

/-- R19 and R142: no step reads the mirror, nor the copies of the address and of the three flags: from two states that
differ only there, a step answers the same and leaves states that differ only there. -/
def Obligations.CopiesAreNotRead : Prop :=
  ∀ s s' : State, s.forget = s'.forget →
    (∀ t, step s = .next t → ∃ t', step s' = .next t' ∧ t.forget = t'.forget) ∧
    ∀ r, step s = .refused r → step s' = .refused r

/-! ## The receive demultiplexer -/

/-- R159: DRAIN outside Rx is refused before any bus transaction, with nothing changed. -/
def Obligations.DrainOutsideRx : Prop :=
  ∀ (s : State) (b : Byte), s.status ≠ .rx → exec (.drain b) s = .next (s.raise .illegalStateTransition)

/-- R155 to R158, R161 and R51: in Rx an invocation pops frames, each from the pipe and with the length its status byte
names, until the buffer is empty, the cap is reached, the status byte names a pipe that cannot be served, or the bus
fails; the response says which, and how many frames were popped. Every transfer is asked of the device in the state the
invocation has come to, and what it answers there is recorded, decides how the loop goes on, and moves the device
(`DrainTrace`, R58, R41). It issues at most `cap` brackets and 2·cap transfers. With no other agent stepping inside
it, each queue has taken the frames for it up to its capacity, the new history is exactly these events, and the
decoder, port C and `cancel` are as before (OwnerDid.quiet).
At which points other agents may step, and a reset can meet it, is the model's reading (log entries 6 and 23). -/
def Obligations.DrainPopsUntilItEnds : Prop :=
  ∀ (s : State) (b : Byte), s.cfg.wf = true → s.port = .H → s.status = .rx →
    let cap := if b = 0 then 3 else b.toNat
    ∃ (t u : State) (popped : List Popped) (code : Code) (last : List Event),
      exec (.drain b) s = .next t ∧ DrainTrace cap s popped code last u ∧
      passes (.drain b) s = s.popPasses popped ++ [u] ∧
      t = u.respond (.ofCode code (BitVec.ofNat 40 popped.length)) ∧ popped.length ≤ cap ∧ (∀ x ∈ popped, x.ok s) ∧
      DrainEnd s cap popped.length code last ∧
      OwnerDid s t (popped.flatMap (Popped.events s.cfg) ++ last) (.ofCode code (BitVec.ofNat 40 popped.length)) ∧
      bracketCount (popped.flatMap (Popped.events s.cfg) ++ last) ≤ cap ∧
      transferCount (popped.flatMap (Popped.events s.cfg) ++ last) ≤ 2 * cap ∧
      t.status = .rx ∧ t.ce = s.ce ∧ t.csn = some .high ∧ t.mirror = s.mirror ∧
      (t.busFault = true ↔ s.busFault = true ∨ code = .busFault) ∧
      (∀ p : PipeNo, t.pipe[p] = { s.pipe[p] with
        q := t.pipe[p].q
        drops := s.pipe[p].drops + popped.countP fun x => x.pipe = p && !x.stored }) ∧
      (s.within = [] → ∀ p : PipeNo, s.pipe[p].q.length ≤ s.cfg.cap[p] →
        t.pipe[p].q = (s.pipe[p].q ++ framesFor p popped).take s.cfg.cap[p])

/-! ## The decoder -/

/-- R168 to R170: what the wire commands do. -/
def Obligations.WireCommandsActOnThePlayer : Prop :=
  ∀ (s : State) (arg : Byte),
    exec (.volume arg) s = .next { s with hist := s.hist ++ [.player (.incrVolume arg.toInt)] } ∧
    exec (.play arg) s = .next { s with hist := s.hist ++ [.player .togglePlayPause] } ∧
    (arg = 0 → exec (.track arg) s = .next s) ∧
    (arg ≠ 0 → exec (.track arg) s = .next { s with hist := s.hist ++ [.player (.skipTracks arg.toInt)] })

/-- R166, R167, R171 and R172: one decoder step. Stop is tested first; else the head frame leaves the queue and is run
or counted as a failure; on an empty queue nothing happens. With no designated pipe there is no decoder, and its turn
changes nothing, whatever is queued (R165).
That a turn without an enabled step is a step that changes nothing is the model's choice (log entry 5). -/
def Obligations.DecoderStepTakesOneFrame : Prop :=
  ∀ (s : State) (rest : List Input), s.inputs = .act .decoder :: rest →
    let s₀ : State := { s with inputs := rest }
    ((s.cfg.decPipe = none ∨ s.dec = .exited ∨ s.life = .closed) → step s = .next s₀) ∧
    ∀ dp : PipeNo, s.cfg.decPipe = some dp → (s.dec = .running → s.life = .opened →
      (s.stop = true → step s = .next { s₀ with dec := .exited }) ∧
      (s.stop = false →
        (s.pipe[dp].q = [] → step s = .next s₀) ∧
        ∀ fr tl, s.pipe[dp].q = fr :: tl →
          let taken : State := { s₀ with pipe := s.pipe.set dp { s.pipe[dp] with q := tl } }
          let failed : State := { taken with decFail := s.decFail + 1, hist := s.hist ++ [.decodeFailure fr] }
          (fr.length < 2 → step s = .next failed) ∧
          ∀ c x more, fr = c :: x :: more →
            (c.toNat = 0x76 →
              step s = .next { taken with hist := s.hist ++ [.player (.incrVolume x.toInt)] }) ∧
            (c.toNat = 0x70 → step s = .next { taken with hist := s.hist ++ [.player .togglePlayPause] }) ∧
            (c.toNat = 0x74 → x = 0 → step s = .next taken) ∧
            (c.toNat = 0x74 → x ≠ 0 →
              step s = .next { taken with hist := s.hist ++ [.player (.skipTracks x.toInt)] }) ∧
            (c.toNat ∉ [0x76, 0x70, 0x74] → step s = .next failed)))

/-- R173: DSTOP raises the stop signal and nothing else; the decoder's next step exits and leaves the queue. -/
def Obligations.DstopStopsTheDecoder : Prop :=
  ∀ s : State, ∃ t, exec .dstop s = .next t ∧
    t = { s with stop := true, replies := s.replies ++ [(s.port, .okay 0)] } ∧
    ∀ dp rest, s.cfg.decPipe = some dp → s.dec = .running → s.life = .opened →
      step { t with inputs := .act .decoder :: rest } = .next { t with inputs := rest, dec := .exited }

/-- R174: SHUTDOWN raises the stop signal, holds until the decoder has exited or `T_STOP` has passed, then emits
`Close`, closes and answers; status, mirror, queues and the record of the last level driven on each pin stay. That this
record is kept after `Close`, when the pin may have any level, is the model's choice (log entry 24).
That a hold is examined in a step of its own is the model's choice (log entry 5). -/
def Obligations.ShutdownWaitsThenCloses : Prop :=
  ∀ s : State,
    let closing (u : State) : State := { u with
      stop := true, dec := .exited, life := .closed, holdH := none, port := .H, hist := u.hist ++ [.close]
      replies := u.replies ++ [(.H, .okay 0)] }
    (s.port = .H →
      (s.dec = .exited ∨ s.cfg.tStop = 0 → exec .shutdown s = .next (closing s)) ∧
      (s.dec = .running → s.cfg.tStop ≠ 0 →
        exec .shutdown s = .next { s with stop := true, holdH := some (.shutdown (s.now + s.cfg.tStop)) })) ∧
    ∀ e rest, s.inputs = .pollH :: rest → s.holdH = some (.shutdown e) → s.stop = true →
      (s.dec = .exited ∨ e ≤ s.now → step s = .next (closing { s with inputs := rest })) ∧
      (s.dec = .running → s.now < e → step s = .next { s with inputs := rest, port := .H })

/-- R196: once closed, every command word on a free port, illegal encodings included, is answered `Closed`, and
nothing else changes. -/
def Obligations.ClosedAnswersEveryWord : Prop :=
  ∀ (s : State) (w : CmdWord) (rest : List Input), s.life = .closed →
    (∀ fr, s.inputs = .owner w fr :: rest → s.holdH = none →
      step s = .next (({ s with inputs := rest, port := .H } : State).raise .closed)) ∧
    (s.inputs = .act (.consumer w) :: rest → s.holdC = none →
      step s = .next (({ s with inputs := rest, port := .C } : State).raise .closed))

/-! ## The machine -/

/-- A step runs the decoded instruction: a command word on port H, on port C, and a frame the decoder takes. What a
step adds around `exec` is that the input is consumed, the port is the word's, and the frame has left the queue. -/
def Obligations.StepRunsTheDecoded : Prop :=
  ∀ (s : State) (i : Instr) (rest : List Input), s.life = .opened →
    (∀ w fr, s.inputs = .owner w fr :: rest → s.holdH = none → decode (.word w fr) = .ok i →
      step s = exec i { s with inputs := rest, port := .H }) ∧
    (∀ w, s.inputs = .act (.consumer w) :: rest → s.holdC = none → decode (.word w []) = .ok i →
      i.onPortC = true → step s = exec i { s with inputs := rest, port := .C }) ∧
    (∀ dp fr tl, s.inputs = .act .decoder :: rest → s.cfg.decPipe = some dp → s.dec = .running → s.stop = false →
      s.pipe[dp].q = fr :: tl → decode (.wire fr) = .ok i →
      step s = exec i { s with inputs := rest, pipe := s.pipe.set dp { s.pipe[dp] with q := tl } })

/-- R71: the numbers of the response codes; an operation ends with exactly one response on its own port, or it is a
RECVW or a SHUTDOWN that now holds and has answered nothing; only RECV and RECVW answer with a frame, and one of at
most 32 bytes when the queues hold none longer.
That a response is an entry of a list and a hold is data is the model's choice (log entries 5 and 10). -/
def Obligations.EveryOperationAnswersOnce : Prop :=
  ([Code.ok, .unknownRegister, .unknownField, .readOnlyField, .illegalStateTransition, .invalidConfiguration, .busFault,
    .noData, .timeout, .cancelled, .illegalCommand, .closed, .noSuchPipe, .pipeNotConfigured].map Code.code =
      [0x00, 0x01, 0x02, 0x03, 0x04, 0x05, 0x06, 0x07, 0x08, 0x09, 0x0A, 0x0B, 0x0C, 0x0D]) ∧
  ∀ (i : Instr) (s : State), (s.port = .H ∨ i.onPortC = true) → (∀ x, i ≠ .volume x ∧ i ≠ .play x ∧ i ≠ .track x) →
    ∃ t, exec i s = .next t ∧
      ((∃ r, t.repliesOn s.port = s.repliesOn s.port ++ [r] ∧
          (r.rfd ≠ none → ∃ a, i = .recv a ∨ ∃ timeout, i = .recvw a timeout) ∧
          (r.rfd = none → r.frameLength = 0) ∧ ∀ fr, r.rfd = some fr → r.frameLength = fr.length ∧
            (PipesWithinBounds s → fr.length ≤ 32)) ∨
        (t.repliesOn s.port = s.repliesOn s.port ∧
          ((∃ a timeout w, i = .recvw a timeout ∧ t = s.holdRecvw s.port w) ∨
            i = .shutdown ∧ ∃ e, t.holdH = some (.shutdown e))))

/-- R58, R185, R225: no step faults, whatever the device answers, and a step is refused exactly when a word is
presented on a port that has an operation in flight, which the duty `SingleOwner` excludes. -/
def Obligations.EveryStepAnswers : Prop :=
  ∀ s : State,
    (∃ w fr rest, (s.inputs = .owner w fr :: rest ∨ ∃ k, s.inputs = .ownerReset w fr k :: rest) ∧ s.holdH ≠ none ∧
      step s = .refused (.portBusy .H)) ∨
    (∃ w rest, s.inputs = .act (.consumer w) :: rest ∧ s.holdC ≠ none ∧ step s = .refused (.portBusy .C)) ∨
    ((∀ w fr rest, s.inputs = .owner w fr :: rest ∨ (∃ k, s.inputs = .ownerReset w fr k :: rest) → s.holdH = none) ∧
      (∀ w rest, s.inputs = .act (.consumer w) :: rest → s.holdC = none) ∧ ∃ t, step s = .next t)

/-- R57, R165: an agent's turn inside an operation of port H is the same step it would be between operations; a turn
the model gives no step is none. At each point inside an operation exactly the turns listed for it happen, in order,
none when none is listed, and they change only what other agents may (GuestsOnly). Of the environment's turns `time d`
lets d microseconds pass and `cancel p l` drives that port's `cancel` to l, and neither changes anything else
(R29, R139, R197, R204, R225); a turn of a port that holds nothing, and a step with no turn listed, change nothing.
The form of time, of a turn without a step and of `cancel` is the model's (log entries 4, 5 and 8); at which points
other agents may step is the model's reading (log entry 6). -/
def Obligations.GuestsActAsInSteps : Prop :=
  (∀ (s : State) (a : Act) (rest : List Input), s.inputs = .act a :: rest →
    step s = .next (runAct { s with inputs := rest } a) ∨
    (step s = .refused (.portBusy .C) ∧ runAct { s with inputs := rest } a = { s with inputs := rest })) ∧
  (∀ s : State, GuestsOnly s (interleave s) ∧ (s.within = [] → interleave s = s) ∧
    ∀ acts rest, s.within = acts :: rest →
      interleave s = { acts.foldl runAct { s with within := rest } with port := s.port }) ∧
  (∀ (s : State) (d : Nat) (l : Bool),
    runAct s (.time d) = { s with now := s.now + d } ∧
    runAct s (.cancel .H l) = { s with cancelH := l } ∧ runAct s (.cancel .C l) = { s with cancelC := l } ∧
    (s.holdC = none → runAct s .pollC = s)) ∧
  ∀ (s : State) (rest : List Input) (d : Nat) (l : Bool),
    (s.inputs = .act (.time d) :: rest → step s = .next { s with inputs := rest, now := s.now + d }) ∧
    (s.inputs = .act (.cancel .H l) :: rest → step s = .next { s with inputs := rest, cancelH := l }) ∧
    (s.inputs = .act (.cancel .C l) :: rest → step s = .next { s with inputs := rest, cancelC := l }) ∧
    (s.inputs = .act .pollC :: rest → s.holdC = none → step s = .next { s with inputs := rest }) ∧
    (s.inputs = .pollH :: rest → s.holdH = none → step s = .next { s with inputs := rest }) ∧
    (s.inputs = [] → step s = .next s)

/-- R32 (bounds): queues never exceed their capacity, frames are at most 32 bytes, lengths are 1 to 32. -/
def Obligations.PipesWithinBoundsKept : Prop :=
  ∀ s t : State, PipesWithinBounds s → step s = .next t → PipesWithinBounds t

/-- R13, R23, R28, R42: the pins, the sticky bit, the counters and the lifecycle agree with the history, whose
transfers all lie in closed brackets. The pins' record after `Close` is the model's choice (log entry 24). -/
def Obligations.HistoryAgreesKept : Prop :=
  ∀ s t : State, HistoryAgrees s → step s = .next t → HistoryAgrees t

/-- R19: under a well-formed configuration the mirror of every register fits the register. -/
def Obligations.MirrorFitsKept : Prop :=
  ∀ s t : State, s.cfg.wf = true → MirrorFits s → step s = .next t → MirrorFits t

/-- R27, R28, R174: the decoder and the lifecycle stay consistent. -/
def Obligations.LifecycleKept : Prop :=
  ∀ s t : State, LifecycleInv s → step s = .next t → LifecycleInv t

/-- The invariants hold after reset, under every configuration (the mirror's under every well-formed one).
LifecycleInv's clauses about port H rest on `holdH = none` after reset, which is the model's choice (log entry 5). -/
def Obligations.ResetMeetsInvariants : Prop :=
  ∀ c : Config, PipesWithinBounds (State.resetFor c) ∧ HistoryAgrees (State.resetFor c) ∧
    LifecycleInv (State.resetFor c) ∧ (c.wf = true → MirrorFits (State.resetFor c))

/-- R32 (monotonicity) and R10: except by reset, counters never decrease, sticky bits stay, Closed stays closed, an
exited decoder stays exited, and the history only grows; CFG never changes at all. -/
def Obligations.NeverGoesBack : Prop :=
  ∀ s t : State, step s = .next t →
    t.cfg = s.cfg ∧
    ((∀ rest, s.inputs ≠ .reset :: rest) → (∀ w fr k rest, s.inputs ≠ .ownerReset w fr k :: rest) →
      (∀ p : PipeNo, s.pipe[p].drops ≤ t.pipe[p].drops) ∧ s.decFail ≤ t.decFail ∧
      (s.busFault = true → t.busFault = true) ∧ (s.stop = true → t.stop = true) ∧
      (s.life = .closed → t.life = .closed) ∧ (s.dec = .exited → t.dec = .exited) ∧ s.hist <+: t.hist)

/-- R33 and R215: reset, in any state, closed and held ports included, gives every piece of RFB's state its reset value
and performs no event (`ResetFrom`). It may also meet an operation of port H: then no response comes, and what the
environment has seen is what the operation did before. The operation is met before it does anything, or in one of the
states `passes` lists. For an operation on the bus or the pins these are exactly the states, up to the one before its
response, in which it has done a first part of its events with every bracket closed (R42): in each a first part is
done, and after each first part there is one. Any other operation is one step, and a reset meets it before that.
What the environment keeps is the model's choice (log entry 11); that a reset meets no open bracket, and at which
points other agents may step, is its reading (log entries 23 and 6). -/
def Obligations.ResetValues : Prop :=
  (∀ (s : State) (rest : List Input),
    let s₀ : State := { s with inputs := rest }
    (s.inputs = .reset :: rest → ∃ t, step s = .next t ∧ ResetFrom s₀ t) ∧
    ∀ (w : CmdWord) (fr : Frame) (k : Nat), s.inputs = .ownerReset w fr k :: rest → s.holdH = none →
      (s.life = .closed ∨ (∀ i, decode (.word w fr) ≠ .ok i) → ∃ t, step s = .next t ∧ ResetFrom s₀ t) ∧
      ∀ i, s.life = .opened → decode (.word w fr) = .ok i →
        ∃ t, step s = .next t ∧ ResetFrom ((passes i { s₀ with port := .H }).getD k { s₀ with port := .H }) t) ∧
  ∀ (i : Instr) (s : State), s.port = .H →
    (Instr.atBoundary i = false → passes i s = []) ∧
    (Instr.atBoundary i = true →
      ∃ last r, exec i s = .next (last.respond r) ∧ (passes i s).getLast? = some last ∧
        (∀ u ∈ passes i s, ∃ done, PartDone s u done ∧ ownerEvents u.hist <+: ownerEvents last.hist) ∧
        ∀ done, wellBracketed done = true → ownerEvents s.hist ++ done <+: ownerEvents last.hist →
          done = [] ∨ ∃ u ∈ passes i s, PartDone s u done)

end Statements
end

