-- ==== Sys2Proof/Laws/Bits.lean ====
section
/-! SUPPORT. One lemma per bitfield and byte function, saying every bit of its result. -/

namespace Sys2Proof

/-- `mask(w)` bit by bit (R6). -/
theorem mask_bit (w k : Nat) : (mask w).getLsbD k = (decide (k < w) && decide (k < 40)) := by
  simp only [mask, BitVec.getLsbD_ofNat, Nat.testBit_two_pow_sub_one]
  rw [Bool.and_comm]

/-- `extract` bit by bit (R20). -/
theorem extract_bit (f : Field) (raw : Raw) (k : Nat) :
    (extract f raw).getLsbD k = (raw.getLsbD (f.off + k) && decide (k < f.width)) := by
  simp only [extract, BitVec.getLsbD_and, BitVec.getLsbD_ushiftRight, mask_bit]
  by_cases h : k < 40
  · simp [h]
  · have : raw.getLsbD (f.off + k) = false := BitVec.getLsbD_of_ge _ _ (by omega)
    simp [this]

/-- `extract` as a number (R20). -/
theorem extract_toNat (f : Field) (raw : Raw) : (extract f raw).toNat = raw.toNat / 2 ^ f.off % 2 ^ f.width := by
  apply Nat.eq_of_testBit_eq
  intro k
  rw [Nat.testBit_mod_two_pow, Nat.testBit_div_two_pow]
  have := extract_bit f raw k
  simp only [BitVec.getLsbD] at this
  rw [this, Bool.and_comm, Nat.add_comm]

/-- `insert` bit by bit (R21). -/
theorem insert_bit (f : Field) (raw v : Raw) (hv : v.toNat < 2 ^ f.width) (hf : f.off + f.width ≤ 40) (k : Nat) :
    (insertField f raw v).getLsbD k =
      if f.off ≤ k ∧ k < f.off + f.width then v.getLsbD (k - f.off) else raw.getLsbD k := by
  have vb : ∀ j, f.width ≤ j → v.getLsbD j = false := fun j hj =>
    Nat.testBit_lt_two_pow (lt_of_lt_of_le hv (Nat.pow_le_pow_right (by omega) hj))
  simp only [insertField, BitVec.getLsbD_or, BitVec.getLsbD_and, BitVec.getLsbD_not, BitVec.getLsbD_shiftLeft, mask_bit]
  by_cases h40 : k < 40
  · by_cases h1 : f.off ≤ k
    · by_cases h2 : k < f.off + f.width
      · have a1 : k - f.off < f.width := by omega
        have a2 : k - f.off < 40 := by omega
        have a3 : ¬ k < f.off := by omega
        simp [h40, h1, h2, a1, a2, a3]
      · have a1 : ¬ k - f.off < f.width := by omega
        have a3 : ¬ k < f.off := by omega
        simp [h40, h2, a1, a3, vb (k - f.off) (by omega)]
    · have a3 : k < f.off := by omega
      simp [h40, h1, a3]
  · have : ¬ k < f.off + f.width := by omega
    have r : raw.getLsbD k = false := BitVec.getLsbD_of_ge _ _ (by omega)
    simp [h40, this, r]

/-- As many bytes as asked for. -/
theorem toBytes_length (n : Nat) : ∀ v, (toBytes n v).length = n := by
  induction n with
  | zero => intro v; rfl
  | succ n ih => intro v; simp [toBytes, ih]

/-- `toBytes` as R44 writes it. -/
theorem toBytes_eq_map (n : Nat) : ∀ v : Raw,
    toBytes n v = (List.range n).map fun i => (v >>> (8 * i)).setWidth 8 := by
  induction n with
  | zero => intro v; rfl
  | succ n ih =>
    intro v
    rw [toBytes, ih, List.range_succ_eq_map]
    simp [Function.comp_def, Nat.mul_add, BitVec.shiftRight_add, Nat.add_comm]

/-- `toBytes` bit by bit (R44, R45). -/
theorem toBytes_bit (n : Nat) : ∀ (v : Raw) (i j : Nat), i < n → j < 8 → ∃ b, (toBytes n v)[i]? = some b ∧ b.getLsbD j = v.getLsbD (8 * i + j) := by
  induction n with
  | zero => intro v i j h; omega
  | succ n ih =>
    intro v i j hi hj
    cases i with
    | zero => exact ⟨_, rfl, by simp [hj]⟩
    | succ i =>
      obtain ⟨b, h1, h2⟩ := ih (v >>> 8) i j (by omega) hj
      refine ⟨b, by simpa [toBytes] using h1, ?_⟩
      rw [h2, BitVec.getLsbD_ushiftRight]
      congr 1; omega

/-- `assemble` bit by bit (R43, R45). -/
theorem assemble_bit (l : List Byte) : ∀ (k : Nat), k < 40 → (assemble l).getLsbD k = ((l[k / 8]?).getD 0).getLsbD (k % 8) := by
  induction l with
  | nil => intro k h; simp [assemble]
  | cons b bs ih =>
    intro k hk
    simp only [assemble, BitVec.getLsbD_or, BitVec.getLsbD_setWidth, BitVec.getLsbD_shiftLeft]
    by_cases h8 : k < 8
    · have : k / 8 = 0 := by omega
      simp [hk, h8, this, Nat.mod_eq_of_lt h8]
    · have e : k / 8 = (k - 8) / 8 + 1 := by omega
      have e2 : k % 8 = (k - 8) % 8 := by omega
      have : b.getLsbD k = false := BitVec.getLsbD_of_ge _ _ (by omega)
      rw [ih _ (by omega), e, e2]
      simp [hk, h8, this]

/-- Inserting a value that fits the field keeps a raw value within the register (R99). -/
theorem insert_lt {f : Field} {raw v : Raw} {m : Nat} (hv : v.toNat < 2 ^ f.width) (hf : f.off + f.width ≤ m)
    (hm : m ≤ 40) (hr : raw.toNat < 2 ^ m) : (insertField f raw v).toNat < 2 ^ m := by
  apply Nat.lt_pow_two_of_testBit
  intro i hi
  have := insert_bit f raw v hv (by omega) i
  simp only [BitVec.getLsbD] at this
  rw [this, if_neg (by omega)]
  exact Nat.testBit_lt_two_pow (lt_of_lt_of_le hr (Nat.pow_le_pow_right (by omega) hi))

/-- A raw value assembled from n bytes fits n bytes (R43). -/
theorem assemble_lt (l : List Byte) : (assemble l).toNat < 2 ^ (8 * l.length) := by
  apply Nat.lt_pow_two_of_testBit
  intro i hi
  by_cases h : i < 40
  · have := assemble_bit l i h
    simp only [BitVec.getLsbD] at this
    rw [this, List.getElem?_eq_none (by omega)]
    simp
  · exact BitVec.getLsbD_of_ge _ _ (by omega)

end Sys2Proof
end

