-- ==== Sys2Proof/Laws/Closed.lean ====
section
/-! SUPPORT. What the runs of port H come to when they are finished, point after point: a closed form for each
(`writeFieldRun_finish`, `transition_finish`, `drainLoopRun_finish`) and for each operation (`getRun_answer` and its
like), which later proofs cite instead of unfolding a run. -/

namespace Sys2Proof.Machine

open Sys2Proof

/-! ## Runs -/

@[simp] theorem Run.finish_done {α : Type} (a : α) (s : State) : (Run.done a s).finish = (a, s) := rfl
@[simp] theorem Run.finish_point {α : Type} (s : State) (k : State → Run α) :
    (Run.point s k).finish = (k (interleave s)).finish := rfl
@[simp] theorem Run.finish_andThen {α β : Type} (r : Run α) (f : α → State → Run β) :
    (r.andThen f).finish = (f r.finish.1 r.finish.2).finish := by
  induction r with
  | done a s => rfl
  | point s k ih => exact ih _

/-- The end is the last state a run passes. -/
theorem Run.passes_eq {α : Type} (r : Run α) : ∃ l, r.passes = l ++ [r.finish.2] := by
  induction r with
  | done a s => exact ⟨[], rfl⟩
  | point s k ih =>
    obtain ⟨l, h⟩ := ih (interleave s)
    exact ⟨interleave s :: l, by rw [passes, h]; rfl⟩

theorem Run.answer_done (r : Response) (s : State) : (Run.done r s).answer = s.respond r := rfl
theorem Run.answer_raise (c : Code) (s : State) : (Run.raise c s).answer = s.raise c := rfl

/-! ## Responses -/

/-- The state in which an operation that reads, that writes, has answered. -/
def respondRead (r : Option Raw × State) : State :=
  match r.1 with
  | some v => r.2.respond (.okay v)
  | none => r.2.raise .busFault
def respondWrite (r : Bool × State) : State :=
  if r.1 then r.2.respond (.okay 0) else r.2.raise .busFault

theorem Run.answer_ofRead (r : Option Raw × State) : (Run.ofRead r).answer = respondRead r := by
  rcases r with ⟨_ | v, s⟩ <;> rfl
theorem Run.answer_ofWrite (r : Bool × State) : (Run.ofWrite r).answer = respondWrite r := by
  rcases r with ⟨_ | _, s⟩ <;> rfl

/-! ## The field write and its operations -/

def writeField (n : RegName) (f : Field) (v : Raw) (s : State) : Bool × State :=
  match (busRead n s).1 with
  | none => (false, (busRead n s).2)
  | some old => busWrite n (insertField f old v) (interleave (busRead n s).2)
def writeRole (r : FieldRef) (v : Raw) (s : State) : Bool × State := writeField (.tab r.reg) (s.cfg.roleField r) v s

@[simp] theorem writeFieldRun_finish (n : RegName) (f : Field) (v : Raw) (s : State) :
    (writeFieldRun n f v s).finish = writeField n f v s := by
  unfold writeFieldRun writeField
  cases (busRead n s).1 <;> rfl
@[simp] theorem writeRoleRun_finish (r : FieldRef) (v : Raw) (s : State) :
    (writeRoleRun r v s).finish = writeRole r v s := writeFieldRun_finish _ _ _ _

theorem getRun_answer (a : Byte) (s : State) :
    (getRun a s).answer = match resolveReg s.cfg a with
      | none => s.raise .unknownRegister
      | some n => respondRead (busRead n s) := by
  unfold getRun
  cases resolveReg s.cfg a
  · rfl
  · exact Run.answer_ofRead _
theorem setRun_answer (a : Byte) (v : Raw) (s : State) :
    (setRun a v s).answer = match resolveReg s.cfg a with
      | none => s.raise .unknownRegister
      | some n => if fitsReg s.cfg n v then respondWrite (busWrite n v s) else s.raise .invalidConfiguration := by
  unfold setRun
  cases resolveReg s.cfg a
  · rfl
  · simp only
    split_ifs
    · exact Run.answer_ofWrite _
    · rfl
theorem getfRun_answer (a b : Byte) (s : State) :
    (getfRun a b s).answer = match resolveReg s.cfg a with
      | none => s.raise .unknownRegister
      | some n =>
        match resolveField s.cfg n b with
        | none => s.raise .unknownField
        | some f => respondRead (readField n f s) := by
  unfold getfRun
  cases resolveReg s.cfg a with
  | none => rfl
  | some n =>
    simp only
    cases resolveField s.cfg n b
    · rfl
    · exact Run.answer_ofRead _

/-- A field write with the response of its operation. -/
theorem writeAnswer (r : Run Bool) :
    (r.andThen fun ok u => .ofWrite (ok, u)).answer = respondWrite r.finish := by
  rw [Run.answer, Run.finish_andThen, ← Run.answer_ofWrite]
  rfl

theorem setfRun_answer (a b : Byte) (v : Raw) (s : State) :
    (setfRun a b v s).answer = match resolveReg s.cfg a with
      | none => s.raise .unknownRegister
      | some n =>
        match resolveField s.cfg n b with
        | none => s.raise .unknownField
        | some f =>
          match f.access with
          | .ro => s.raise .readOnlyField
          | .rw =>
            if fitsField f v then respondWrite (writeField n f v s) else s.raise .invalidConfiguration := by
  unfold setfRun
  cases resolveReg s.cfg a with
  | none => rfl
  | some n =>
    simp only
    cases resolveField s.cfg n b with
    | none => rfl
    | some f =>
      simp only
      cases f.access with
      | ro => rfl
      | rw =>
        simp only
        split_ifs
        · rw [writeAnswer, writeFieldRun_finish]
        · rfl
theorem getchRun_answer (s : State) : (getchRun s).answer = respondRead (busRead (.tab s.cfg.role.rfCh.reg) s) :=
  Run.answer_ofRead _
theorem setchRun_answer (v : Raw) (s : State) :
    (setchRun v s).answer = if s.cfg.rfChMax < v.toNat then s.raise .invalidConfiguration
      else respondWrite (writeRole s.cfg.role.rfCh v s) := by
  unfold setchRun
  split_ifs
  · rfl
  · rw [writeAnswer, writeRoleRun_finish]

/-! ## The transitions -/

def edgePU (s : State) : Bool × State :=
  let w := writeRole s.cfg.role.pwrUp 1 s
  if w.1 then
    (true, ((interleave ((interleave w.2).driveCe .low)).wait Config.tPU).setStatus .standBy)
  else w
def edgePD (s : State) : Bool × State :=
  let w := writeRole s.cfg.role.pwrUp 0 s
  if w.1 then (true, w.2.setStatus .powerDown) else w
def edgeRX (s : State) : Bool × State :=
  let w := writeRole s.cfg.role.primRx 1 s
  if w.1 then (true, ((interleave w.2).driveCe .high).setStatus .rx) else w
def edgeTX (s : State) : Bool × State :=
  let w := writeRole s.cfg.role.primRx 0 s
  if w.1 then
    (true, ((interleave ((interleave w.2).driveCe .high)).wait Config.tMode).setStatus .tx)
  else w
def edgeSBPD (s : State) : Bool × State := edgePD (interleave (edgeSB s))

theorem edgeSB_eq (s : State) :
    edgeSB s = ((interleave (s.driveCe .low)).wait Config.tMode).setStatus .standBy := rfl
theorem runPU_finish (s : State) : (runPU s).finish = edgePU s := by
  rw [runPU, Run.finish_andThen, writeRoleRun_finish, edgePU]
  rcases writeRole s.cfg.role.pwrUp 1 s with ⟨_ | _, w⟩ <;> rfl
theorem runPD_finish (s : State) : (runPD s).finish = edgePD s := by
  rw [runPD, Run.finish_andThen, writeRoleRun_finish, edgePD]
  rcases writeRole s.cfg.role.pwrUp 0 s with ⟨_ | _, w⟩ <;> rfl
theorem runRX_finish (s : State) : (runRX s).finish = edgeRX s := by
  rw [runRX, Run.finish_andThen, writeRoleRun_finish, edgeRX]
  rcases writeRole s.cfg.role.primRx 1 s with ⟨_ | _, w⟩ <;> rfl
theorem runTX_finish (s : State) : (runTX s).finish = edgeTX s := by
  rw [runTX, Run.finish_andThen, writeRoleRun_finish, edgeTX]
  rcases writeRole s.cfg.role.primRx 0 s with ⟨_ | _, w⟩ <;> rfl
theorem runSBPD_finish (s : State) : (runSBPD s).finish = edgeSBPD s := runPD_finish _

/-- The transition table, with each edge's closed form. -/
def edgeOf (source target : Status) : Option (State → Bool × State) :=
  match source, target with
  | .powerDown, .standBy => some edgePU
  | .standBy, .powerDown => some edgePD
  | .standBy, .rx => some edgeRX
  | .standBy, .tx => some edgeTX
  | .rx, .standBy => some fun s => (true, edgeSB s)
  | .tx, .standBy => some fun s => (true, edgeSB s)
  | .rx, .powerDown => some edgeSBPD
  | .tx, .powerDown => some edgeSBPD
  | .powerDown, .powerDown | .powerDown, .rx | .powerDown, .tx
  | .standBy, .standBy | .rx, .rx | .rx, .tx | .tx, .tx | .tx, .rx => none

theorem transition_finish (source target : Status) :
    (transition source target).map (fun edge s => (edge s).finish) = edgeOf source target := by
  cases source <;> cases target <;> simp only [transition, edgeOf, Option.map_none, Option.map_some]
  all_goals refine congrArg some (funext fun s => ?_)
  · exact runPU_finish s
  · exact runPD_finish s
  · exact runRX_finish s
  · exact runTX_finish s
  · exact runSBPD_finish s
  · rfl
  · exact runSBPD_finish s
  · rfl

theorem gotoRun_answer (target : Status) (s : State) :
    (gotoRun target s).answer = match edgeOf s.status target with
      | none => s.raise .illegalStateTransition
      | some edge =>
        if (edge s).1 then (edge s).2.respond (.okay (statusValue (edge s).2.status))
        else (edge s).2.raise .busFault := by
  rw [← transition_finish]
  unfold gotoRun
  cases transition s.status target with
  | none => rfl
  | some edge =>
    simp only [Option.map_some, Run.answer, Run.finish_andThen, Run.finish_done]
    split <;> rfl

/-! ## Pipes -/

def onPipe (a : Byte) (s : State) (k : PipeNo → State) : State :=
  match checkPipe a with
  | none => s.raise .invalidConfiguration
  | some p => k p

theorem Run.answer_onPipe (a : Byte) (s : State) (k : PipeNo → Run Response) :
    (Run.onPipe a s k).answer = Machine.onPipe a s fun p => (k p).answer := by
  unfold Run.onPipe Machine.onPipe
  cases checkPipe a <;> rfl

def psetFlag (a : Byte) (v : Raw) (role : PipeNo → FieldRef) (update : Bool → Pipe → Pipe) (s : State) : State :=
  onPipe a s fun p =>
    if isFlagValue v then
      respondWrite (copyIfWritten p (update (v = 1)) (writeRole (role p) v s))
    else s.raise .invalidConfiguration

theorem psetFlagRun_answer (a : Byte) (v : Raw) (role : PipeNo → FieldRef) (update : Bool → Pipe → Pipe) (s : State) :
    (psetFlagRun a v role update s).answer = psetFlag a v role update s := by
  rw [psetFlagRun, psetFlag, Run.answer_onPipe]
  congr 1
  funext p
  split_ifs
  · rw [Run.answer, Run.finish_andThen, ← Run.answer_ofWrite, writeRoleRun_finish]
    rfl
  · rfl

theorem psetaddrRun_answer (a : Byte) (v : Raw) (s : State) :
    (psetaddrRun a v s).answer = onPipe a s fun p =>
      respondWrite (copyIfWritten p (fun r => { r with addr := some v }) (busWrite (.rxAddr p) v s)) := by
  rw [psetaddrRun, Run.answer_onPipe]
  simp only [Run.answer_ofWrite]
theorem psetlenRun_answer (a : Byte) (v : Raw) (s : State) :
    (psetlenRun a v s).answer = onPipe a s fun p =>
      if isLength v then
        respondWrite (copyIfWritten p (fun r => { r with len := some v.toNat }) (busWrite (.rxPw p) v s))
      else s.raise .invalidConfiguration := by
  rw [psetlenRun, Run.answer_onPipe]
  congr 1
  funext p
  split_ifs
  · exact Run.answer_ofWrite _
  · rfl
theorem psetaaRun_answer (a : Byte) (v : Raw) (s : State) : (psetaaRun a v s).answer =
    psetFlag a v (fun p => s.cfg.role.enAA[p]) (fun b r => { r with autoAck := some b }) s :=
  psetFlagRun_answer _ _ _ _ _
theorem psetdplRun_answer (a : Byte) (v : Raw) (s : State) : (psetdplRun a v s).answer =
    psetFlag a v (fun p => s.cfg.role.dynPd[p]) (fun b r => { r with dynPayload := some b }) s :=
  psetFlagRun_answer _ _ _ _ _
theorem psetenRun_answer (a : Byte) (v : Raw) (s : State) : (psetenRun a v s).answer =
    psetFlag a v (fun p => s.cfg.role.enRx[p]) (fun b r => { r with enabled := some b }) s :=
  psetFlagRun_answer _ _ _ _ _
theorem pgetaddrRun_answer (a : Byte) (s : State) :
    (pgetaddrRun a s).answer = onPipe a s fun p => respondRead (busRead (.rxAddr p) s) := by
  rw [pgetaddrRun, Run.answer_onPipe]
  simp only [Run.answer_ofRead]
theorem pgetlenRun_answer (a : Byte) (s : State) :
    (pgetlenRun a s).answer = onPipe a s fun p => respondRead (busRead (.rxPw p) s) := by
  rw [pgetlenRun, Run.answer_onPipe]
  simp only [Run.answer_ofRead]
theorem pgetaaRun_answer (a : Byte) (s : State) :
    (pgetaaRun a s).answer = onPipe a s fun p => respondRead (readRole s.cfg.role.enAA[p] s) := by
  rw [pgetaaRun, Run.answer_onPipe]
  simp only [Run.answer_ofRead]
theorem pgetdplRun_answer (a : Byte) (s : State) :
    (pgetdplRun a s).answer = onPipe a s fun p => respondRead (readRole s.cfg.role.dynPd[p] s) := by
  rw [pgetdplRun, Run.answer_onPipe]
  simp only [Run.answer_ofRead]
theorem pgetenRun_answer (a : Byte) (s : State) :
    (pgetenRun a s).answer = onPipe a s fun p => respondRead (readRole s.cfg.role.enRx[p] s) := by
  rw [pgetenRun, Run.answer_onPipe]
  simp only [Run.answer_ofRead]

/-! ## DRAIN -/

def drainLoop : Nat → Nat → State → Response × State
  | 0, n, s => (.okay (countValue n), s)
  | k + 1, n, s =>
    match (rxPop s).1 with
    | .empty => (.okay (countValue n), (rxPop s).2)
    | .noPipe => (.ofCode .noSuchPipe (countValue n), (rxPop s).2)
    | .noLen _ => (.ofCode .pipeNotConfigured (countValue n), (rxPop s).2)
    | .busFault => (.ofCode .busFault (countValue n), (rxPop s).2)
    | .frame p bytes => drainLoop k (n + 1) (interleave (enqueue p bytes (interleave (rxPop s).2)).2)

theorem drainLoopRun_finish (k : Nat) : ∀ (n : Nat) (s : State), (drainLoopRun k n s).finish = drainLoop k n s := by
  induction k with
  | zero => exact fun _ _ => rfl
  | succ k ih =>
    intro n s
    unfold drainLoopRun drainLoop
    cases (rxPop s).1 with
    | frame p bytes => exact ih _ _
    | _ => rfl

theorem drainRun_answer (b : Byte) (s : State) :
    (drainRun b s).answer = match s.status with
      | .rx => (drainLoop (drainCap b) 0 s).2.respond (drainLoop (drainCap b) 0 s).1
      | .powerDown | .standBy | .tx => s.raise .illegalStateTransition := by
  unfold drainRun
  cases s.status with
  | rx =>
    simp only
    rw [Run.answer, drainLoopRun_finish]
  | _ => rfl

end Sys2Proof.Machine
end

