-- ==== Sys2Proof/Laws/State.lean ====
section
/-! SUPPORT. One lemma per field per update of State, true by rfl, so that no later proof unfolds a record update. -/

namespace Sys2Proof.Machine

open Sys2Proof

variable (s : State)

@[simp] theorem State.emit_cfg (e : Event) : (s.emit e).cfg = s.cfg := rfl
@[simp] theorem State.emit_mirror (e : Event) : (s.emit e).mirror = s.mirror := rfl
@[simp] theorem State.emit_status (e : Event) : (s.emit e).status = s.status := rfl
@[simp] theorem State.emit_ce (e : Event) : (s.emit e).ce = s.ce := rfl
@[simp] theorem State.emit_csn (e : Event) : (s.emit e).csn = s.csn := rfl
@[simp] theorem State.emit_pipe (e : Event) : (s.emit e).pipe = s.pipe := rfl
@[simp] theorem State.emit_dec (e : Event) : (s.emit e).dec = s.dec := rfl
@[simp] theorem State.emit_stop (e : Event) : (s.emit e).stop = s.stop := rfl
@[simp] theorem State.emit_decFail (e : Event) : (s.emit e).decFail = s.decFail := rfl
@[simp] theorem State.emit_life (e : Event) : (s.emit e).life = s.life := rfl
@[simp] theorem State.emit_busFault (e : Event) : (s.emit e).busFault = s.busFault := rfl
@[simp] theorem State.emit_hist (e : Event) : (s.emit e).hist = s.hist ++ [e] := rfl
@[simp] theorem State.emit_holdH (e : Event) : (s.emit e).holdH = s.holdH := rfl
@[simp] theorem State.emit_holdC (e : Event) : (s.emit e).holdC = s.holdC := rfl
@[simp] theorem State.emit_port (e : Event) : (s.emit e).port = s.port := rfl
@[simp] theorem State.emit_replies (e : Event) : (s.emit e).replies = s.replies := rfl
@[simp] theorem State.emit_cancelH (e : Event) : (s.emit e).cancelH = s.cancelH := rfl
@[simp] theorem State.emit_cancelC (e : Event) : (s.emit e).cancelC = s.cancelC := rfl
@[simp] theorem State.emit_now (e : Event) : (s.emit e).now = s.now := rfl
@[simp] theorem State.emit_draws (e : Event) : (s.emit e).draws = s.draws := rfl
@[simp] theorem State.emit_device (e : Event) : (s.emit e).device = s.device := rfl
@[simp] theorem State.emit_inputs (e : Event) : (s.emit e).inputs = s.inputs := rfl
@[simp] theorem State.emit_within (e : Event) : (s.emit e).within = s.within := rfl

@[simp] theorem State.wait_cfg (d : Nat) : (s.wait d).cfg = s.cfg := rfl
@[simp] theorem State.wait_mirror (d : Nat) : (s.wait d).mirror = s.mirror := rfl
@[simp] theorem State.wait_status (d : Nat) : (s.wait d).status = s.status := rfl
@[simp] theorem State.wait_ce (d : Nat) : (s.wait d).ce = s.ce := rfl
@[simp] theorem State.wait_csn (d : Nat) : (s.wait d).csn = s.csn := rfl
@[simp] theorem State.wait_pipe (d : Nat) : (s.wait d).pipe = s.pipe := rfl
@[simp] theorem State.wait_dec (d : Nat) : (s.wait d).dec = s.dec := rfl
@[simp] theorem State.wait_stop (d : Nat) : (s.wait d).stop = s.stop := rfl
@[simp] theorem State.wait_decFail (d : Nat) : (s.wait d).decFail = s.decFail := rfl
@[simp] theorem State.wait_life (d : Nat) : (s.wait d).life = s.life := rfl
@[simp] theorem State.wait_busFault (d : Nat) : (s.wait d).busFault = s.busFault := rfl
@[simp] theorem State.wait_hist (d : Nat) : (s.wait d).hist = s.hist ++ [.wait d] := rfl
@[simp] theorem State.wait_holdH (d : Nat) : (s.wait d).holdH = s.holdH := rfl
@[simp] theorem State.wait_holdC (d : Nat) : (s.wait d).holdC = s.holdC := rfl
@[simp] theorem State.wait_port (d : Nat) : (s.wait d).port = s.port := rfl
@[simp] theorem State.wait_replies (d : Nat) : (s.wait d).replies = s.replies := rfl
@[simp] theorem State.wait_cancelH (d : Nat) : (s.wait d).cancelH = s.cancelH := rfl
@[simp] theorem State.wait_cancelC (d : Nat) : (s.wait d).cancelC = s.cancelC := rfl
@[simp] theorem State.wait_now (d : Nat) : (s.wait d).now = s.now + d + Config.waitSlack s.draws := rfl
@[simp] theorem State.wait_draws (d : Nat) : (s.wait d).draws = s.draws + 1 := rfl
@[simp] theorem State.wait_device (d : Nat) : (s.wait d).device = s.device := rfl
@[simp] theorem State.wait_inputs (d : Nat) : (s.wait d).inputs = s.inputs := rfl
@[simp] theorem State.wait_within (d : Nat) : (s.wait d).within = s.within := rfl

@[simp] theorem State.driveCsn_cfg (l : Level) : (s.driveCsn l).cfg = s.cfg := rfl
@[simp] theorem State.driveCsn_mirror (l : Level) : (s.driveCsn l).mirror = s.mirror := rfl
@[simp] theorem State.driveCsn_status (l : Level) : (s.driveCsn l).status = s.status := rfl
@[simp] theorem State.driveCsn_ce (l : Level) : (s.driveCsn l).ce = s.ce := rfl
@[simp] theorem State.driveCsn_csn (l : Level) : (s.driveCsn l).csn = some l := rfl
@[simp] theorem State.driveCsn_pipe (l : Level) : (s.driveCsn l).pipe = s.pipe := rfl
@[simp] theorem State.driveCsn_dec (l : Level) : (s.driveCsn l).dec = s.dec := rfl
@[simp] theorem State.driveCsn_stop (l : Level) : (s.driveCsn l).stop = s.stop := rfl
@[simp] theorem State.driveCsn_decFail (l : Level) : (s.driveCsn l).decFail = s.decFail := rfl
@[simp] theorem State.driveCsn_life (l : Level) : (s.driveCsn l).life = s.life := rfl
@[simp] theorem State.driveCsn_busFault (l : Level) : (s.driveCsn l).busFault = s.busFault := rfl
@[simp] theorem State.driveCsn_hist (l : Level) : (s.driveCsn l).hist = s.hist ++ [.csn l] := rfl
@[simp] theorem State.driveCsn_holdH (l : Level) : (s.driveCsn l).holdH = s.holdH := rfl
@[simp] theorem State.driveCsn_holdC (l : Level) : (s.driveCsn l).holdC = s.holdC := rfl
@[simp] theorem State.driveCsn_port (l : Level) : (s.driveCsn l).port = s.port := rfl
@[simp] theorem State.driveCsn_replies (l : Level) : (s.driveCsn l).replies = s.replies := rfl
@[simp] theorem State.driveCsn_cancelH (l : Level) : (s.driveCsn l).cancelH = s.cancelH := rfl
@[simp] theorem State.driveCsn_cancelC (l : Level) : (s.driveCsn l).cancelC = s.cancelC := rfl
@[simp] theorem State.driveCsn_now (l : Level) : (s.driveCsn l).now = s.now := rfl
@[simp] theorem State.driveCsn_draws (l : Level) : (s.driveCsn l).draws = s.draws := rfl
@[simp] theorem State.driveCsn_device (l : Level) : (s.driveCsn l).device = s.device := rfl
@[simp] theorem State.driveCsn_inputs (l : Level) : (s.driveCsn l).inputs = s.inputs := rfl
@[simp] theorem State.driveCsn_within (l : Level) : (s.driveCsn l).within = s.within := rfl

@[simp] theorem State.driveCe_cfg (l : Level) : (s.driveCe l).cfg = s.cfg := rfl
@[simp] theorem State.driveCe_mirror (l : Level) : (s.driveCe l).mirror = s.mirror := rfl
@[simp] theorem State.driveCe_status (l : Level) : (s.driveCe l).status = s.status := rfl
@[simp] theorem State.driveCe_ce (l : Level) : (s.driveCe l).ce = some l := rfl
@[simp] theorem State.driveCe_csn (l : Level) : (s.driveCe l).csn = s.csn := rfl
@[simp] theorem State.driveCe_pipe (l : Level) : (s.driveCe l).pipe = s.pipe := rfl
@[simp] theorem State.driveCe_dec (l : Level) : (s.driveCe l).dec = s.dec := rfl
@[simp] theorem State.driveCe_stop (l : Level) : (s.driveCe l).stop = s.stop := rfl
@[simp] theorem State.driveCe_decFail (l : Level) : (s.driveCe l).decFail = s.decFail := rfl
@[simp] theorem State.driveCe_life (l : Level) : (s.driveCe l).life = s.life := rfl
@[simp] theorem State.driveCe_busFault (l : Level) : (s.driveCe l).busFault = s.busFault := rfl
@[simp] theorem State.driveCe_hist (l : Level) : (s.driveCe l).hist = s.hist ++ [.ce l] := rfl
@[simp] theorem State.driveCe_holdH (l : Level) : (s.driveCe l).holdH = s.holdH := rfl
@[simp] theorem State.driveCe_holdC (l : Level) : (s.driveCe l).holdC = s.holdC := rfl
@[simp] theorem State.driveCe_port (l : Level) : (s.driveCe l).port = s.port := rfl
@[simp] theorem State.driveCe_replies (l : Level) : (s.driveCe l).replies = s.replies := rfl
@[simp] theorem State.driveCe_cancelH (l : Level) : (s.driveCe l).cancelH = s.cancelH := rfl
@[simp] theorem State.driveCe_cancelC (l : Level) : (s.driveCe l).cancelC = s.cancelC := rfl
@[simp] theorem State.driveCe_now (l : Level) : (s.driveCe l).now = s.now := rfl
@[simp] theorem State.driveCe_draws (l : Level) : (s.driveCe l).draws = s.draws := rfl
@[simp] theorem State.driveCe_device (l : Level) : (s.driveCe l).device = s.device := rfl
@[simp] theorem State.driveCe_inputs (l : Level) : (s.driveCe l).inputs = s.inputs := rfl
@[simp] theorem State.driveCe_within (l : Level) : (s.driveCe l).within = s.within := rfl

@[simp] theorem State.respond_cfg (r : Response) : (s.respond r).cfg = s.cfg := rfl
@[simp] theorem State.respond_mirror (r : Response) : (s.respond r).mirror = s.mirror := rfl
@[simp] theorem State.respond_status (r : Response) : (s.respond r).status = s.status := rfl
@[simp] theorem State.respond_ce (r : Response) : (s.respond r).ce = s.ce := rfl
@[simp] theorem State.respond_csn (r : Response) : (s.respond r).csn = s.csn := rfl
@[simp] theorem State.respond_pipe (r : Response) : (s.respond r).pipe = s.pipe := rfl
@[simp] theorem State.respond_dec (r : Response) : (s.respond r).dec = s.dec := rfl
@[simp] theorem State.respond_stop (r : Response) : (s.respond r).stop = s.stop := rfl
@[simp] theorem State.respond_decFail (r : Response) : (s.respond r).decFail = s.decFail := rfl
@[simp] theorem State.respond_life (r : Response) : (s.respond r).life = s.life := rfl
@[simp] theorem State.respond_busFault (r : Response) : (s.respond r).busFault = s.busFault := rfl
@[simp] theorem State.respond_hist (r : Response) : (s.respond r).hist = s.hist := rfl
@[simp] theorem State.respond_holdH (r : Response) : (s.respond r).holdH = s.holdH := rfl
@[simp] theorem State.respond_holdC (r : Response) : (s.respond r).holdC = s.holdC := rfl
@[simp] theorem State.respond_port (r : Response) : (s.respond r).port = s.port := rfl
@[simp] theorem State.respond_replies (r : Response) : (s.respond r).replies = s.replies ++ [(s.port, r)] := rfl
@[simp] theorem State.respond_cancelH (r : Response) : (s.respond r).cancelH = s.cancelH := rfl
@[simp] theorem State.respond_cancelC (r : Response) : (s.respond r).cancelC = s.cancelC := rfl
@[simp] theorem State.respond_now (r : Response) : (s.respond r).now = s.now := rfl
@[simp] theorem State.respond_draws (r : Response) : (s.respond r).draws = s.draws := rfl
@[simp] theorem State.respond_device (r : Response) : (s.respond r).device = s.device := rfl
@[simp] theorem State.respond_inputs (r : Response) : (s.respond r).inputs = s.inputs := rfl
@[simp] theorem State.respond_within (r : Response) : (s.respond r).within = s.within := rfl

@[simp] theorem State.markBusFault_cfg : (s.markBusFault).cfg = s.cfg := rfl
@[simp] theorem State.markBusFault_mirror : (s.markBusFault).mirror = s.mirror := rfl
@[simp] theorem State.markBusFault_status : (s.markBusFault).status = s.status := rfl
@[simp] theorem State.markBusFault_ce : (s.markBusFault).ce = s.ce := rfl
@[simp] theorem State.markBusFault_csn : (s.markBusFault).csn = s.csn := rfl
@[simp] theorem State.markBusFault_pipe : (s.markBusFault).pipe = s.pipe := rfl
@[simp] theorem State.markBusFault_dec : (s.markBusFault).dec = s.dec := rfl
@[simp] theorem State.markBusFault_stop : (s.markBusFault).stop = s.stop := rfl
@[simp] theorem State.markBusFault_decFail : (s.markBusFault).decFail = s.decFail := rfl
@[simp] theorem State.markBusFault_life : (s.markBusFault).life = s.life := rfl
@[simp] theorem State.markBusFault_busFault : (s.markBusFault).busFault = true := rfl
@[simp] theorem State.markBusFault_hist : (s.markBusFault).hist = s.hist := rfl
@[simp] theorem State.markBusFault_holdH : (s.markBusFault).holdH = s.holdH := rfl
@[simp] theorem State.markBusFault_holdC : (s.markBusFault).holdC = s.holdC := rfl
@[simp] theorem State.markBusFault_port : (s.markBusFault).port = s.port := rfl
@[simp] theorem State.markBusFault_replies : (s.markBusFault).replies = s.replies := rfl
@[simp] theorem State.markBusFault_cancelH : (s.markBusFault).cancelH = s.cancelH := rfl
@[simp] theorem State.markBusFault_cancelC : (s.markBusFault).cancelC = s.cancelC := rfl
@[simp] theorem State.markBusFault_now : (s.markBusFault).now = s.now := rfl
@[simp] theorem State.markBusFault_draws : (s.markBusFault).draws = s.draws := rfl
@[simp] theorem State.markBusFault_device : (s.markBusFault).device = s.device := rfl
@[simp] theorem State.markBusFault_inputs : (s.markBusFault).inputs = s.inputs := rfl
@[simp] theorem State.markBusFault_within : (s.markBusFault).within = s.within := rfl

@[simp] theorem State.raiseStop_cfg : (s.raiseStop).cfg = s.cfg := rfl
@[simp] theorem State.raiseStop_mirror : (s.raiseStop).mirror = s.mirror := rfl
@[simp] theorem State.raiseStop_status : (s.raiseStop).status = s.status := rfl
@[simp] theorem State.raiseStop_ce : (s.raiseStop).ce = s.ce := rfl
@[simp] theorem State.raiseStop_csn : (s.raiseStop).csn = s.csn := rfl
@[simp] theorem State.raiseStop_pipe : (s.raiseStop).pipe = s.pipe := rfl
@[simp] theorem State.raiseStop_dec : (s.raiseStop).dec = s.dec := rfl
@[simp] theorem State.raiseStop_stop : (s.raiseStop).stop = true := rfl
@[simp] theorem State.raiseStop_decFail : (s.raiseStop).decFail = s.decFail := rfl
@[simp] theorem State.raiseStop_life : (s.raiseStop).life = s.life := rfl
@[simp] theorem State.raiseStop_busFault : (s.raiseStop).busFault = s.busFault := rfl
@[simp] theorem State.raiseStop_hist : (s.raiseStop).hist = s.hist := rfl
@[simp] theorem State.raiseStop_holdH : (s.raiseStop).holdH = s.holdH := rfl
@[simp] theorem State.raiseStop_holdC : (s.raiseStop).holdC = s.holdC := rfl
@[simp] theorem State.raiseStop_port : (s.raiseStop).port = s.port := rfl
@[simp] theorem State.raiseStop_replies : (s.raiseStop).replies = s.replies := rfl
@[simp] theorem State.raiseStop_cancelH : (s.raiseStop).cancelH = s.cancelH := rfl
@[simp] theorem State.raiseStop_cancelC : (s.raiseStop).cancelC = s.cancelC := rfl
@[simp] theorem State.raiseStop_now : (s.raiseStop).now = s.now := rfl
@[simp] theorem State.raiseStop_draws : (s.raiseStop).draws = s.draws := rfl
@[simp] theorem State.raiseStop_device : (s.raiseStop).device = s.device := rfl
@[simp] theorem State.raiseStop_inputs : (s.raiseStop).inputs = s.inputs := rfl
@[simp] theorem State.raiseStop_within : (s.raiseStop).within = s.within := rfl

@[simp] theorem State.countDecodeFailure_cfg : (s.countDecodeFailure).cfg = s.cfg := rfl
@[simp] theorem State.countDecodeFailure_mirror : (s.countDecodeFailure).mirror = s.mirror := rfl
@[simp] theorem State.countDecodeFailure_status : (s.countDecodeFailure).status = s.status := rfl
@[simp] theorem State.countDecodeFailure_ce : (s.countDecodeFailure).ce = s.ce := rfl
@[simp] theorem State.countDecodeFailure_csn : (s.countDecodeFailure).csn = s.csn := rfl
@[simp] theorem State.countDecodeFailure_pipe : (s.countDecodeFailure).pipe = s.pipe := rfl
@[simp] theorem State.countDecodeFailure_dec : (s.countDecodeFailure).dec = s.dec := rfl
@[simp] theorem State.countDecodeFailure_stop : (s.countDecodeFailure).stop = s.stop := rfl
@[simp] theorem State.countDecodeFailure_decFail : (s.countDecodeFailure).decFail = s.decFail + 1 := rfl
@[simp] theorem State.countDecodeFailure_life : (s.countDecodeFailure).life = s.life := rfl
@[simp] theorem State.countDecodeFailure_busFault : (s.countDecodeFailure).busFault = s.busFault := rfl
@[simp] theorem State.countDecodeFailure_hist : (s.countDecodeFailure).hist = s.hist := rfl
@[simp] theorem State.countDecodeFailure_holdH : (s.countDecodeFailure).holdH = s.holdH := rfl
@[simp] theorem State.countDecodeFailure_holdC : (s.countDecodeFailure).holdC = s.holdC := rfl
@[simp] theorem State.countDecodeFailure_port : (s.countDecodeFailure).port = s.port := rfl
@[simp] theorem State.countDecodeFailure_replies : (s.countDecodeFailure).replies = s.replies := rfl
@[simp] theorem State.countDecodeFailure_cancelH : (s.countDecodeFailure).cancelH = s.cancelH := rfl
@[simp] theorem State.countDecodeFailure_cancelC : (s.countDecodeFailure).cancelC = s.cancelC := rfl
@[simp] theorem State.countDecodeFailure_now : (s.countDecodeFailure).now = s.now := rfl
@[simp] theorem State.countDecodeFailure_draws : (s.countDecodeFailure).draws = s.draws := rfl
@[simp] theorem State.countDecodeFailure_device : (s.countDecodeFailure).device = s.device := rfl
@[simp] theorem State.countDecodeFailure_inputs : (s.countDecodeFailure).inputs = s.inputs := rfl
@[simp] theorem State.countDecodeFailure_within : (s.countDecodeFailure).within = s.within := rfl

@[simp] theorem State.setStatus_cfg (t : Status) : (s.setStatus t).cfg = s.cfg := rfl
@[simp] theorem State.setStatus_mirror (t : Status) : (s.setStatus t).mirror = s.mirror := rfl
@[simp] theorem State.setStatus_status (t : Status) : (s.setStatus t).status = t := rfl
@[simp] theorem State.setStatus_ce (t : Status) : (s.setStatus t).ce = s.ce := rfl
@[simp] theorem State.setStatus_csn (t : Status) : (s.setStatus t).csn = s.csn := rfl
@[simp] theorem State.setStatus_pipe (t : Status) : (s.setStatus t).pipe = s.pipe := rfl
@[simp] theorem State.setStatus_dec (t : Status) : (s.setStatus t).dec = s.dec := rfl
@[simp] theorem State.setStatus_stop (t : Status) : (s.setStatus t).stop = s.stop := rfl
@[simp] theorem State.setStatus_decFail (t : Status) : (s.setStatus t).decFail = s.decFail := rfl
@[simp] theorem State.setStatus_life (t : Status) : (s.setStatus t).life = s.life := rfl
@[simp] theorem State.setStatus_busFault (t : Status) : (s.setStatus t).busFault = s.busFault := rfl
@[simp] theorem State.setStatus_hist (t : Status) : (s.setStatus t).hist = s.hist := rfl
@[simp] theorem State.setStatus_holdH (t : Status) : (s.setStatus t).holdH = s.holdH := rfl
@[simp] theorem State.setStatus_holdC (t : Status) : (s.setStatus t).holdC = s.holdC := rfl
@[simp] theorem State.setStatus_port (t : Status) : (s.setStatus t).port = s.port := rfl
@[simp] theorem State.setStatus_replies (t : Status) : (s.setStatus t).replies = s.replies := rfl
@[simp] theorem State.setStatus_cancelH (t : Status) : (s.setStatus t).cancelH = s.cancelH := rfl
@[simp] theorem State.setStatus_cancelC (t : Status) : (s.setStatus t).cancelC = s.cancelC := rfl
@[simp] theorem State.setStatus_now (t : Status) : (s.setStatus t).now = s.now := rfl
@[simp] theorem State.setStatus_draws (t : Status) : (s.setStatus t).draws = s.draws := rfl
@[simp] theorem State.setStatus_device (t : Status) : (s.setStatus t).device = s.device := rfl
@[simp] theorem State.setStatus_inputs (t : Status) : (s.setStatus t).inputs = s.inputs := rfl
@[simp] theorem State.setStatus_within (t : Status) : (s.setStatus t).within = s.within := rfl

@[simp] theorem State.setPipe_cfg (p : PipeNo) (r : Pipe) : (s.setPipe p r).cfg = s.cfg := rfl
@[simp] theorem State.setPipe_mirror (p : PipeNo) (r : Pipe) : (s.setPipe p r).mirror = s.mirror := rfl
@[simp] theorem State.setPipe_status (p : PipeNo) (r : Pipe) : (s.setPipe p r).status = s.status := rfl
@[simp] theorem State.setPipe_ce (p : PipeNo) (r : Pipe) : (s.setPipe p r).ce = s.ce := rfl
@[simp] theorem State.setPipe_csn (p : PipeNo) (r : Pipe) : (s.setPipe p r).csn = s.csn := rfl
@[simp] theorem State.setPipe_pipe (p : PipeNo) (r : Pipe) : (s.setPipe p r).pipe = s.pipe.set p r := rfl
@[simp] theorem State.setPipe_dec (p : PipeNo) (r : Pipe) : (s.setPipe p r).dec = s.dec := rfl
@[simp] theorem State.setPipe_stop (p : PipeNo) (r : Pipe) : (s.setPipe p r).stop = s.stop := rfl
@[simp] theorem State.setPipe_decFail (p : PipeNo) (r : Pipe) : (s.setPipe p r).decFail = s.decFail := rfl
@[simp] theorem State.setPipe_life (p : PipeNo) (r : Pipe) : (s.setPipe p r).life = s.life := rfl
@[simp] theorem State.setPipe_busFault (p : PipeNo) (r : Pipe) : (s.setPipe p r).busFault = s.busFault := rfl
@[simp] theorem State.setPipe_hist (p : PipeNo) (r : Pipe) : (s.setPipe p r).hist = s.hist := rfl
@[simp] theorem State.setPipe_holdH (p : PipeNo) (r : Pipe) : (s.setPipe p r).holdH = s.holdH := rfl
@[simp] theorem State.setPipe_holdC (p : PipeNo) (r : Pipe) : (s.setPipe p r).holdC = s.holdC := rfl
@[simp] theorem State.setPipe_port (p : PipeNo) (r : Pipe) : (s.setPipe p r).port = s.port := rfl
@[simp] theorem State.setPipe_replies (p : PipeNo) (r : Pipe) : (s.setPipe p r).replies = s.replies := rfl
@[simp] theorem State.setPipe_cancelH (p : PipeNo) (r : Pipe) : (s.setPipe p r).cancelH = s.cancelH := rfl
@[simp] theorem State.setPipe_cancelC (p : PipeNo) (r : Pipe) : (s.setPipe p r).cancelC = s.cancelC := rfl
@[simp] theorem State.setPipe_now (p : PipeNo) (r : Pipe) : (s.setPipe p r).now = s.now := rfl
@[simp] theorem State.setPipe_draws (p : PipeNo) (r : Pipe) : (s.setPipe p r).draws = s.draws := rfl
@[simp] theorem State.setPipe_device (p : PipeNo) (r : Pipe) : (s.setPipe p r).device = s.device := rfl
@[simp] theorem State.setPipe_inputs (p : PipeNo) (r : Pipe) : (s.setPipe p r).inputs = s.inputs := rfl
@[simp] theorem State.setPipe_within (p : PipeNo) (r : Pipe) : (s.setPipe p r).within = s.within := rfl

@[simp] theorem State.moved_cfg (d : Device) : (s.moved d).cfg = s.cfg := rfl
@[simp] theorem State.moved_mirror (d : Device) : (s.moved d).mirror = s.mirror := rfl
@[simp] theorem State.moved_status (d : Device) : (s.moved d).status = s.status := rfl
@[simp] theorem State.moved_ce (d : Device) : (s.moved d).ce = s.ce := rfl
@[simp] theorem State.moved_csn (d : Device) : (s.moved d).csn = s.csn := rfl
@[simp] theorem State.moved_pipe (d : Device) : (s.moved d).pipe = s.pipe := rfl
@[simp] theorem State.moved_dec (d : Device) : (s.moved d).dec = s.dec := rfl
@[simp] theorem State.moved_stop (d : Device) : (s.moved d).stop = s.stop := rfl
@[simp] theorem State.moved_decFail (d : Device) : (s.moved d).decFail = s.decFail := rfl
@[simp] theorem State.moved_life (d : Device) : (s.moved d).life = s.life := rfl
@[simp] theorem State.moved_busFault (d : Device) : (s.moved d).busFault = s.busFault := rfl
@[simp] theorem State.moved_hist (d : Device) : (s.moved d).hist = s.hist := rfl
@[simp] theorem State.moved_holdH (d : Device) : (s.moved d).holdH = s.holdH := rfl
@[simp] theorem State.moved_holdC (d : Device) : (s.moved d).holdC = s.holdC := rfl
@[simp] theorem State.moved_port (d : Device) : (s.moved d).port = s.port := rfl
@[simp] theorem State.moved_replies (d : Device) : (s.moved d).replies = s.replies := rfl
@[simp] theorem State.moved_cancelH (d : Device) : (s.moved d).cancelH = s.cancelH := rfl
@[simp] theorem State.moved_cancelC (d : Device) : (s.moved d).cancelC = s.cancelC := rfl
@[simp] theorem State.moved_now (d : Device) : (s.moved d).now = s.now := rfl
@[simp] theorem State.moved_draws (d : Device) : (s.moved d).draws = s.draws + 1 := rfl
@[simp] theorem State.moved_device (d : Device) : (s.moved d).device = d := rfl
@[simp] theorem State.moved_inputs (d : Device) : (s.moved d).inputs = s.inputs := rfl
@[simp] theorem State.moved_within (d : Device) : (s.moved d).within = s.within := rfl

@[simp] theorem State.holdShutdown_cfg (e : Nat) : (s.holdShutdown e).cfg = s.cfg := rfl
@[simp] theorem State.holdShutdown_mirror (e : Nat) : (s.holdShutdown e).mirror = s.mirror := rfl
@[simp] theorem State.holdShutdown_status (e : Nat) : (s.holdShutdown e).status = s.status := rfl
@[simp] theorem State.holdShutdown_ce (e : Nat) : (s.holdShutdown e).ce = s.ce := rfl
@[simp] theorem State.holdShutdown_csn (e : Nat) : (s.holdShutdown e).csn = s.csn := rfl
@[simp] theorem State.holdShutdown_pipe (e : Nat) : (s.holdShutdown e).pipe = s.pipe := rfl
@[simp] theorem State.holdShutdown_dec (e : Nat) : (s.holdShutdown e).dec = s.dec := rfl
@[simp] theorem State.holdShutdown_stop (e : Nat) : (s.holdShutdown e).stop = s.stop := rfl
@[simp] theorem State.holdShutdown_decFail (e : Nat) : (s.holdShutdown e).decFail = s.decFail := rfl
@[simp] theorem State.holdShutdown_life (e : Nat) : (s.holdShutdown e).life = s.life := rfl
@[simp] theorem State.holdShutdown_busFault (e : Nat) : (s.holdShutdown e).busFault = s.busFault := rfl
@[simp] theorem State.holdShutdown_hist (e : Nat) : (s.holdShutdown e).hist = s.hist := rfl
@[simp] theorem State.holdShutdown_holdH (e : Nat) : (s.holdShutdown e).holdH = some (.shutdown e) := rfl
@[simp] theorem State.holdShutdown_holdC (e : Nat) : (s.holdShutdown e).holdC = s.holdC := rfl
@[simp] theorem State.holdShutdown_port (e : Nat) : (s.holdShutdown e).port = s.port := rfl
@[simp] theorem State.holdShutdown_replies (e : Nat) : (s.holdShutdown e).replies = s.replies := rfl
@[simp] theorem State.holdShutdown_cancelH (e : Nat) : (s.holdShutdown e).cancelH = s.cancelH := rfl
@[simp] theorem State.holdShutdown_cancelC (e : Nat) : (s.holdShutdown e).cancelC = s.cancelC := rfl
@[simp] theorem State.holdShutdown_now (e : Nat) : (s.holdShutdown e).now = s.now := rfl
@[simp] theorem State.holdShutdown_draws (e : Nat) : (s.holdShutdown e).draws = s.draws := rfl
@[simp] theorem State.holdShutdown_device (e : Nat) : (s.holdShutdown e).device = s.device := rfl
@[simp] theorem State.holdShutdown_inputs (e : Nat) : (s.holdShutdown e).inputs = s.inputs := rfl
@[simp] theorem State.holdShutdown_within (e : Nat) : (s.holdShutdown e).within = s.within := rfl

@[simp] theorem State.select_cfg : (s.select).cfg = s.cfg := rfl
@[simp] theorem State.select_mirror : (s.select).mirror = s.mirror := rfl
@[simp] theorem State.select_status : (s.select).status = s.status := rfl
@[simp] theorem State.select_ce : (s.select).ce = s.ce := rfl
@[simp] theorem State.select_csn : (s.select).csn = some .low := rfl
@[simp] theorem State.select_pipe : (s.select).pipe = s.pipe := rfl
@[simp] theorem State.select_dec : (s.select).dec = s.dec := rfl
@[simp] theorem State.select_stop : (s.select).stop = s.stop := rfl
@[simp] theorem State.select_decFail : (s.select).decFail = s.decFail := rfl
@[simp] theorem State.select_life : (s.select).life = s.life := rfl
@[simp] theorem State.select_busFault : (s.select).busFault = s.busFault := rfl
@[simp] theorem State.select_hist : (s.select).hist = s.hist ++ [.csn .low] ++ [.wait s.cfg.tCS] := rfl
@[simp] theorem State.select_holdH : (s.select).holdH = s.holdH := rfl
@[simp] theorem State.select_holdC : (s.select).holdC = s.holdC := rfl
@[simp] theorem State.select_port : (s.select).port = s.port := rfl
@[simp] theorem State.select_replies : (s.select).replies = s.replies := rfl
@[simp] theorem State.select_cancelH : (s.select).cancelH = s.cancelH := rfl
@[simp] theorem State.select_cancelC : (s.select).cancelC = s.cancelC := rfl
@[simp] theorem State.select_now : (s.select).now = s.now + s.cfg.tCS + Config.waitSlack s.draws := rfl
@[simp] theorem State.select_draws : (s.select).draws = s.draws + 1 := rfl
@[simp] theorem State.select_device : (s.select).device = s.device := rfl
@[simp] theorem State.select_inputs : (s.select).inputs = s.inputs := rfl
@[simp] theorem State.select_within : (s.select).within = s.within := rfl

@[simp] theorem State.deselect_cfg : (s.deselect).cfg = s.cfg := rfl
@[simp] theorem State.deselect_mirror : (s.deselect).mirror = s.mirror := rfl
@[simp] theorem State.deselect_status : (s.deselect).status = s.status := rfl
@[simp] theorem State.deselect_ce : (s.deselect).ce = s.ce := rfl
@[simp] theorem State.deselect_csn : (s.deselect).csn = some .high := rfl
@[simp] theorem State.deselect_pipe : (s.deselect).pipe = s.pipe := rfl
@[simp] theorem State.deselect_dec : (s.deselect).dec = s.dec := rfl
@[simp] theorem State.deselect_stop : (s.deselect).stop = s.stop := rfl
@[simp] theorem State.deselect_decFail : (s.deselect).decFail = s.decFail := rfl
@[simp] theorem State.deselect_life : (s.deselect).life = s.life := rfl
@[simp] theorem State.deselect_busFault : (s.deselect).busFault = s.busFault := rfl
@[simp] theorem State.deselect_hist : (s.deselect).hist = s.hist ++ [.wait s.cfg.tCS] ++ [.csn .high] := rfl
@[simp] theorem State.deselect_holdH : (s.deselect).holdH = s.holdH := rfl
@[simp] theorem State.deselect_holdC : (s.deselect).holdC = s.holdC := rfl
@[simp] theorem State.deselect_port : (s.deselect).port = s.port := rfl
@[simp] theorem State.deselect_replies : (s.deselect).replies = s.replies := rfl
@[simp] theorem State.deselect_cancelH : (s.deselect).cancelH = s.cancelH := rfl
@[simp] theorem State.deselect_cancelC : (s.deselect).cancelC = s.cancelC := rfl
@[simp] theorem State.deselect_now : (s.deselect).now = s.now + s.cfg.tCS + Config.waitSlack s.draws := rfl
@[simp] theorem State.deselect_draws : (s.deselect).draws = s.draws + 1 := rfl
@[simp] theorem State.deselect_device : (s.deselect).device = s.device.deselect s.cfg := rfl
@[simp] theorem State.deselect_inputs : (s.deselect).inputs = s.inputs := rfl
@[simp] theorem State.deselect_within : (s.deselect).within = s.within := rfl

@[simp] theorem State.release_cfg (p : Port) : (s.release p).cfg = s.cfg := by cases p <;> rfl
@[simp] theorem State.release_mirror (p : Port) : (s.release p).mirror = s.mirror := by cases p <;> rfl
@[simp] theorem State.release_status (p : Port) : (s.release p).status = s.status := by cases p <;> rfl
@[simp] theorem State.release_ce (p : Port) : (s.release p).ce = s.ce := by cases p <;> rfl
@[simp] theorem State.release_csn (p : Port) : (s.release p).csn = s.csn := by cases p <;> rfl
@[simp] theorem State.release_pipe (p : Port) : (s.release p).pipe = s.pipe := by cases p <;> rfl
@[simp] theorem State.release_dec (p : Port) : (s.release p).dec = s.dec := by cases p <;> rfl
@[simp] theorem State.release_stop (p : Port) : (s.release p).stop = s.stop := by cases p <;> rfl
@[simp] theorem State.release_decFail (p : Port) : (s.release p).decFail = s.decFail := by cases p <;> rfl
@[simp] theorem State.release_life (p : Port) : (s.release p).life = s.life := by cases p <;> rfl
@[simp] theorem State.release_busFault (p : Port) : (s.release p).busFault = s.busFault := by cases p <;> rfl
@[simp] theorem State.release_hist (p : Port) : (s.release p).hist = s.hist := by cases p <;> rfl
@[simp] theorem State.release_port (p : Port) : (s.release p).port = s.port := by cases p <;> rfl
@[simp] theorem State.release_replies (p : Port) : (s.release p).replies = s.replies := by cases p <;> rfl
@[simp] theorem State.release_cancelH (p : Port) : (s.release p).cancelH = s.cancelH := by cases p <;> rfl
@[simp] theorem State.release_cancelC (p : Port) : (s.release p).cancelC = s.cancelC := by cases p <;> rfl
@[simp] theorem State.release_now (p : Port) : (s.release p).now = s.now := by cases p <;> rfl
@[simp] theorem State.release_draws (p : Port) : (s.release p).draws = s.draws := by cases p <;> rfl
@[simp] theorem State.release_device (p : Port) : (s.release p).device = s.device := by cases p <;> rfl
@[simp] theorem State.release_inputs (p : Port) : (s.release p).inputs = s.inputs := by cases p <;> rfl
@[simp] theorem State.release_within (p : Port) : (s.release p).within = s.within := by cases p <;> rfl

@[simp] theorem State.holdRecvw_cfg (p : Port) (w : Waiting) : (s.holdRecvw p w).cfg = s.cfg := by cases p <;> rfl
@[simp] theorem State.holdRecvw_mirror (p : Port) (w : Waiting) : (s.holdRecvw p w).mirror = s.mirror := by cases p <;> rfl
@[simp] theorem State.holdRecvw_status (p : Port) (w : Waiting) : (s.holdRecvw p w).status = s.status := by cases p <;> rfl
@[simp] theorem State.holdRecvw_ce (p : Port) (w : Waiting) : (s.holdRecvw p w).ce = s.ce := by cases p <;> rfl
@[simp] theorem State.holdRecvw_csn (p : Port) (w : Waiting) : (s.holdRecvw p w).csn = s.csn := by cases p <;> rfl
@[simp] theorem State.holdRecvw_pipe (p : Port) (w : Waiting) : (s.holdRecvw p w).pipe = s.pipe := by cases p <;> rfl
@[simp] theorem State.holdRecvw_dec (p : Port) (w : Waiting) : (s.holdRecvw p w).dec = s.dec := by cases p <;> rfl
@[simp] theorem State.holdRecvw_stop (p : Port) (w : Waiting) : (s.holdRecvw p w).stop = s.stop := by cases p <;> rfl
@[simp] theorem State.holdRecvw_decFail (p : Port) (w : Waiting) : (s.holdRecvw p w).decFail = s.decFail := by cases p <;> rfl
@[simp] theorem State.holdRecvw_life (p : Port) (w : Waiting) : (s.holdRecvw p w).life = s.life := by cases p <;> rfl
@[simp] theorem State.holdRecvw_busFault (p : Port) (w : Waiting) : (s.holdRecvw p w).busFault = s.busFault := by cases p <;> rfl
@[simp] theorem State.holdRecvw_hist (p : Port) (w : Waiting) : (s.holdRecvw p w).hist = s.hist := by cases p <;> rfl
@[simp] theorem State.holdRecvw_port (p : Port) (w : Waiting) : (s.holdRecvw p w).port = s.port := by cases p <;> rfl
@[simp] theorem State.holdRecvw_replies (p : Port) (w : Waiting) : (s.holdRecvw p w).replies = s.replies := by cases p <;> rfl
@[simp] theorem State.holdRecvw_cancelH (p : Port) (w : Waiting) : (s.holdRecvw p w).cancelH = s.cancelH := by cases p <;> rfl
@[simp] theorem State.holdRecvw_cancelC (p : Port) (w : Waiting) : (s.holdRecvw p w).cancelC = s.cancelC := by cases p <;> rfl
@[simp] theorem State.holdRecvw_now (p : Port) (w : Waiting) : (s.holdRecvw p w).now = s.now := by cases p <;> rfl
@[simp] theorem State.holdRecvw_draws (p : Port) (w : Waiting) : (s.holdRecvw p w).draws = s.draws := by cases p <;> rfl
@[simp] theorem State.holdRecvw_device (p : Port) (w : Waiting) : (s.holdRecvw p w).device = s.device := by cases p <;> rfl
@[simp] theorem State.holdRecvw_inputs (p : Port) (w : Waiting) : (s.holdRecvw p w).inputs = s.inputs := by cases p <;> rfl
@[simp] theorem State.holdRecvw_within (p : Port) (w : Waiting) : (s.holdRecvw p w).within = s.within := by cases p <;> rfl

@[simp] theorem State.driveCancel_cfg (p : Port) (l : Bool) : (s.driveCancel p l).cfg = s.cfg := by cases p <;> rfl
@[simp] theorem State.driveCancel_mirror (p : Port) (l : Bool) : (s.driveCancel p l).mirror = s.mirror := by cases p <;> rfl
@[simp] theorem State.driveCancel_status (p : Port) (l : Bool) : (s.driveCancel p l).status = s.status := by cases p <;> rfl
@[simp] theorem State.driveCancel_ce (p : Port) (l : Bool) : (s.driveCancel p l).ce = s.ce := by cases p <;> rfl
@[simp] theorem State.driveCancel_csn (p : Port) (l : Bool) : (s.driveCancel p l).csn = s.csn := by cases p <;> rfl
@[simp] theorem State.driveCancel_pipe (p : Port) (l : Bool) : (s.driveCancel p l).pipe = s.pipe := by cases p <;> rfl
@[simp] theorem State.driveCancel_dec (p : Port) (l : Bool) : (s.driveCancel p l).dec = s.dec := by cases p <;> rfl
@[simp] theorem State.driveCancel_stop (p : Port) (l : Bool) : (s.driveCancel p l).stop = s.stop := by cases p <;> rfl
@[simp] theorem State.driveCancel_decFail (p : Port) (l : Bool) : (s.driveCancel p l).decFail = s.decFail := by cases p <;> rfl
@[simp] theorem State.driveCancel_life (p : Port) (l : Bool) : (s.driveCancel p l).life = s.life := by cases p <;> rfl
@[simp] theorem State.driveCancel_busFault (p : Port) (l : Bool) : (s.driveCancel p l).busFault = s.busFault := by cases p <;> rfl
@[simp] theorem State.driveCancel_hist (p : Port) (l : Bool) : (s.driveCancel p l).hist = s.hist := by cases p <;> rfl
@[simp] theorem State.driveCancel_holdH (p : Port) (l : Bool) : (s.driveCancel p l).holdH = s.holdH := by cases p <;> rfl
@[simp] theorem State.driveCancel_holdC (p : Port) (l : Bool) : (s.driveCancel p l).holdC = s.holdC := by cases p <;> rfl
@[simp] theorem State.driveCancel_port (p : Port) (l : Bool) : (s.driveCancel p l).port = s.port := by cases p <;> rfl
@[simp] theorem State.driveCancel_replies (p : Port) (l : Bool) : (s.driveCancel p l).replies = s.replies := by cases p <;> rfl
@[simp] theorem State.driveCancel_now (p : Port) (l : Bool) : (s.driveCancel p l).now = s.now := by cases p <;> rfl
@[simp] theorem State.driveCancel_draws (p : Port) (l : Bool) : (s.driveCancel p l).draws = s.draws := by cases p <;> rfl
@[simp] theorem State.driveCancel_device (p : Port) (l : Bool) : (s.driveCancel p l).device = s.device := by cases p <;> rfl
@[simp] theorem State.driveCancel_inputs (p : Port) (l : Bool) : (s.driveCancel p l).inputs = s.inputs := by cases p <;> rfl
@[simp] theorem State.driveCancel_within (p : Port) (l : Bool) : (s.driveCancel p l).within = s.within := by cases p <;> rfl

@[simp] theorem State.release_holdH_H : (s.release .H).holdH = none := rfl
@[simp] theorem State.release_holdC_H : (s.release .H).holdC = s.holdC := rfl
@[simp] theorem State.release_holdH_C : (s.release .C).holdH = s.holdH := rfl
@[simp] theorem State.release_holdC_C : (s.release .C).holdC = none := rfl
@[simp] theorem State.holdRecvw_holdH_H (w : Waiting) : (s.holdRecvw .H w).holdH = some (.recvw w) := rfl
@[simp] theorem State.holdRecvw_holdC_H (w : Waiting) : (s.holdRecvw .H w).holdC = s.holdC := rfl
@[simp] theorem State.holdRecvw_holdH_C (w : Waiting) : (s.holdRecvw .C w).holdH = s.holdH := rfl
@[simp] theorem State.holdRecvw_holdC_C (w : Waiting) : (s.holdRecvw .C w).holdC = some w := rfl

/-- Taking an error is delivering a response and nothing else (R199). -/
theorem State.raise_eq (c : Code) : s.raise c = s.respond (.ofCode c 0) := rfl

/-- A response goes to the current port and to no other. -/
theorem State.repliesOn_respond (r : Response) (p : Port) :
    (s.respond r).repliesOn p = if s.port = p then s.repliesOn p ++ [r] else s.repliesOn p := by
  by_cases h : s.port = p <;> simp [State.repliesOn, h]

/-- The responses of a port depend on the replies only. -/
theorem State.repliesOn_congr {s t : State} (h : t.replies = s.replies) (p : Port) :
    t.repliesOn p = s.repliesOn p := by simp [State.repliesOn, h]

end Sys2Proof.Machine
end

