-- ==== Sys2Proof/Laws/Ops.lean ====
section
/-! SUPPORT. For each shared operation one lemma that says once everything it can do. -/

namespace Sys2Proof.Machine

open Sys2Proof

/-! ## Device and transfers -/

theorem Answer.checked_ok {n : Nat} {a : Answer} {inp : List Byte} (h : a.checked n = .ok inp) : inp.length = n := by
  cases a with
  | fail => cases h
  | ok l =>
    simp only [Answer.checked] at h
    split at h
    · cases h; assumption
    · cases h

theorem RefDev.transfer_length (c : Config) (out : List Byte) :
    ∀ d : RefDev, (d.transfer c out).1.length = out.length := by
  induction out with
  | nil => intro d; rfl
  | cons b bs ih => intro d; simp [RefDev.transfer, ih]

/-- A successful transfer receives as many bytes as it sends (R41). -/
theorem State.answer_length {s : State} {out inp : List Byte} (h : (s.answer out).1 = .ok inp) :
    inp.length = out.length := by
  unfold State.answer at h
  cases hd : s.device with
  | scripted l =>
    cases l <;> rw [hd] at h <;> exact Answer.checked_ok h
  | refDev d =>
    rw [hd] at h
    cases h
    exact RefDev.transfer_length _ _ _

/-- What one transfer can do (R41). -/
theorem State.transfer_cases (s : State) (out : List Byte) :
    (∃ inp, (s.answer out).1 = .ok inp ∧
      s.transfer out = (some inp, (s.emit (.xfer out inp)).moved (s.answer out).2)) ∨
    ((s.answer out).1 = .fail ∧
      s.transfer out = (none, ((s.emit (.xferFail out)).markBusFault).moved (s.answer out).2)) := by
  unfold State.transfer
  cases h : (s.answer out).1 with
  | ok inp => exact .inl ⟨inp, rfl, rfl⟩
  | fail => exact .inr ⟨rfl, rfl⟩

theorem State.transfer_ok {s : State} {out inp : List Byte} (h : (s.answer out).1 = .ok inp) :
    s.transfer out = (some inp, (s.emit (.xfer out inp)).moved (s.answer out).2) := by
  simp [State.transfer, h]

theorem State.transfer_fail {s : State} {out : List Byte} (h : (s.answer out).1 = .fail) :
    s.transfer out = (none, ((s.emit (.xferFail out)).markBusFault).moved (s.answer out).2) := by
  simp [State.transfer, h]

/-! ## Brackets and bus accesses -/

/-- The state after a bracket whose one transfer succeeded, failed. -/
def State.bracketOk (s : State) (out inp : List Byte) : State :=
  ((s.select.emit (.xfer out inp)).moved (s.select.answer out).2).deselect
def State.bracketFail (s : State) (out : List Byte) : State :=
  (((s.select.emit (.xferFail out)).markBusFault).moved (s.select.answer out).2).deselect

@[simp] theorem State.bracketOk_device (s : State) (out inp : List Byte) :
    (s.bracketOk out inp).device = s.deviceAfter out := rfl
@[simp] theorem State.bracketFail_device (s : State) (out : List Byte) :
    (s.bracketFail out).device = s.deviceAfter out := rfl
theorem State.bracketOk_draws (s : State) (out inp : List Byte) : s.draws < (s.bracketOk out inp).draws := by
  show s.draws < s.draws + 1 + 1 + 1
  omega
theorem State.bracketFail_draws (s : State) (out : List Byte) : s.draws < (s.bracketFail out).draws := by
  show s.draws < s.draws + 1 + 1 + 1
  omega

/-- A transfer's two outcomes, as the claims write them. -/
theorem State.received_eq (s : State) (out inp : List Byte) :
    (s.emit (.xfer out inp)).moved (s.answer out).2 = s.received out inp := rfl
theorem State.lost_eq (s : State) (out : List Byte) :
    ((s.emit (.xferFail out)).markBusFault).moved (s.answer out).2 = s.lost out := rfl

/-- What a bracket around one transfer can do (R42). -/
theorem State.bracket_cases (s : State) (out : List Byte) :
    (∃ inp, s.answers out inp ∧ s.bracket out = (some inp, s.bracketOk out inp)) ∨
    (s.fails out ∧ s.bracket out = (none, s.bracketFail out)) := by
  rcases s.select.transfer_cases out with ⟨inp, h, e⟩ | ⟨h, e⟩
  · exact .inl ⟨inp, h, by simp [State.bracket, e, State.bracketOk]⟩
  · exact .inr ⟨h, by simp [State.bracket, e, State.bracketFail]⟩

@[simp] theorem State.bracketOk_hist (s : State) (out inp : List Byte) :
    (s.bracketOk out inp).hist = s.hist ++ bracketEvents s.cfg [.xfer out inp] := by
  simp [State.bracketOk, bracketEvents]

@[simp] theorem State.bracketFail_hist (s : State) (out : List Byte) :
    (s.bracketFail out).hist = s.hist ++ bracketEvents s.cfg [.xferFail out] := by
  simp [State.bracketFail, bracketEvents]

theorem State.deselect_same (s t : State) (h : SameButBus s t) : SameButBus s t.deselect := by
  rw [SameButBus] at h ⊢
  rw [h]
  rfl

theorem State.bracketOk_same (s : State) (out inp : List Byte) : SameButBus s (s.bracketOk out inp) :=
  State.deselect_same _ _ rfl
theorem State.bracketFail_same (s : State) (out : List Byte) : SameButBus s (s.bracketFail out) :=
  State.deselect_same _ _ rfl

/-- What a register read can do (R43). -/
theorem busRead_cases (n : RegName) (s : State) :
    (∃ inp, s.answers (readBytes s.cfg n) inp ∧
      busRead n s = (some (assemble inp.tail), s.bracketOk (readBytes s.cfg n) inp)) ∨
    (s.fails (readBytes s.cfg n) ∧ busRead n s = (none, s.bracketFail (readBytes s.cfg n))) := by
  rcases s.bracket_cases (readBytes s.cfg n) with ⟨inp, h, e⟩ | ⟨h, e⟩
  · exact .inl ⟨inp, h, by simp [busRead, e]⟩
  · exact .inr ⟨h, by simp [busRead, e]⟩

/-- What a register write can do: the mirror changes only when it succeeded (R44). -/
theorem busWrite_cases (n : RegName) (v : Raw) (s : State) :
    (∃ inp, s.answers (writeBytes s.cfg n v) inp ∧
      busWrite n v s =
        (true, { s.bracketOk (writeBytes s.cfg n v) inp with mirror := s.mirror.set n v })) ∨
    (s.fails (writeBytes s.cfg n v) ∧
      busWrite n v s = (false, s.bracketFail (writeBytes s.cfg n v))) := by
  rcases s.bracket_cases (writeBytes s.cfg n v) with ⟨inp, h, e⟩ | ⟨h, e⟩
  · exact .inl ⟨inp, h, by simp [busWrite, e, State.bracketOk]⟩
  · exact .inr ⟨h, by simp [busWrite, e]⟩

theorem busRead_ok {n : RegName} {s : State} {inp : List Byte} (h : s.answers (readBytes s.cfg n) inp) :
    busRead n s = (some (assemble inp.tail), s.bracketOk (readBytes s.cfg n) inp) := by
  rcases busRead_cases n s with ⟨inp', h', e⟩ | ⟨h', _⟩
  · rw [State.answers, h'] at h; cases h; exact e
  · rw [State.answers, h'] at h; cases h

theorem busRead_fail {n : RegName} {s : State} (h : s.fails (readBytes s.cfg n)) :
    busRead n s = (none, s.bracketFail (readBytes s.cfg n)) := by
  rcases busRead_cases n s with ⟨inp', h', e⟩ | ⟨_, e⟩
  · rw [State.fails, h'] at h; cases h
  · exact e

theorem busWrite_ok {n : RegName} {v : Raw} {s : State} {inp : List Byte}
    (h : s.answers (writeBytes s.cfg n v) inp) :
    busWrite n v s = (true, { s.bracketOk (writeBytes s.cfg n v) inp with mirror := s.mirror.set n v }) := by
  rcases busWrite_cases n v s with ⟨inp', h', e⟩ | ⟨h', _⟩
  · rw [State.answers, h'] at h; cases h; exact e
  · rw [State.answers, h'] at h; cases h

theorem busWrite_fail {n : RegName} {v : Raw} {s : State} (h : s.fails (writeBytes s.cfg n v)) :
    busWrite n v s = (false, s.bracketFail (writeBytes s.cfg n v)) := by
  rcases busWrite_cases n v s with ⟨inp', h', e⟩ | ⟨_, e⟩
  · rw [State.fails, h'] at h; cases h
  · exact e

/-! ## Queues -/

/-- What an enqueue can do (R136, R140). -/
theorem enqueue_cases (p : PipeNo) (fr : Frame) (s : State) :
    (s.pipe[p].q.length < s.cfg.cap[p] ∧
      enqueue p fr s = (true, s.setPipe p { s.pipe[p] with q := s.pipe[p].q ++ [fr] })) ∨
    (s.cfg.cap[p] ≤ s.pipe[p].q.length ∧
      enqueue p fr s = (false, (s.setPipe p s.pipe[p].countDrop).emit (.drop p fr))) := by
  by_cases h : s.pipe[p].q.length < s.cfg.cap[p]
  · exact .inl ⟨h, if_pos (decide_eq_true h)⟩
  · exact .inr ⟨Nat.le_of_not_lt h, if_neg (by simpa [State.hasRoom] using h)⟩

@[simp] theorem State.setPipe_get (p : PipeNo) (r : Pipe) (s : State) : (s.setPipe p r).pipe[p] = r := by
  simp [State.setPipe]

theorem State.setPipe_get_ne {p q : PipeNo} (h : p ≠ q) (r : Pipe) (s : State) :
    (s.setPipe p r).pipe[q] = s.pipe[q] := by
  have : (p : Nat) ≠ q := fun e => h (Fin.ext e)
  simp [State.setPipe, this]

/-! ## Registers by name -/

theorem RegFile.get_set_same {f : RegFile} {n : RegName} {v : Raw} (h : ∀ i, n = .tab i → i < f.tab.length) :
    (f.set n v).get n = v := by
  cases n with
  | tab i => simp [RegFile.get, RegFile.set, h i rfl]
  | rxAddr p => simp [RegFile.get, RegFile.set]
  | txAddr => rfl
  | rxPw p => simp [RegFile.get, RegFile.set]

theorem RegFile.get_set_ne {f : RegFile} {n m : RegName} {v : Raw} (h : n ≠ m) :
    (f.set n v).get m = f.get m := by
  cases n <;> cases m <;> simp_all [RegFile.get, RegFile.set, Vector.getElem_set, List.getD]
  all_goals
    rename_i p q
    intro e
    exact absurd (Fin.ext e) h

end Sys2Proof.Machine
end

