-- ==== Sys2Proof/Laws/Guest.lean ====
section
/-! SUPPORT. What other agents can do inside an operation of port H, said once: `interleave_guests`
(spec/20_memory.md R57, spec/44_decoder.md R165). -/

namespace Sys2Proof.Machine

open Sys2Proof

theorem SamePipeButTaken.refl (p : Pipe) : SamePipeButTaken p p := ⟨0, rfl⟩

theorem SamePipeButTaken.trans {p q r : Pipe} (h : SamePipeButTaken p q) (g : SamePipeButTaken q r) :
    SamePipeButTaken p r := by
  obtain ⟨i, rfl⟩ := h
  obtain ⟨j, rfl⟩ := g
  exact ⟨i + j, by simp⟩

/-- Taking the head of one queue. -/
theorem dequeue_taken (p q : PipeNo) (s : State) : SamePipeButTaken s.pipe[q] (dequeue p s).pipe[q] := by
  by_cases h : p = q
  · subst h
    exact ⟨1, by rw [dequeue, State.setPipe_get, List.drop_one]⟩
  · rw [dequeue, State.setPipe_get_ne h]
    exact .refl _

theorem GuestsOnly.refl (s : State) : GuestsOnly s s where
  rest := rfl
  pipes _ := .refl _
  dec := .inl rfl
  decFail := le_rfl
  events := ⟨[], by simp, rfl⟩
  replies := rfl
  time := le_rfl

theorem GuestsOnly.trans {s t u : State} (h : GuestsOnly s t) (g : GuestsOnly t u) : GuestsOnly s u where
  rest := by rw [g.rest, h.rest]
  pipes p := (h.pipes p).trans (g.pipes p)
  dec := by
    have hs : t.stop = s.stop := by rw [h.rest]
    rcases g.dec with e | ⟨e, e'⟩
    · rw [e]; exact h.dec
    · exact .inr ⟨hs ▸ e, e'⟩
  decFail := h.decFail.trans g.decFail
  events := by
    obtain ⟨l, hl, al⟩ := h.events
    obtain ⟨m, hm, am⟩ := g.events
    exact ⟨l ++ m, by rw [hm, hl, List.append_assoc], by rw [List.all_append, al, am]; rfl⟩
  replies := g.replies.trans h.replies
  time := h.time.trans g.time

/-- A guest's step, seen on the port it was taken from. -/
def GuestStep (s t : State) : Prop := GuestsOnly s { t with port := s.port }

theorem GuestStep.trans {s t u : State} (h : GuestStep s t) (g : GuestStep t u) : GuestStep s u := by
  have g' : GuestsOnly { t with port := s.port } { u with port := s.port } :=
    { g with rest := by have := g.rest; simp only [State.mk.injEq] at this ⊢; simp_all }
  exact GuestsOnly.trans h g'

/-- An answer on port C. -/
theorem GuestStep.answer (s : State) (r : Response) :
    GuestStep s (({ s with port := .C } : State).respond r) where
  rest := rfl
  pipes _ := .refl _
  dec := .inl rfl
  decFail := le_rfl
  events := ⟨[], by simp, rfl⟩
  replies := by simp [State.repliesOn]
  time := le_rfl

theorem GuestStep.hold (s : State) (w : Option Waiting) : GuestStep s { s with port := .C, holdC := w } where
  rest := rfl
  pipes _ := .refl _
  dec := .inl rfl
  decFail := le_rfl
  events := ⟨[], by simp, rfl⟩
  replies := rfl
  time := le_rfl

theorem GuestStep.take (s : State) (p : PipeNo) : GuestStep s (dequeue p s) where
  rest := rfl
  pipes q := dequeue_taken p q s
  dec := .inl rfl
  decFail := le_rfl
  events := ⟨[], by simp [dequeue], rfl⟩
  replies := rfl
  time := le_rfl

theorem GuestStep.event (s : State) {e : Event} (h : Event.ofDecoder e = true) : GuestStep s (s.emit e) where
  rest := rfl
  pipes _ := .refl _
  dec := .inl rfl
  decFail := le_rfl
  events := ⟨[e], rfl, by simp [h]⟩
  replies := rfl
  time := le_rfl

theorem GuestStep.refl (s : State) : GuestStep s s := GuestsOnly.refl s

theorem GuestStep.toC (s : State) : GuestStep s { s with port := .C } := GuestsOnly.refl s

/-- RECVW's hold examined on port C. -/
theorem recvwWait_guest (w : Waiting) {s : State} (hp : s.port = .C) : GuestStep s (recvwWait w s) := by
  have e : ∀ c, GuestStep s ((s.release .C).raise c) := fun c => by
    have := (GuestStep.hold s none).trans (.answer { s with port := .C, holdC := none } (.ofCode c 0))
    simpa [State.release, State.raise, ← hp] using this
  unfold recvwWait
  split
  · simpa [hp] using e .cancelled
  · split
    · simpa [hp] using e .timeout
    · have := GuestStep.hold s (some w)
      rw [hp]
      simpa [State.holdRecvw, ← hp] using this

theorem recvwTry_guest (w : Waiting) {s : State} (hp : s.port = .C) : GuestStep s (recvwTry w s) := by
  unfold recvwTry
  split
  · rename_i fr _ _
    have := ((GuestStep.take s w.pipe).trans (.hold _ none)).trans (.answer _ (.okFrame fr))
    simpa [State.release, dequeue, State.setPipe, hp] using this
  · exact recvwWait_guest w hp

theorem recvwPoll_guest (w : Waiting) {s : State} (hp : s.port = .C) : GuestStep s (recvwPoll w s) := by
  unfold recvwPoll
  split
  · exact recvwTry_guest w hp
  · exact recvwWait_guest w hp

theorem hasdata_guest (a : Byte) {s : State} (hp : s.port = .C) : GuestStep s (hasdataEffect a s) := by
  have e : ({ s with port := .C } : State) = s := by rw [← hp]
  have := fun r => e ▸ GuestStep.answer s r
  unfold hasdataEffect
  split <;> exact this _

theorem recv_guest (a : Byte) {s : State} (hp : s.port = .C) : GuestStep s (recvEffect a s) := by
  have e : ({ s with port := .C } : State) = s := by rw [← hp]
  have := fun r => e ▸ GuestStep.answer s r
  unfold recvEffect
  split
  · exact this _
  · rename_i p _
    split
    · exact this _
    · rename_i fr _ _
      have h := (GuestStep.take s p).trans (.answer _ (.okFrame fr))
      simpa [dequeue, State.setPipe, hp] using h

theorem recvw_guest (a : Byte) (timeout : Option Raw) {s : State} (hp : s.port = .C) :
    GuestStep s (recvwEffect a timeout s) := by
  have e : ({ s with port := .C } : State) = s := by rw [← hp]
  have := fun r => e ▸ GuestStep.answer s r
  unfold recvwEffect
  split
  · exact this _
  · exact recvwTry_guest _ hp

/-- What a consumer's command word comes to. -/
theorem fetchCommand_C (word : CmdWord) (s : State) :
    (∃ r, fetchCommand .C word [] s = .refuse r) ∨
    (∃ r, fetchCommand .C word [] s = .done (({ s with port := .C } : State).respond r)) ∨
    (∃ i, i.onPortC = true ∧ fetchCommand .C word [] s = .run i { s with port := .C }) := by
  unfold fetchCommand
  split
  · exact .inl ⟨_, rfl⟩
  · split
    · exact .inr (.inl ⟨_, rfl⟩)
    · split
      · exact .inr (.inl ⟨_, rfl⟩)
      · rename_i i _
        split
        · exact .inr (.inl ⟨_, rfl⟩)
        · rename_i h
          exact .inr (.inr ⟨i, by simpa using h, rfl⟩)

/-- What a guest's turn may come to. -/
def Fetch.isGuest (s : State) : Fetch → Prop
  | .run i t => GuestStep s (guestEffect i t)
  | .done t => GuestStep s t
  | .refuse _ => True

/-- A frame that parses is one of the three wire commands (R77). -/
theorem decodeFrame_ok {fr : Frame} {i : Instr} (h : decodeFrame fr = .ok i) :
    (∃ x, i = .volume x) ∨ (∃ x, i = .play x) ∨ (∃ x, i = .track x) := by
  unfold decodeFrame at h
  split at h
  · split at h
    · cases h; exact .inl ⟨_, rfl⟩
    · split at h
      · cases h; exact .inr (.inl ⟨_, rfl⟩)
      · split at h
        · cases h; exact .inr (.inr ⟨_, rfl⟩)
        · cases h
  all_goals cases h

theorem decodeFailure_guest (fr : Frame) (s : State) : GuestStep s (decodeFailure fr s) where
  rest := rfl
  pipes _ := .refl _
  dec := .inl rfl
  decFail := Nat.le_succ _
  events := ⟨[.decodeFailure fr], rfl, rfl⟩
  replies := rfl
  time := le_rfl

/-- What the decoder's turn comes to. -/
theorem fetchDecoder_guest (s : State) : Fetch.isGuest s (fetchDecoder s) := by
  unfold fetchDecoder
  split
  · exact GuestStep.refl s
  · rename_i dp _
    split
    · split
      · rename_i h
        exact { GuestsOnly.refl s with rest := rfl, dec := .inr ⟨by simpa using h, rfl⟩ }
      · split
        · exact GuestStep.refl s
        · rename_i fr _ _
          have ht := GuestStep.take s dp
          split
          · rename_i i hd
            refine ht.trans ?_
            rcases decodeFrame_ok hd with ⟨x, rfl⟩ | ⟨x, rfl⟩ | ⟨x, rfl⟩
            · exact .event _ rfl
            · exact .event _ rfl
            · simp only [guestEffect, trackEffect]
              split
              · exact .refl _
              · exact .event _ rfl
          · exact ht.trans (decodeFailure_guest _ _)
    · exact GuestStep.refl s

/-- Every act of another agent, or of the environment, inside an operation. -/
theorem runAct_guest (s : State) (a : Act) : GuestStep s (runAct s a) := by
  cases a with
  | consumer word =>
    simp only [runAct, fetchAct]
    rcases fetchCommand_C word s with ⟨r, e⟩ | ⟨r, e⟩ | ⟨i, hi, e⟩
    · rw [e]; exact .refl s
    · rw [e]; exact .answer s r
    · rw [e]
      refine (GuestStep.toC s).trans ?_
      cases i <;> try cases hi
      · exact hasdata_guest _ rfl
      · exact recv_guest _ rfl
      · exact recvw_guest _ _ rfl
  | pollC =>
    simp only [runAct, fetchAct, pollConsumer]
    split
    · exact .refl s
    · exact (GuestStep.toC s).trans (recvwPoll_guest _ rfl)
  | decoder =>
    have := fetchDecoder_guest s
    simp only [runAct, fetchAct]
    revert this
    cases fetchDecoder s with
    | run i t => exact id
    | done t => exact id
    | refuse r => exact fun _ => .refl s
  | time d => exact { GuestsOnly.refl s with rest := rfl, time := Nat.le_add_right _ _ }
  | cancel p l => cases p <;> exact { GuestsOnly.refl s with rest := rfl }

/-- With no acts listed nothing happens at an interleaving point. -/
theorem interleave_quiet {s : State} (h : s.within = []) : interleave s = s := by
  unfold interleave
  rw [h]

/-- One interleaving point does what other agents may do, and nothing else. -/
theorem interleave_guests (s : State) : GuestsOnly s (interleave s) := by
  unfold interleave
  split
  · exact .refl s
  · rename_i acts rest _
    have h : ∀ (l : List Act) (t : State), GuestStep s t → GuestStep s (l.foldl runAct t) := by
      intro l
      induction l with
      | nil => exact fun t ht => ht
      | cons a l ih => exact fun t ht => ih _ (ht.trans (runAct_guest t a))
    exact h acts _ { GuestsOnly.refl s with rest := rfl }

end Sys2Proof.Machine
end

