-- ==== Sys2Proof/Laws/Bus.lean ====
section
/-! SUPPORT. What one bracket and what a field write can do, as the claims say it (spec/20_memory.md R42 to R44;
spec/40_registerfile.md R93). -/

namespace Sys2Proof.Machine

open Sys2Proof

/-! ## One bracket -/

@[simp] theorem State.bracketOk_csn (s : State) (out inp : List Byte) : (s.bracketOk out inp).csn = some .high := by
  simp [State.bracketOk]
@[simp] theorem State.bracketOk_mirror (s : State) (out inp : List Byte) : (s.bracketOk out inp).mirror = s.mirror := by
  simp [State.bracketOk]
@[simp] theorem State.bracketOk_busFault (s : State) (out inp : List Byte) :
    (s.bracketOk out inp).busFault = s.busFault := by simp [State.bracketOk]
@[simp] theorem State.bracketOk_replies (s : State) (out inp : List Byte) :
    (s.bracketOk out inp).replies = s.replies := by simp [State.bracketOk]
@[simp] theorem State.bracketOk_port (s : State) (out inp : List Byte) : (s.bracketOk out inp).port = s.port := by
  simp [State.bracketOk]
@[simp] theorem State.bracketOk_cfg (s : State) (out inp : List Byte) : (s.bracketOk out inp).cfg = s.cfg := by
  simp [State.bracketOk]
@[simp] theorem State.bracketFail_csn (s : State) (out : List Byte) : (s.bracketFail out).csn = some .high := by
  simp [State.bracketFail]
@[simp] theorem State.bracketFail_mirror (s : State) (out : List Byte) : (s.bracketFail out).mirror = s.mirror := by
  simp [State.bracketFail]
@[simp] theorem State.bracketFail_busFault (s : State) (out : List Byte) : (s.bracketFail out).busFault = true := by
  simp [State.bracketFail]
@[simp] theorem State.bracketFail_replies (s : State) (out : List Byte) :
    (s.bracketFail out).replies = s.replies := by simp [State.bracketFail]
@[simp] theorem State.bracketFail_port (s : State) (out : List Byte) : (s.bracketFail out).port = s.port := by
  simp [State.bracketFail]
@[simp] theorem State.bracketFail_cfg (s : State) (out : List Byte) : (s.bracketFail out).cfg = s.cfg := by
  simp [State.bracketFail]

theorem State.bracketOk_bracketed (s : State) (out inp : List Byte) :
    Bracketed s (s.bracketOk out inp) (.xfer out inp) where
  hist := by simp
  csn := by simp
  time := by simp [State.bracketOk]; omega
  device := rfl
  draws := s.bracketOk_draws out inp
  rest := s.bracketOk_same out inp

theorem State.bracketFail_bracketed (s : State) (out : List Byte) :
    Bracketed s (s.bracketFail out) (.xferFail out) where
  hist := by simp
  csn := by simp
  time := by simp [State.bracketFail]; omega
  device := rfl
  draws := s.bracketFail_draws out
  rest := s.bracketFail_same out

theorem SameButBus.trans {s t u : State} (h : SameButBus s t) (g : SameButBus t u) : SameButBus s u := by
  rw [SameButBus] at *
  rw [g, h]

/-- A change that keeps the history, the pin, the time and all but the bus fields does not undo a bracket. -/
theorem Bracketed.of_same {s t u : State} {body : Event} (h : Bracketed s t body) (rest : SameButBus t u)
    (hist : u.hist = t.hist) (csn : u.csn = t.csn) (time : u.now = t.now) (device : u.device = t.device)
    (draws : u.draws = t.draws) : Bracketed s u body where
  hist := hist.trans h.hist
  csn := csn.trans h.csn
  time := time ▸ h.time
  device := device.trans h.device
  draws := draws ▸ h.draws
  rest := h.rest.trans rest

/-- A response after a bracket. -/
theorem Bracketed.respond {s t : State} {body : Event} (h : Bracketed s t body) (hr : t.replies = s.replies)
    (r : Response) : OneBracket s (t.respond r) body r where
  toBracketed := h.of_same rfl rfl rfl rfl rfl rfl
  replies := by
    have : t.port = s.port := by rw [h.rest]
    simp [hr, this]

/-- A write bracket that succeeded, with the mirror. -/
theorem Bracketed.mirror {s t : State} {body : Event} (h : Bracketed s t body) (m : RegFile) :
    Bracketed s { t with mirror := m } body := h.of_same rfl rfl rfl rfl rfl rfl

/-! ## The bytes sent, as the claims write them -/

theorem readBytes_eq (c : Config) (n : RegName) : readBytes c n = readOut c n := rfl

theorem writeBytes_eq (c : Config) (n : RegName) (v : Raw) : writeBytes c n v = writeOut c n v := by
  rw [writeBytes, writeOut, toBytes_eq_map]

/-! ## A field write -/

theorem between_cfg (n : RegName) (s : State) : (between n s).cfg = s.cfg := by
  have h := (interleave_guests (busRead n s).2).rest
  have : (between n s).cfg = (busRead n s).2.cfg := by rw [between, h]
  rcases busRead_cases n s with ⟨inp, -, e⟩ | ⟨-, e⟩ <;> simp [this, e]

/-- The read half of a field write that succeeded. -/
theorem readHalf {n : RegName} {s : State} {inp : List Byte} (h : s.answers (readOut s.cfg n) inp) :
    ReadHalf n s inp := by
  have e := busRead_ok h
  exact
    { bracket := by rw [e]; exact s.bracketOk_bracketed _ _
      mirror := by rw [e]; simp
      busFault := by rw [e]; simp
      replies := by rw [e]; simp
      guests := interleave_guests _
      quiet := fun h => interleave_quiet (by rw [e, s.bracketOk_same]; exact h) }

/-- What a field write does when both transfers succeed (R93). -/
theorem writeField_ok {n : RegName} {f : Field} {v : Raw} {s : State} {inp inp' : List Byte}
    (h : FieldWriteAnswers n f v s inp inp') :
    writeField n f v s = (true, { (between n s).bracketOk (fieldWriteBytes s.cfg n f v inp) inp' with
      mirror := (between n s).mirror.set n (insertField f (assemble inp.tail) v) }) := by
  have e := busRead_ok h.read
  have w := h.write
  rw [fieldWriteBytes, ← between_cfg n s, ← writeBytes_eq] at w ⊢
  unfold writeField
  rw [e]
  have := busWrite_ok w
  rw [between, e] at this ⊢
  exact this

/-- What a field write does when a transfer fails (R93, R192): the state its last bracket left. -/
theorem writeField_fails {n : RegName} {f : Field} {v : Raw} {s : State} {evs : List Event} {d : Device}
    (h : FieldWriteFails n f v s evs d) :
    (s.fails (readOut s.cfg n) ∧ evs = bracketEvents s.cfg [.xferFail (readOut s.cfg n)] ∧
      d = s.deviceAfter (readOut s.cfg n) ∧
      writeField n f v s = (false, s.bracketFail (readOut s.cfg n))) ∨
    (∃ inp, s.answers (readOut s.cfg n) inp ∧
      evs = bracketEvents s.cfg [.xfer (readOut s.cfg n) inp]
        ++ bracketEvents s.cfg [.xferFail (fieldWriteBytes s.cfg n f v inp)] ∧
      d = fieldWriteDevice n f v s inp ∧
      writeField n f v s = (false, (between n s).bracketFail (fieldWriteBytes s.cfg n f v inp))) := by
  cases h with
  | read h => exact .inl ⟨h, rfl, rfl, by unfold writeField; rw [busRead_fail h]; rfl⟩
  | write inp h w =>
    refine .inr ⟨inp, h, rfl, rfl, ?_⟩
    have e := busRead_ok h
    rw [fieldWriteBytes, ← between_cfg n s, ← writeBytes_eq] at w ⊢
    unfold writeField
    rw [e]
    have := busWrite_fail w
    rw [between, e] at this ⊢
    exact this

/-- Whatever the device answers, a field write's two transfers succeed or one of them fails. -/
theorem fieldWrite_cases (n : RegName) (f : Field) (v : Raw) (s : State) :
    (∃ inp inp', FieldWriteAnswers n f v s inp inp') ∨ ∃ evs d, FieldWriteFails n f v s evs d := by
  cases h : (s.select.answer (readOut s.cfg n)).1 with
  | fail => exact .inr ⟨_, _, .read h⟩
  | ok inp =>
    cases w : ((between n s).select.answer (fieldWriteBytes s.cfg n f v inp)).1 with
    | fail => exact .inr ⟨_, _, .write inp h w⟩
    | ok inp' => exact .inl ⟨inp, inp', ⟨h, w⟩⟩

/-! ## What an operation of port H did -/

theorem ownerEvents_append (l m : List Event) : ownerEvents (l ++ m) = ownerEvents l ++ ownerEvents m := by
  simp [ownerEvents]

theorem ownerEvents_decoder {l : List Event} (h : l.all Event.ofDecoder = true) : ownerEvents l = [] := by
  rw [ownerEvents, List.filter_eq_nil_iff]
  intro e he
  simpa using List.all_eq_true.1 h e he

theorem GuestsOnly.ownerEvents_eq {s t : State} (h : GuestsOnly s t) : ownerEvents t.hist = ownerEvents s.hist := by
  obtain ⟨new, e, a⟩ := h.events
  rw [e, ownerEvents_append, ownerEvents_decoder a, List.append_nil]

/-- With no other agent listed to step, these events happened and besides them only what brackets, pin events, waits
and queue steps change. -/
def QuietDoing (s t : State) (done : List Event) : Prop :=
  t = { s with
    mirror := t.mirror, status := t.status, ce := t.ce, csn := t.csn, busFault := t.busFault, pipe := t.pipe
    hist := s.hist ++ done, now := t.now, draws := t.draws, device := t.device }

/-- The part of `OwnerDid` that composes: events and frame, without the response. -/
structure OwnerDoing (s t : State) (done : List Event) : Prop where
  events : ownerEvents t.hist = ownerEvents s.hist ++ done
  replies : t.repliesOn .H = s.repliesOn .H
  time : s.now + waitTotal done ≤ t.now
  rest : SameButBusAndGuests s t
  pipes : PipesSameButTaken s t
  quiet : s.within = [] → QuietDoing s t done

theorem QuietDoing.trans {s t u : State} {l m : List Event} (h : QuietDoing s t l) (g : QuietDoing t u m) :
    QuietDoing s u (l ++ m) := by
  unfold QuietDoing at *
  rw [g, h]
  simp

theorem QuietDoing.within {s t : State} {l : List Event} (h : QuietDoing s t l) : t.within = s.within := by
  rw [h]

theorem PipesSameButTaken.refl {s t : State} (h : t.pipe = s.pipe) : PipesSameButTaken s t :=
  ⟨fun p => by rw [h]; exact .refl _, fun _ => h⟩

theorem SameButBusAndGuests.trans {s t u : State} (h : SameButBusAndGuests s t) (g : SameButBusAndGuests t u) :
    SameButBusAndGuests s u where
  rest := by rw [g.rest, h.rest]
  dec := by
    have hs : t.stop = s.stop := by rw [h.rest]
    rcases g.dec with e | ⟨e, e'⟩
    · rw [e]; exact h.dec
    · exact .inr ⟨hs ▸ e, e'⟩
  decFail := h.decFail.trans g.decFail
  time := h.time.trans g.time

theorem waitTotal_append (l m : List Event) : waitTotal (l ++ m) = waitTotal l + waitTotal m := by
  simp [waitTotal]

theorem OwnerDoing.trans {s t u : State} {l m : List Event} (h : OwnerDoing s t l) (g : OwnerDoing t u m) :
    OwnerDoing s u (l ++ m) where
  events := by rw [g.events, h.events, List.append_assoc]
  replies := g.replies.trans h.replies
  time := by have := h.time; have := g.time; rw [waitTotal_append]; omega
  rest := h.rest.trans g.rest
  pipes :=
    { taken := fun p => (h.pipes.taken p).trans (g.pipes.taken p)
      quiet := fun w => (g.pipes.quiet ((h.quiet w).within.trans w)).trans (h.pipes.quiet w) }
  quiet w := (h.quiet w).trans (g.quiet ((h.quiet w).within.trans w))

theorem OwnerDoing.refl (s : State) : OwnerDoing s s [] where
  events := by simp
  replies := rfl
  time := by simp [waitTotal]
  rest := { rest := rfl, dec := .inl rfl, decFail := le_rfl, time := le_rfl }
  pipes := .refl rfl
  quiet _ := by simp [QuietDoing]

theorem GuestsOnly.doing {s t : State} (h : GuestsOnly s t) (q : s.within = [] → t = s) : OwnerDoing s t [] where
  events := by rw [h.ownerEvents_eq, List.append_nil]
  replies := h.replies
  time := by simpa [waitTotal] using h.time
  rest := { rest := by rw [h.rest], dec := h.dec, decFail := h.decFail, time := h.time }
  pipes := ⟨h.pipes, fun w => by rw [q w]⟩
  quiet w := by rw [q w]; exact (OwnerDoing.refl s).quiet w

theorem interleave_doing (s : State) : OwnerDoing s (interleave s) [] :=
  (interleave_guests s).doing interleave_quiet

theorem ReadHalf.between_doing {n : RegName} {s : State} {inp : List Byte} (h : ReadHalf n s inp) :
    OwnerDoing (busRead n s).2 (between n s) [] :=
  h.guests.doing fun w => h.quiet (by rw [h.bracket.rest] at w; exact w)

/-- A bracket is an owner's doing. -/
theorem Bracketed.doing {s t : State} {body : Event} (h : Bracketed s t body) (hr : t.replies = s.replies)
    (hb : Event.ofDecoder body = false) (hw : waitTotal [body] = 0) :
    OwnerDoing s t (bracketEvents s.cfg [body]) where
  events := by
    rw [h.hist, ownerEvents_append]
    congr 1
    cases body <;> first | rfl | cases hb
  replies := State.repliesOn_congr hr _
  time := by
    have := h.time
    rw [bracketEvents, waitTotal_append, waitTotal_append, hw]
    simp [waitTotal]
    omega
  rest :=
    { rest := by rw [h.rest]
      dec := .inl (by rw [h.rest])
      decFail := by rw [h.rest]
      time := by have := h.time; omega }
  pipes := .refl (by rw [h.rest])
  quiet _ := by
    have e := h.rest
    rw [SameButBus] at e
    rw [QuietDoing]
    have hp : t.pipe = s.pipe := by rw [e]
    have hs : t.status = s.status := by rw [e]
    have hc : t.ce = s.ce := by rw [e]
    conv => lhs; rw [e, h.hist, hr]
    rw [hp, hs, hc]

theorem QuietDoing.respond {s t : State} {l : List Event} (h : QuietDoing s t l) (hp : s.port = .H) (r : Response) :
    t.respond r = { s with
      mirror := t.mirror, status := t.status, ce := t.ce, csn := t.csn, busFault := t.busFault, pipe := t.pipe
      hist := s.hist ++ l, replies := s.replies ++ [(.H, r)], now := t.now, draws := t.draws, device := t.device } := by
  rw [QuietDoing] at h
  conv => lhs; rw [h]
  rw [State.respond, hp]

theorem PipesSameButTaken.respond {s t : State} (h : PipesSameButTaken s t) (r : Response) :
    PipesSameButTaken s (t.respond r) := ⟨h.taken, h.quiet⟩

/-- A response ends it. -/
theorem OwnerDoing.respond {s t : State} {l : List Event} (h : OwnerDoing s t l) (hp : s.port = .H) (r : Response) :
    OwnerDid s (t.respond r) l r where
  events := h.events
  replies := by
    have : t.port = .H := by rw [h.rest.rest]; exact hp
    rw [State.repliesOn_respond, if_pos this, h.replies]
  time := h.time
  rest := { rest := by rw [h.rest.rest]; rfl, dec := h.rest.dec, decFail := h.rest.decFail, time := h.rest.time }
  quiet w := (h.quiet w).respond hp r

/-- A successful field write, as an owner's doing. -/
theorem writeField_doing {n : RegName} {f : Field} {v : Raw} {s : State} {inp inp' : List Byte}
    (h : FieldWriteAnswers n f v s inp inp') :
    OwnerDoing s (writeField n f v s).2 (fieldWriteEvents s.cfg n f v inp inp') ∧ (writeField n f v s).1 = true ∧
      (writeField n f v s).2.mirror = s.mirror.set n (insertField f (assemble inp.tail) v) ∧
      (writeField n f v s).2.csn = some .high ∧ (writeField n f v s).2.busFault = s.busFault ∧
      (writeField n f v s).2.status = s.status ∧ (writeField n f v s).2.ce = s.ce ∧
      (writeField n f v s).2.device = fieldWriteDevice n f v s inp := by
  have R := readHalf h.read
  have b := R.guests.rest
  have r := R.bracket.rest
  rw [writeField_ok h]
  refine ⟨?_, rfl, ?_, ?_, ?_, ?_, ?_, by simp [fieldWriteDevice]⟩
  · refine (R.bracket.doing R.replies rfl rfl).trans ?_
    have g := R.between_doing.trans
      (((between n s).bracketOk_bracketed (fieldWriteBytes s.cfg n f v inp) inp').mirror
        ((between n s).mirror.set n (insertField f (assemble inp.tail) v))|>.doing (by simp) rfl rfl)
    rwa [between_cfg] at g
  · rw [b]; exact congrArg (fun m => RegFile.set m n _) R.mirror
  · simp
  · simp only [State.bracketOk_busFault]; rw [b]; exact R.busFault
  · rw [(between n s).bracketOk_same, b]; rw [r]
  · rw [(between n s).bracketOk_same, b]; rw [r]

/-- A failed field write, as an owner's doing. -/
theorem writeField_failing {n : RegName} {f : Field} {v : Raw} {s : State} {evs : List Event} {d : Device}
    (h : FieldWriteFails n f v s evs d) :
    OwnerDoing s (writeField n f v s).2 evs ∧ (writeField n f v s).1 = false ∧
      (writeField n f v s).2.mirror = s.mirror ∧
      (writeField n f v s).2.csn = some .high ∧ (writeField n f v s).2.busFault = true ∧
      (writeField n f v s).2.status = s.status ∧ (writeField n f v s).2.ce = s.ce ∧
      (writeField n f v s).2.device = d := by
  rcases writeField_fails h with ⟨_, rfl, rfl, e⟩ | ⟨inp, hr, rfl, rfl, e⟩ <;> rw [e]
  · exact ⟨(s.bracketFail_bracketed _).doing (by simp) rfl rfl, rfl, by simp, by simp, by simp,
      by rw [s.bracketFail_same], by rw [s.bracketFail_same], by simp⟩
  · have R := readHalf hr
    have b := R.guests.rest
    have r := R.bracket.rest
    refine ⟨?_, rfl, ?_, by simp, by simp, ?_, ?_, by simp [fieldWriteDevice]⟩
    · refine (R.bracket.doing R.replies rfl rfl).trans ?_
      have g := R.between_doing.trans
        (((between n s).bracketFail_bracketed (fieldWriteBytes s.cfg n f v inp)).doing (by simp) rfl rfl)
      rwa [between_cfg] at g
    · simp only [State.bracketFail_mirror]; rw [b]; exact R.mirror
    · rw [(between n s).bracketFail_same, b]; rw [r]
    · rw [(between n s).bracketFail_same, b]; rw [r]

end Sys2Proof.Machine
end

