-- ==== Sys2Proof/Laws/Encoding.lean ====
section
/-! SUPPORT. A command word and its four fields determine each other (spec/30_encoding.md R66). -/

namespace Sys2Proof

theorem append_toNat {m n : Nat} (x : BitVec m) (y : BitVec n) : (x ++ y).toNat = x.toNat * 2 ^ n + y.toNat := by
  rw [BitVec.toNat_append, ← Nat.shiftLeft_add_eq_or_of_lt y.isLt, Nat.shiftLeft_eq]

theorem CmdWord.mk_toNat (op a b : Byte) (v : Raw) :
    (CmdWord.mk op a b v).toNat = ((op.toNat * 2 ^ 8 + a.toNat) * 2 ^ 8 + b.toNat) * 2 ^ 40 + v.toNat := by
  simp only [CmdWord.mk, append_toNat]

theorem CmdWord.op_toNat (w : CmdWord) : (CmdWord.op w).toNat = w.toNat / 2 ^ 56 % 2 ^ 8 := by
  simp [CmdWord.op, BitVec.extractLsb'_toNat, Nat.shiftRight_eq_div_pow]
theorem CmdWord.a_toNat (w : CmdWord) : (CmdWord.a w).toNat = w.toNat / 2 ^ 48 % 2 ^ 8 := by
  simp [CmdWord.a, BitVec.extractLsb'_toNat, Nat.shiftRight_eq_div_pow]
theorem CmdWord.b_toNat (w : CmdWord) : (CmdWord.b w).toNat = w.toNat / 2 ^ 40 % 2 ^ 8 := by
  simp [CmdWord.b, BitVec.extractLsb'_toNat, Nat.shiftRight_eq_div_pow]
theorem CmdWord.v_toNat (w : CmdWord) : (CmdWord.v w).toNat = w.toNat % 2 ^ 40 := by
  simp [CmdWord.v, BitVec.extractLsb'_toNat]

@[simp] theorem CmdWord.mk_op (op a b : Byte) (v : Raw) : CmdWord.op (CmdWord.mk op a b v) = op := by
  apply BitVec.eq_of_toNat_eq; rw [op_toNat, mk_toNat]; omega
@[simp] theorem CmdWord.mk_a (op a b : Byte) (v : Raw) : CmdWord.a (CmdWord.mk op a b v) = a := by
  apply BitVec.eq_of_toNat_eq; rw [a_toNat, mk_toNat]; omega
@[simp] theorem CmdWord.mk_b (op a b : Byte) (v : Raw) : CmdWord.b (CmdWord.mk op a b v) = b := by
  apply BitVec.eq_of_toNat_eq; rw [b_toNat, mk_toNat]; omega
@[simp] theorem CmdWord.mk_v (op a b : Byte) (v : Raw) : CmdWord.v (CmdWord.mk op a b v) = v := by
  apply BitVec.eq_of_toNat_eq; rw [v_toNat, mk_toNat]; omega

/-- A word is made of its fields. -/
theorem CmdWord.mk_fields (w : CmdWord) :
    CmdWord.mk (CmdWord.op w) (CmdWord.a w) (CmdWord.b w) (CmdWord.v w) = w := by
  apply BitVec.eq_of_toNat_eq; rw [mk_toNat, op_toNat, a_toNat, b_toNat, v_toNat]; omega

/-- Each operation's code names it and no other. -/
theorem Op.ofCode_code (o : Op) : Op.ofCode o.code = some o := by cases o <;> rfl

/-- A code that names an operation is that operation's code. -/
theorem Op.code_of_ofCode {b : Byte} {o : Op} (h : Op.ofCode b = some o) : o.code = b := by
  have := List.find?_some h
  simpa using this

/-- Decoding a word made of an operation's code and fields that are 0 where its row says so (R75). -/
theorem decodeWord_mk (o : Op) (a b : Byte) (v : Raw) (fr : Frame)
    (ha : o.usesA = false → a = 0) (hb : o.usesB = false → b = 0) (hv : o.usesV = false → v = 0) :
    decodeWord (CmdWord.mk o.code a b v) fr = o.build a b v fr := by
  unfold decodeWord
  simp only [CmdWord.mk_op, Op.ofCode_code, CmdWord.mk_a, CmdWord.mk_b, CmdWord.mk_v]
  rw [if_neg]
  cases hA : o.usesA <;> cases hB : o.usesB <;> cases hV : o.usesV <;> simp_all

/-- The fields as numbers are those of the decoder. -/
theorem opOf_eq (w : CmdWord) : Machine.opOf w = (CmdWord.op w).toNat := by
  rw [CmdWord.op_toNat, Machine.opOf]; omega
theorem aOf_eq (w : CmdWord) : Machine.aOf w = (CmdWord.a w).toNat := by rw [CmdWord.a_toNat, Machine.aOf]
theorem bOf_eq (w : CmdWord) : Machine.bOf w = (CmdWord.b w).toNat := by rw [CmdWord.b_toNat, Machine.bOf]
theorem vOf_eq (w : CmdWord) : Machine.vOf w = (CmdWord.v w).toNat := by rw [CmdWord.v_toNat, Machine.vOf]

end Sys2Proof
end

