-- ==== Sys2Proof/Laws/WellFormed.lean ====
section
/-! SUPPORT. What a well-formed configuration says of its registers, fields and roles (spec/10_state.md R16, R17). -/

namespace Sys2Proof

theorem Config.wf_reg {c : Config} (hw : c.wf = true) {d : RegDesc} (h : d ∈ c.table) : d.wf = true := by
  simp only [Config.wf, Config.tableWf, Bool.and_eq_true] at hw
  exact List.all_eq_true.1 hw.1.1.1.1.2 d h

theorem RegDesc.wf_field {d : RegDesc} (hw : d.wf = true) {f : Field} (h : f ∈ d.fields) : f.wf d.width = true := by
  simp only [RegDesc.wf, Bool.and_eq_true] at hw
  exact List.all_eq_true.1 hw.1.2 f h

theorem Field.wf_bound {w : RegWidth} {f : Field} (h : f.wf w = true) : f.off + f.width ≤ 8 * w.bytes := by
  simp only [Field.wf, Bool.and_eq_true, decide_eq_true_eq] at h
  exact h.1.2

theorem RegWidth.bytes_le (w : RegWidth) : w.bytes ≤ 5 := by cases w <;> simp [RegWidth.bytes]

theorem Config.bytesOf_tab {c : Config} {i : Nat} {d : RegDesc} (h : c.table[i]? = some d) :
    c.bytesOf (.tab i) = d.width.bytes := by simp [Config.bytesOf, Config.widthOf, h]

/-- A role that names an existing field. -/
theorem Config.lookup_some {c : Config} {r : FieldRef} {d : RegDesc} {f : Field} (h : c.lookup r = some (d, f)) :
    c.table[r.reg]? = some d ∧ d.fields[r.field]? = some f ∧ c.roleField r = f := by
  have hr : c.roleField r = f := by simp [Config.roleField, h]
  unfold Config.lookup at h
  cases ht : c.table[r.reg]? with
  | none => simp [ht] at h
  | some d' =>
    rw [ht] at h
    simp only [Option.bind_some, Option.map_eq_some_iff, Prod.mk.injEq] at h
    obtain ⟨f', hf, rfl, rfl⟩ := h
    exact ⟨rfl, hf, hr⟩

theorem Config.roleOk_some {c : Config} {r : FieldRef} {p : RegDesc → Field → Bool} (h : c.roleOk r p = true) :
    ∃ d f, c.lookup r = some (d, f) ∧ p d f = true := by
  unfold Config.roleOk at h
  split at h
  · rename_i d f e
    exact ⟨d, f, e, h⟩
  · cases h

/-- The field a role names lies within the role's register. -/
theorem Config.role_bound {c : Config} (hw : c.wf = true) {r : FieldRef} {p : RegDesc → Field → Bool}
    (h : c.roleOk r p = true) :
    (c.roleField r).off + (c.roleField r).width ≤ 8 * c.bytesOf (.tab r.reg) ∧
      ∃ d, p d (c.roleField r) = true := by
  obtain ⟨d, f, hl, hp⟩ := c.roleOk_some h
  obtain ⟨ht, hf, e⟩ := c.lookup_some hl
  rw [e, c.bytesOf_tab ht]
  exact ⟨Field.wf_bound (RegDesc.wf_field (Config.wf_reg hw (List.mem_of_getElem? ht)) (List.mem_of_getElem? hf)),
    d, hp⟩

theorem Config.wf_roles {c : Config} (hw : c.wf = true) : c.roleWf = true := by
  simp only [Config.wf, Bool.and_eq_true] at hw
  exact hw.1.1.2

/-- The fields the machine writes and reads by role: existing, of the stated width (R17). -/
theorem Config.wf_pwrUp {c : Config} (hw : c.wf = true) : c.roleOk c.role.pwrUp (fun _ f => f.isFlag) = true := by
  have := c.wf_roles hw
  simp only [Config.roleWf, Bool.and_eq_true] at this
  exact this.1.1.1.1.1
theorem Config.wf_primRx {c : Config} (hw : c.wf = true) : c.roleOk c.role.primRx (fun _ f => f.isFlag) = true := by
  have := c.wf_roles hw
  simp only [Config.roleWf, Bool.and_eq_true] at this
  exact this.1.1.1.1.2
theorem Config.wf_rfCh {c : Config} (hw : c.wf = true) :
    c.roleOk c.role.rfCh (fun d f => f.access = .rw && d.width = .one && c.rfChMax < 2 ^ f.width) = true := by
  have := c.wf_roles hw
  simp only [Config.roleWf, Bool.and_eq_true] at this
  exact this.1.1.2
theorem Config.wf_pipeNo {c : Config} (hw : c.wf = true) :
    c.roleOk c.role.pipeNo (fun d f => f.width = 3 && d.width = .one) = true := by
  have := c.wf_roles hw
  simp only [Config.roleWf, Bool.and_eq_true] at this
  exact this.1.2
theorem Config.wf_pipe {c : Config} (hw : c.wf = true) (p : PipeNo) :
    c.roleOk c.role.enAA[p] (fun _ f => f.isFlag) = true ∧ c.roleOk c.role.dynPd[p] (fun _ f => f.isFlag) = true ∧
      c.roleOk c.role.enRx[p] (fun _ f => f.isFlag) = true := by
  have := c.wf_roles hw
  simp only [Config.roleWf, Bool.and_eq_true] at this
  have := List.all_eq_true.1 this.2 p (by fin_cases p <;> simp [PipeNo.all])
  simpa [Bool.and_eq_true, and_assoc] using this

/-- A resolved selector names a register of the map, and a field of a register lies within it. -/
theorem resolveReg_mem {c : Config} {a : Byte} {n : RegName} (h : resolveReg c a = some n) : n ∈ c.names := by
  unfold resolveReg at h
  simp only at h
  have hp : ∀ p : PipeNo, p ∈ PipeNo.all := by decide
  split_ifs at h <;> cases h <;> simp [Config.names, hp]
  assumption

theorem resolveField_bound {c : Config} (hw : c.wf = true) {n : RegName} {b : Byte} {f : Field}
    (h : resolveField c n b = some f) : f.off + f.width ≤ 8 * c.bytesOf n := by
  cases n with
  | tab i =>
    unfold resolveField Config.fieldsOf at h
    cases ht : c.table[i]? with
    | none => simp [ht] at h
    | some d =>
      rw [c.bytesOf_tab ht]
      simp only [ht, Option.map_some, Option.getD_some] at h
      exact Field.wf_bound (RegDesc.wf_field (Config.wf_reg hw (List.mem_of_getElem? ht)) (List.mem_of_getElem? h))
  | _ => simp [resolveField, Config.fieldsOf] at h

end Sys2Proof
end

