-- ==== Sys2Proof/Laws/Moves.lean ====
section
/-! SUPPORT. Every operation and every turn is a sequence of small moves (`exec_moves`; for a step see
Laws/Passes.lean), so that a property each move keeps is kept by every step. -/

namespace Sys2Proof.Machine

open Sys2Proof

/-- Is this event a transfer? -/
def Event.isTransfer : Event → Bool
  | .xfer _ _ | .xferFail _ => true
  | .csn _ | .ce _ | .wait _ | .player _ | .decodeFailure _ | .drop _ _ | .close => false

/-- What one move changes. The flag says whether moves of the status and of chip-enable are among them. -/
inductive Move (g : Bool) (s : State) : State → Prop where
  /-- One bracket (R42). -/
  | bracket (body : List Event) (now draws : Nat) (device : Device) :
      (∀ e ∈ body, Event.isTransfer e = true) → s.now ≤ now →
      Move g s { s with
        hist := s.hist ++ bracketEvents s.cfg body
        csn := some .high
        busFault := s.busFault || anyFailure body
        now := now, draws := draws, device := device }
  /-- The mirror takes a value that fits a register (R44). -/
  | mirror (n : RegName) (v : Raw) : (s.cfg.wf = true → v.toNat < 2 ^ (8 * s.cfg.bytesOf n)) →
      Move g s { s with mirror := s.mirror.set n v }
  | wait (d : Nat) : Move g s (s.wait d)
  | ce (l : Level) : g = true → Move g s (s.driveCe l)
  | status (st : Status) : g = true → Move g s (s.setStatus st)
  /-- A configuration copy changes (R141). -/
  | copy (p : PipeNo) (addr : Option Raw) (len : Option Nat) (aa dpl en : Option Bool) :
      (∀ l ∈ len, len = s.pipe[p].len ∨ (1 ≤ l ∧ l ≤ 32)) →
      Move g s (s.setPipe p { s.pipe[p] with
        addr := addr, len := len, autoAck := aa, dynPayload := dpl, enabled := en })
  | enqueue (p : PipeNo) (fr : Frame) : (PipesWithinBounds s → fr.length ≤ 32) → Move g s (enqueue p fr s).2
  | dequeue (p : PipeNo) : Move g s (dequeue p s)
  | player (a : PlayerAction) : Move g s (s.emit (.player a))
  | decodeFailure (fr : Frame) : Move g s (decodeFailure fr s)
  | exit : s.stop = true → Move g s { s with dec := .exited }
  | stop : Move g s s.raiseStop
  | respond (r : Response) : Move g s (s.respond r)
  | release (p : Port) : Move g s (s.release p)
  | holdRecvw (p : Port) (w : Waiting) : (p = .H → LifecycleInv s → s.life = .opened) →
      Move g s (s.holdRecvw p w)
  | holdShutdown (e : Nat) : (LifecycleInv s → s.stop = true ∧ s.life = .opened) → Move g s (s.holdShutdown e)
  | close : (LifecycleInv s → s.stop = true) →
      Move g s { ({ s with dec := .exited, holdH := none } : State).emit .close with life := .closed }
  | time (d : Nat) : Move g s { s with now := s.now + d }
  | cancel (p : Port) (l : Bool) : Move g s (s.driveCancel p l)
  | port (p : Port) : Move g s { s with port := p }
  | inputs (l : List Input) : Move g s { s with inputs := l }
  | within (l : List (List Act)) : Move g s { s with within := l }

/-- A sequence of moves. -/
def Moves (g : Bool) : State → State → Prop := Relation.ReflTransGen (Move g)

namespace Moves

variable {g : Bool} {s t u : State}

theorem refl : Moves g s s := Relation.ReflTransGen.refl
theorem step (h : Moves g s t) (m : Move g t u) : Moves g s u := Relation.ReflTransGen.tail h m
theorem trans (h : Moves g s t) (h' : Moves g t u) : Moves g s u := Relation.ReflTransGen.trans h h'
theorem one (m : Move g s t) : Moves g s t := Relation.ReflTransGen.single m

/-- What every move keeps, a sequence keeps. -/
theorem keeps {P : State → Prop} (hP : ∀ s t, P s → Move g s t → P t) (h : Moves g s t) (hs : P s) : P t := by
  induction h with
  | refl => exact hs
  | tail _ m ih => exact hP _ _ ih m

/-- A reflexive and transitive relation that every move satisfies, a sequence satisfies. -/
theorem relates {R : State → State → Prop} (r : ∀ s, R s s) (tr : ∀ {a b c}, R a b → R b c → R a c)
    (hR : ∀ s t, Move g s t → R s t) (h : Moves g s t) : R s t := by
  induction h with
  | refl => exact r _
  | tail _ m ih => exact tr ih (hR _ _ m)

theorem mono (h : Moves false s t) : Moves g s t := by
  refine keeps (P := Moves g s) (fun a b ih m => ih.step ?_) h refl
  cases m with
  | bracket body now draws device h h' => exact .bracket body now draws device h h'
  | mirror n v h => exact .mirror n v h
  | wait d => exact .wait d
  | ce l h => cases h
  | status st h => cases h
  | copy p a l x y z h => exact .copy p a l x y z h
  | enqueue p fr h => exact .enqueue p fr h
  | dequeue p => exact .dequeue p
  | player a => exact .player a
  | decodeFailure fr => exact .decodeFailure fr
  | exit h => exact .exit h
  | stop => exact .stop
  | respond r => exact .respond r
  | release p => exact .release p
  | holdRecvw p w h => exact .holdRecvw p w h
  | holdShutdown e h => exact .holdShutdown e h
  | close h => exact .close h
  | time d => exact .time d
  | cancel p l => exact .cancel p l
  | port p => exact .port p
  | inputs l => exact .inputs l
  | within l => exact .within l

end Moves

/-! ## Brackets -/

theorem State.bracketOk_moves (g : Bool) (s : State) (out inp : List Byte) : Moves g s (s.bracketOk out inp) := by
  have := Move.bracket (g := g) (s := s) [.xfer out inp] (s.bracketOk out inp).now (s.bracketOk out inp).draws
    (s.bracketOk out inp).device (by simp [Event.isTransfer])
    (by have := (s.bracketOk_bracketed out inp).time; omega)
  refine .one ?_
  convert this using 1
  have e := s.bracketOk_same out inp
  rw [e]
  simp [anyFailure]

theorem State.bracketFail_moves (g : Bool) (s : State) (out : List Byte) : Moves g s (s.bracketFail out) := by
  have := Move.bracket (g := g) (s := s) [.xferFail out] (s.bracketFail out).now (s.bracketFail out).draws
    (s.bracketFail out).device (by simp [Event.isTransfer])
    (by have := (s.bracketFail_bracketed out).time; omega)
  refine .one ?_
  convert this using 1
  have e := s.bracketFail_same out
  rw [e]
  simp [anyFailure]

/-! ## Queue operations and the decoder -/

theorem hasdata_moves (g : Bool) (a : Byte) (s : State) : Moves g s (hasdataEffect a s) := by
  unfold hasdataEffect
  split <;> exact .one (.respond _)

theorem recv_moves (g : Bool) (a : Byte) (s : State) : Moves g s (recvEffect a s) := by
  unfold recvEffect
  split
  · exact .one (.respond _)
  · split
    · exact .one (.respond _)
    · exact (Moves.one (.dequeue _)).step (.respond _)

theorem recvwWait_moves (g : Bool) (w : Waiting) {s : State} (h : s.port = .H → LifecycleInv s → s.life = .opened) :
    Moves g s (recvwWait w s) := by
  unfold recvwWait
  split
  · exact (Moves.one (.release _)).step (.respond _)
  · split
    · exact (Moves.one (.release _)).step (.respond _)
    · exact .one (.holdRecvw _ _ h)

theorem recvwTry_moves (g : Bool) (w : Waiting) {s : State} (h : s.port = .H → LifecycleInv s → s.life = .opened) :
    Moves g s (recvwTry w s) := by
  unfold recvwTry
  split
  · exact ((Moves.one (.dequeue _)).step (.release _)).step (.respond _)
  · exact recvwWait_moves g w h

theorem recvwPoll_moves (g : Bool) (w : Waiting) {s : State} (h : s.port = .H → LifecycleInv s → s.life = .opened) :
    Moves g s (recvwPoll w s) := by
  unfold recvwPoll
  split
  · exact recvwTry_moves g w h
  · exact recvwWait_moves g w h

theorem recvw_moves (g : Bool) (a : Byte) (timeout : Option Raw) {s : State} (h : s.life = .opened) :
    Moves g s (recvwEffect a timeout s) := by
  unfold recvwEffect
  split
  · exact .one (.respond _)
  · exact recvwTry_moves g _ fun _ _ => h

theorem track_moves (g : Bool) (arg : Byte) (s : State) : Moves g s (trackEffect arg s) := by
  unfold trackEffect
  split
  · exact .refl
  · exact .one (.player _)

/-! ## Turns of other agents -/

/-- What a turn of an agent other than the owner comes to, with the operation it runs. -/
theorem fetchDecoder_moves (g : Bool) (s : State) :
    (∃ t, fetchDecoder s = .done t ∧ Moves g s t) ∨
    ∃ i dp, fetchDecoder s = .run i (dequeue dp s) ∧ s.life = .opened ∧
      ((∃ x, i = .volume x) ∨ (∃ x, i = .play x) ∨ (∃ x, i = .track x)) := by
  unfold fetchDecoder
  split
  · exact .inl ⟨_, rfl, .refl⟩
  · rename_i dp _
    split
    · rename_i hr
      split
      · rename_i h
        exact .inl ⟨_, rfl, .one (.exit h)⟩
      · split
        · exact .inl ⟨_, rfl, .refl⟩
        · split
          · rename_i i hd
            exact .inr ⟨i, dp, rfl, hr.2, decodeFrame_ok hd⟩
          · exact .inl ⟨_, rfl, (Moves.one (.dequeue _)).step (.decodeFailure _)⟩
    · exact .inl ⟨_, rfl, .refl⟩

theorem fetchCommand_C_life {word : CmdWord} {s : State} {i : Instr} {t : State}
    (h : fetchCommand .C word [] s = .run i t) : s.life = .opened := by
  unfold fetchCommand at h
  split at h
  · cases h
  · split at h
    · cases h
    · assumption

theorem runAct_moves (g : Bool) (s : State) (a : Act) : Moves g s (runAct s a) := by
  cases a with
  | consumer word =>
    simp only [runAct, fetchAct]
    rcases fetchCommand_C word s with ⟨r, e⟩ | ⟨r, e⟩ | ⟨i, hi, e⟩
    · rw [e]; exact .refl
    · rw [e]; exact (Moves.one (.port .C)).step (.respond r)
    · have hl := fetchCommand_C_life e
      rw [e]
      refine (Moves.one (.port .C)).trans ?_
      cases i <;> try cases hi
      · exact hasdata_moves g _ _
      · exact recv_moves g _ _
      · exact recvw_moves g _ _ hl
  | pollC =>
    simp only [runAct, fetchAct, pollConsumer]
    split
    · exact .refl
    · exact (Moves.one (.port .C)).trans (recvwPoll_moves g _ (by simp))
  | decoder =>
    simp only [runAct, fetchAct]
    rcases fetchDecoder_moves g s with ⟨t, e, h⟩ | ⟨i, dp, e, _, hi⟩
    · rw [e]; exact h
    · rw [e]
      refine (Moves.one (.dequeue dp)).trans ?_
      rcases hi with ⟨x, rfl⟩ | ⟨x, rfl⟩ | ⟨x, rfl⟩
      · exact .one (.player _)
      · exact .one (.player _)
      · exact track_moves g _ _
  | time d => exact .one (.time d)
  | cancel p l => exact .one (.cancel p l)

theorem interleave_moves (g : Bool) (s : State) : Moves g s (interleave s) := by
  unfold interleave
  split
  · exact .refl
  · rename_i acts rest _
    have h : ∀ (l : List Act) (t : State), Moves g s t → Moves g s (l.foldl runAct t) := by
      intro l
      induction l with
      | nil => exact fun t ht => ht
      | cons a l ih => exact fun t ht => ih _ (ht.trans (runAct_moves g t a))
    exact (h acts _ (.one (.within rest))).step (.port _)

/-! ## Bus operations of port H -/

theorem busRead_moves (g : Bool) (n : RegName) (s : State) : Moves g s (busRead n s).2 := by
  rcases busRead_cases n s with ⟨inp, -, e⟩ | ⟨-, e⟩ <;> rw [e]
  · exact s.bracketOk_moves g _ _
  · exact s.bracketFail_moves g _

theorem busWrite_moves (g : Bool) (n : RegName) (v : Raw) (s : State)
    (h : s.cfg.wf = true → v.toNat < 2 ^ (8 * s.cfg.bytesOf n)) : Moves g s (busWrite n v s).2 := by
  rcases busWrite_cases n v s with ⟨inp, -, e⟩ | ⟨-, e⟩ <;> rw [e]
  · have := Move.mirror (g := g) (s := s.bracketOk (writeBytes s.cfg n v) inp) n v (by simpa using h)
    rw [State.bracketOk_mirror] at this
    exact (s.bracketOk_moves g _ _).step this
  · exact s.bracketFail_moves g _

theorem busRead_value {n : RegName} {s : State} {v : Raw} (h : (busRead n s).1 = some v) :
    v.toNat < 2 ^ (8 * s.cfg.bytesOf n) := by
  rcases busRead_cases n s with ⟨inp, hi, e⟩ | ⟨-, e⟩ <;> rw [e] at h
  · cases h
    have hl := State.answer_length hi
    have := assemble_lt inp.tail
    rw [List.length_tail, hl] at this
    simpa [readBytes] using this
  · cases h

theorem bytesOf_le (c : Config) (n : RegName) : 8 * c.bytesOf n ≤ 40 := by
  have := (c.widthOf n).bytes_le
  simp only [Config.bytesOf]
  omega

theorem writeField_moves (g : Bool) (n : RegName) (f : Field) (v : Raw) (s : State)
    (h : s.cfg.wf = true → f.off + f.width ≤ 8 * s.cfg.bytesOf n ∧ v.toNat < 2 ^ f.width) :
    Moves g s (writeField n f v s).2 := by
  unfold writeField
  have hr := busRead_moves g n s
  have hc : (busRead n s).2.cfg = s.cfg := by
    rcases busRead_cases n s with ⟨inp, -, e⟩ | ⟨-, e⟩ <;> simp [e]
  have hc' : (interleave (busRead n s).2).cfg = s.cfg := by rw [(interleave_guests _).rest]; exact hc
  cases hv : (busRead n s).1 with
  | none => exact hr
  | some old =>
    refine (hr.trans (interleave_moves g _)).trans (busWrite_moves g n _ _ ?_)
    rw [hc']
    intro hw
    exact insert_lt (h hw).2 (h hw).1 (bytesOf_le _ _) (busRead_value hv)

/-- A flag role, written with 0 or 1. -/
theorem writeFlag_moves (g : Bool) (r : FieldRef) (v : Raw) (s : State) (hv : v.toNat < 2)
    (h : s.cfg.wf = true → s.cfg.roleOk r (fun _ f => f.isFlag) = true) : Moves g s (writeRole r v s).2 := by
  refine writeField_moves g _ _ _ _ fun hw => ?_
  obtain ⟨hb, d, hf⟩ := s.cfg.role_bound hw (h hw)
  simp only [Field.isFlag, Bool.and_eq_true, decide_eq_true_eq] at hf
  exact ⟨hb, by rw [hf.1]; omega⟩

theorem writeRole_cfg (r : FieldRef) (v : Raw) (s : State) : (writeRole r v s).2.cfg = s.cfg := by
  unfold writeRole
  rcases fieldWrite_cases (.tab r.reg) (s.cfg.roleField r) v s with ⟨inp, inp', h⟩ | ⟨evs, d, h⟩
  · rw [(writeField_doing h).1.rest.rest]
  · rw [(writeField_failing h).1.rest.rest]

/-! ## The transitions -/

theorem edgePU_moves (s : State) : Moves true s (edgePU s).2 := by
  unfold edgePU
  have w := writeFlag_moves true s.cfg.role.pwrUp 1 s (by decide) s.cfg.wf_pwrUp
  simp only
  split
  · exact ((((w.trans (interleave_moves _ _)).step (.ce _ rfl)).trans (interleave_moves _ _)).step (.wait _)).step
      (.status _ rfl)
  · exact w

theorem edgePD_moves (s : State) : Moves true s (edgePD s).2 := by
  unfold edgePD
  have w := writeFlag_moves true s.cfg.role.pwrUp 0 s (by decide) s.cfg.wf_pwrUp
  simp only
  split
  · exact w.step (.status _ rfl)
  · exact w

theorem edgeRX_moves (s : State) : Moves true s (edgeRX s).2 := by
  unfold edgeRX
  have w := writeFlag_moves true s.cfg.role.primRx 1 s (by decide) s.cfg.wf_primRx
  simp only
  split
  · exact ((w.trans (interleave_moves _ _)).step (.ce _ rfl)).step (.status _ rfl)
  · exact w

theorem edgeTX_moves (s : State) : Moves true s (edgeTX s).2 := by
  unfold edgeTX
  have w := writeFlag_moves true s.cfg.role.primRx 0 s (by decide) s.cfg.wf_primRx
  simp only
  split
  · exact ((((w.trans (interleave_moves _ _)).step (.ce _ rfl)).trans (interleave_moves _ _)).step (.wait _)).step
      (.status _ rfl)
  · exact w

theorem edgeSB_moves (s : State) : Moves true s (edgeSB s) :=
  ((((Moves.one (.ce _ rfl)).trans (interleave_moves _ _)).step (.wait _)).step (.status _ rfl))

theorem transition_moves {source target : Status} {edge : State → Bool × State}
    (h : edgeOf source target = some edge) (s : State) : Moves true s (edge s).2 := by
  unfold edgeOf at h
  split at h <;> cases h
  · exact edgePU_moves s
  · exact edgePD_moves s
  · exact edgeRX_moves s
  · exact edgeTX_moves s
  · exact edgeSB_moves s
  · exact edgeSB_moves s
  · exact ((edgeSB_moves s).trans (interleave_moves _ _)).trans (edgePD_moves _)
  · exact ((edgeSB_moves s).trans (interleave_moves _ _)).trans (edgePD_moves _)

theorem goto_moves (target : Status) (s : State) : Moves true s (gotoRun target s).answer := by
  rw [gotoRun_answer]
  split
  · exact .one (.respond _)
  · rename_i edge h
    split
    · exact (transition_moves h s).step (.respond _)
    · exact (transition_moves h s).step (.respond _)

/-! ## Register and pipe operations -/

theorem respondRead_moves {g : Bool} {s : State} {r : Option Raw × State} (h : Moves g s r.2) :
    Moves g s (respondRead r) := by
  unfold respondRead
  split <;> exact h.step (.respond _)

theorem respondWrite_moves {g : Bool} {s : State} {r : Bool × State} (h : Moves g s r.2) :
    Moves g s (respondWrite r) := by
  unfold respondWrite
  split <;> exact h.step (.respond _)

theorem copyIfWritten_moves {g : Bool} {s : State} {r : Bool × State} (h : Moves g s r.2) (p : PipeNo)
    (update : Pipe → Pipe)
    (hu : ∀ q, (update q).q = q.q ∧ (update q).drops = q.drops ∧
      ∀ l ∈ (update q).len, (update q).len = q.len ∨ (1 ≤ l ∧ l ≤ 32)) :
    Moves g s (copyIfWritten p update r).2 := by
  unfold copyIfWritten
  split
  · have e : ∀ q : Pipe, update q = { q with
        addr := (update q).addr, len := (update q).len, autoAck := (update q).autoAck
        dynPayload := (update q).dynPayload, enabled := (update q).enabled } := by
      intro q
      have h1 := (hu q).1
      have h2 := (hu q).2.1
      cases hq : update q
      simp_all
    rw [e]
    exact h.step (.copy p _ _ _ _ _ (hu r.2.pipe[p]).2.2)
  · exact h

theorem onPipe_moves {g : Bool} {a : Byte} {s : State} {k : PipeNo → State} (h : ∀ p, Moves g s (k p)) :
    Moves g s (onPipe a s k) := by
  unfold onPipe
  split
  · exact .one (.respond _)
  · exact h _

theorem psetFlag_moves (g : Bool) (a : Byte) (v : Raw) (role : PipeNo → FieldRef) (update : Bool → Pipe → Pipe)
    (s : State) (hr : s.cfg.wf = true → ∀ p, s.cfg.roleOk (role p) (fun _ f => f.isFlag) = true)
    (hu : ∀ b q, (update b q).q = q.q ∧ (update b q).drops = q.drops ∧ (update b q).len = q.len) :
    Moves g s (psetFlag a v role update s) := by
  refine onPipe_moves fun p => ?_
  split
  · rename_i h
    refine respondWrite_moves (copyIfWritten_moves
      (writeFlag_moves g _ _ s (by simpa [isFlagValue] using h) fun hw => hr hw p) p _ fun q => ?_)
    exact ⟨(hu _ q).1, (hu _ q).2.1, fun l _ => .inl (hu _ q).2.2⟩
  · exact .one (.respond _)

/-! ## DRAIN -/

theorem State.transfer_body {s : State} {out : List Byte} :
    ∃ e, Event.isTransfer e = true ∧ (s.transfer out).2 = { s with
      hist := s.hist ++ [e], busFault := s.busFault || anyFailure [e]
      draws := (s.transfer out).2.draws, device := (s.transfer out).2.device } := by
  rcases s.transfer_cases out with ⟨inp, -, e⟩ | ⟨-, e⟩ <;> rw [e]
  · exact ⟨.xfer out inp, rfl, by simp [State.moved, State.emit, anyFailure]⟩
  · exact ⟨.xferFail out, rfl, by simp [State.moved, State.emit, State.markBusFault, anyFailure]⟩

theorem anyFailure_append (l m : List Event) : anyFailure (l ++ m) = (anyFailure l || anyFailure m) := by
  simp [anyFailure]

/-- The body of the payload read: one or two transfers. -/
theorem popBody_body (s : State) :
    ∃ body : List Event, (∀ e ∈ body, Event.isTransfer e = true) ∧ (popBody s).2 = { s with
      hist := s.hist ++ body, busFault := s.busFault || anyFailure body
      draws := (popBody s).2.draws, device := (popBody s).2.device } := by
  obtain ⟨e, he, h⟩ := s.transfer_body (out := [s.cfg.rxpl])
  have one : ∃ body : List Event, (∀ e ∈ body, Event.isTransfer e = true) ∧ (s.transfer [s.cfg.rxpl]).2 = { s with
      hist := s.hist ++ body, busFault := s.busFault || anyFailure body
      draws := (s.transfer [s.cfg.rxpl]).2.draws, device := (s.transfer [s.cfg.rxpl]).2.device } :=
    ⟨[e], by simpa using he, h⟩
  unfold popBody
  simp only
  split
  · exact one
  · split
    · exact one
    · exact one
    · rename_i p _
      unfold popPayload
      split
      · exact one
      · rename_i len _
        obtain ⟨e', he', h'⟩ := State.transfer_body (s := (s.transfer [s.cfg.rxpl]).2)
          (out := List.replicate len (s.transfer [s.cfg.rxpl]).2.cfg.fill)
        refine ⟨[e, e'], by simp [he, he'], ?_⟩
        have two : ∀ x : PopResult × State,
            x.2 = ((s.transfer [s.cfg.rxpl]).2.transfer
              (List.replicate len (s.transfer [s.cfg.rxpl]).2.cfg.fill)).2 →
            x.2 = { s with
              hist := s.hist ++ [e, e'], busFault := s.busFault || anyFailure [e, e']
              draws := x.2.draws, device := x.2.device } := by
          intro x hx
          rw [hx, h']
          have : anyFailure [e, e'] = (anyFailure [e] || anyFailure [e']) := anyFailure_append [e] [e']
          rw [this, h]
          simp [Bool.or_assoc]
        simp only
        split
        · exact two _ rfl
        · exact two _ rfl

theorem rxPop_moves (g : Bool) (s : State) : Moves g s (rxPop s).2 := by
  obtain ⟨body, hb, h⟩ := popBody_body s.select
  have m := Move.bracket (g := g) (s := s) body (rxPop s).2.now (rxPop s).2.draws (rxPop s).2.device hb
    (by simp only [rxPop]; rw [h]; simp; omega)
  refine .one ?_
  convert m using 1
  simp only [rxPop]
  rw [h]
  simp [State.deselect, State.select, State.driveCsn, State.wait, State.emit, bracketEvents]

/-- A payload that was popped is as long as its pipe's length. -/
theorem rxPop_length {s : State} {p : PipeNo} {bytes : Frame} (h : (rxPop s).1 = .frame p bytes) :
    s.pipe[p].len = some bytes.length := by
  simp only [rxPop, popBody] at h
  split at h
  · cases h
  · split at h
    · cases h
    · cases h
    · unfold popPayload at h
      split at h
      · cases h
      · rename_i q _ _ len hl
        simp only at h
        split at h
        · rename_i bs hb
          cases h
          have hlen : bytes.length = len := by
            rcases State.transfer_cases (s.select.transfer [s.select.cfg.rxpl]).2
              (List.replicate len (s.select.transfer [s.select.cfg.rxpl]).2.cfg.fill) with ⟨inp, hi, e⟩ | ⟨-, e⟩
            · rw [e] at hb
              cases hb
              have := State.answer_length hi
              simpa using this
            · rw [e] at hb; cases hb
          rw [hlen, ← hl]
          obtain ⟨ev, -, ht⟩ := State.transfer_body (s := s.select) (out := [s.select.cfg.rxpl])
          rw [ht]
          simp [State.select]
        · cases h

/-- The pipe records after a payload read and one interleaving point: frames may have been taken, no more. -/
theorem rxPop_pipe (s : State) : (rxPop s).2.pipe = s.pipe ∧ (rxPop s).2.cfg = s.cfg ∧ (rxPop s).2.port = s.port := by
  obtain ⟨body, -, h⟩ := popBody_body s.select
  simp only [rxPop]
  rw [h]
  simp [State.select]

theorem GuestsOnly.len {s t : State} (h : GuestsOnly s t) (p : PipeNo) : t.pipe[p].len = s.pipe[p].len := by
  obtain ⟨k, e⟩ := h.pipes p
  rw [e]

theorem drainLoop_moves (g : Bool) : ∀ (k n : Nat) (s : State), Moves g s (drainLoop k n s).2
  | 0, _, _ => .refl
  | k + 1, n, s => by
    have hp := rxPop_moves g s
    simp only [drainLoop]
    split
    · exact hp
    · exact hp
    · exact hp
    · exact hp
    · rename_i p bytes h
      refine (((hp.trans (interleave_moves g _)).step (.enqueue p bytes fun hw => ?_)).trans
        (interleave_moves g _)).trans (drainLoop_moves g k (n + 1) _)
      have hl : (interleave (rxPop s).2).pipe[p].len = some bytes.length := by
        rw [(interleave_guests _).len, (rxPop_pipe s).1]
        exact rxPop_length h
      exact ((hw p).2.2 _ hl).2

/-! ## All operations and all turns -/

/-- Is the instruction a GOTO? -/
def Instr.isGoto : Instr → Bool
  | .goto _ => true
  | .get _ | .set _ _ | .getf _ _ | .setf _ _ _ | .getch | .setch _ | .state
  | .psetaddr _ _ | .psetlen _ _ | .psetaa _ _ | .psetdpl _ _ | .pseten _ _
  | .pgetaddr _ | .pgetlen _ | .pgetaa _ | .pgetdpl _ | .pgeten _
  | .enq _ _ | .hasdata _ | .recv _ | .recvw _ _ | .drain _ | .dstop | .shutdown
  | .volume _ | .play _ | .track _ => false

theorem shutdown_moves (g : Bool) (e : Nat) {s : State} (h : LifecycleInv s → s.stop = true ∧ s.life = .opened) :
    Moves g s (shutdownTry e s) := by
  unfold shutdownTry
  split
  · exact (Moves.one (.close fun i => (h i).1)).step (.respond (.okay 0))
  · exact .one (.holdShutdown _ h)

/-- What holds on port H holds while RFB is open. -/
theorem LifecycleInv.open_of_hold {s : State} (h : LifecycleInv s) (hh : s.holdH ≠ none) : s.life = .opened := by
  cases hl : s.life with
  | opened => rfl
  | closed => exact absurd (h.closedPort hl) hh

/-- Every operation, executed while RFB is open, is a sequence of moves; only GOTO's move the status and
chip-enable. -/
theorem exec_moves {i : Instr} (hi : i.wf = true) {s : State} (ho : s.life = .opened) :
    ∃ t, exec i s = .next t ∧ Moves (Instr.isGoto i) s t := by
  cases i with
  | get a =>
    refine ⟨_, rfl, ?_⟩
    rw [getRun_answer]
    split
    · exact .one (.respond _)
    · exact respondRead_moves (busRead_moves _ _ _)
  | set a v =>
    refine ⟨_, rfl, ?_⟩
    rw [setRun_answer]
    split
    · exact .one (.respond _)
    · split
      · rename_i h
        exact respondWrite_moves (busWrite_moves _ _ _ _ fun _ => by simpa [fitsReg] using h)
      · exact .one (.respond _)
  | getf a b =>
    refine ⟨_, rfl, ?_⟩
    rw [getfRun_answer]
    split
    · exact .one (.respond _)
    · split
      · exact .one (.respond _)
      · exact respondRead_moves (busRead_moves _ _ _)
  | setf a b v =>
    refine ⟨_, rfl, ?_⟩
    rw [setfRun_answer]
    split
    · exact .one (.respond _)
    · split
      · exact .one (.respond _)
      · rename_i f hf
        split
        · exact .one (.respond _)
        · split
          · rename_i h
            exact respondWrite_moves (writeField_moves _ _ _ _ _ fun hw =>
              ⟨resolveField_bound hw hf, by simpa [fitsField] using h⟩)
          · exact .one (.respond _)
  | getch => exact ⟨_, congrArg Host.Outcome.next (getchRun_answer s), respondRead_moves (busRead_moves _ _ _)⟩
  | setch v =>
    refine ⟨_, rfl, ?_⟩
    rw [setchRun_answer]
    split
    · exact .one (.respond _)
    · rename_i h
      refine respondWrite_moves (writeField_moves _ _ _ _ _ fun hw => ?_)
      obtain ⟨hb, d, hf⟩ := s.cfg.role_bound hw (s.cfg.wf_rfCh hw)
      simp only [Bool.and_eq_true, decide_eq_true_eq] at hf
      exact ⟨hb, by omega⟩
  | goto target => exact ⟨_, rfl, goto_moves target s⟩
  | state => exact ⟨_, rfl, .one (.respond _)⟩
  | psetaddr a v =>
    refine ⟨_, congrArg Host.Outcome.next (psetaddrRun_answer a v s),
      onPipe_moves fun p => respondWrite_moves (copyIfWritten_moves (busWrite_moves _ _ _ _ fun _ => ?_) p _
      fun q => ⟨rfl, rfl, fun _ _ => .inl rfl⟩)⟩
    exact v.isLt
  | psetlen a v =>
    refine ⟨_, congrArg Host.Outcome.next (psetlenRun_answer a v s), onPipe_moves fun p => ?_⟩
    split
    · rename_i h
      have h : 1 ≤ v.toNat ∧ v.toNat ≤ 32 := by
        simp only [isLength, Bool.and_eq_true] at h
        exact ⟨of_decide_eq_true h.1, of_decide_eq_true h.2⟩
      refine respondWrite_moves (copyIfWritten_moves (busWrite_moves _ _ _ _ fun _ => ?_) p _
        fun q => ⟨rfl, rfl, fun l hl => .inr ?_⟩)
      · have : s.cfg.bytesOf (.rxPw p) = 1 := rfl
        rw [this]
        omega
      · cases hl; exact h
    · exact .one (.respond _)
  | psetaa a v =>
    exact ⟨_, congrArg Host.Outcome.next (psetaaRun_answer a v s),
      psetFlag_moves _ _ _ _ _ _ (fun hw p => (s.cfg.wf_pipe hw p).1) fun _ _ => ⟨rfl, rfl, rfl⟩⟩
  | psetdpl a v =>
    exact ⟨_, congrArg Host.Outcome.next (psetdplRun_answer a v s),
      psetFlag_moves _ _ _ _ _ _ (fun hw p => (s.cfg.wf_pipe hw p).2.1) fun _ _ => ⟨rfl, rfl, rfl⟩⟩
  | pseten a v =>
    exact ⟨_, congrArg Host.Outcome.next (psetenRun_answer a v s),
      psetFlag_moves _ _ _ _ _ _ (fun hw p => (s.cfg.wf_pipe hw p).2.2) fun _ _ => ⟨rfl, rfl, rfl⟩⟩
  | pgetaddr a =>
    exact ⟨_, congrArg Host.Outcome.next (pgetaddrRun_answer a s),
      onPipe_moves fun _ => respondRead_moves (busRead_moves _ _ _)⟩
  | pgetlen a =>
    exact ⟨_, congrArg Host.Outcome.next (pgetlenRun_answer a s),
      onPipe_moves fun _ => respondRead_moves (busRead_moves _ _ _)⟩
  | pgetaa a =>
    exact ⟨_, congrArg Host.Outcome.next (pgetaaRun_answer a s),
      onPipe_moves fun _ => respondRead_moves (busRead_moves _ _ _)⟩
  | pgetdpl a =>
    exact ⟨_, congrArg Host.Outcome.next (pgetdplRun_answer a s),
      onPipe_moves fun _ => respondRead_moves (busRead_moves _ _ _)⟩
  | pgeten a =>
    exact ⟨_, congrArg Host.Outcome.next (pgetenRun_answer a s),
      onPipe_moves fun _ => respondRead_moves (busRead_moves _ _ _)⟩
  | enq a fr =>
    refine ⟨_, rfl, ?_⟩
    unfold enqEffect
    split
    · exact .one (.respond _)
    · exact (Moves.one (.enqueue _ _ fun _ => by simpa [Instr.wf] using hi)).step (.respond _)
  | hasdata a => exact ⟨_, rfl, hasdata_moves _ _ _⟩
  | recv a => exact ⟨_, rfl, recv_moves _ _ _⟩
  | recvw a timeout => exact ⟨_, rfl, recvw_moves _ _ _ ho⟩
  | drain b =>
    refine ⟨_, rfl, ?_⟩
    rw [drainRun_answer]
    split
    · exact (drainLoop_moves _ _ _ _).step (.respond _)
    all_goals exact .one (.respond _)
  | dstop => exact ⟨_, rfl, (Moves.one .stop).step (.respond _)⟩
  | shutdown => exact ⟨_, rfl, (Moves.one .stop).trans (shutdown_moves _ _ fun _ => ⟨rfl, ho⟩)⟩
  | volume arg => exact ⟨_, rfl, .one (.player _)⟩
  | play arg => exact ⟨_, rfl, .one (.player _)⟩
  | track arg => exact ⟨_, rfl, track_moves _ _ _⟩

/-- An ENQ that decodes carries a frame of at most 32 bytes (R74). -/
theorem decodeWord_wf {w : CmdWord} {fr : Frame} {i : Instr} (h : decodeWord w fr = .ok i) : i.wf = true := by
  unfold decodeWord at h
  split at h
  · cases h
  split at h
  · cases h
  rename_i o _ _
  cases o <;> simp only [Op.build] at h
  case goto => split at h <;> cases h; rfl
  case enq =>
    split at h
    · cases h
    · split at h
      · cases h
      · cases h
        simp [Instr.wf]
        omega
  case recvw =>
    split at h
    · cases h; rfl
    · split at h
      · cases h
      · split at h <;> cases h; rfl
  all_goals cases h; rfl

/-- What a command word comes to. -/
theorem fetchCommand_cases (p : Port) (word : CmdWord) (fr : Frame) (s : State) :
    (s.busy p = true ∧ fetchCommand p word fr s = .refuse (.portBusy p)) ∨
    (s.busy p = false ∧ ∃ r, fetchCommand p word fr s = .done (({ s with port := p } : State).respond r)) ∨
    (s.busy p = false ∧ s.life = .opened ∧ ∃ i, decodeWord word fr = .ok i ∧
      fetchCommand p word fr s = .run i { s with port := p }) := by
  unfold fetchCommand
  split
  · rename_i h
    exact .inl ⟨h, rfl⟩
  · rename_i h
    simp only [Bool.not_eq_true] at h
    split
    · exact .inr (.inl ⟨h, _, rfl⟩)
    · rename_i ho
      split
      · exact .inr (.inl ⟨h, _, rfl⟩)
      · rename_i i hd
        split
        · exact .inr (.inl ⟨h, _, rfl⟩)
        · exact .inr (.inr ⟨h, ho, i, hd, rfl⟩)

end Sys2Proof.Machine
end

