-- ==== Sys2Proof/Laws/Copies.lean ====
section
/-! SUPPORT. No operation reads the mirror, nor the copies of the address and of the three flags: from two states
that differ only there, each does the same (spec/10_state.md R19; spec/42_rxpipeset.md R142). -/

namespace Sys2Proof.Machine

open Sys2Proof

/-- Two states that differ at most in what no rule reads (R19, R142). -/
structure Alike (s t : State) : Prop where
  rest : t = { s with mirror := t.mirror, pipe := t.pipe }
  pipes : ∀ p : PipeNo, t.pipe[p].forget = s.pipe[p].forget

theorem alike_of_forget {s t : State} (h : s.forget = t.forget) : Alike s t := by
  have hp : ∀ p : PipeNo, t.pipe[p].forget = s.pipe[p].forget := by
    intro p
    have := congrArg (fun u : State => u.pipe[p]) h
    simpa [State.forget] using this.symm
  refine ⟨?_, hp⟩
  cases s; cases t
  simp only [State.forget, State.mk.injEq] at h ⊢
  simp_all

theorem Alike.forget {s t : State} (h : Alike s t) : s.forget = t.forget := by
  have e : t.pipe.map Pipe.forget = s.pipe.map Pipe.forget := by
    ext i hi
    simpa using h.pipes ⟨i, hi⟩
  have r := h.rest
  cases s; cases t
  simp only [State.forget, State.mk.injEq] at r ⊢
  simp_all

theorem Alike.q {s t : State} (h : Alike s t) (p : PipeNo) : t.pipe[p].q = s.pipe[p].q :=
  by simpa [Pipe.forget] using congrArg Pipe.q (a₁ := Pipe.forget _) (h.pipes p)
theorem Alike.len {s t : State} (h : Alike s t) (p : PipeNo) : t.pipe[p].len = s.pipe[p].len :=
  by simpa [Pipe.forget] using congrArg Pipe.len (a₁ := Pipe.forget _) (h.pipes p)
theorem Alike.refl (s : State) : Alike s s := ⟨rfl, fun _ => rfl⟩

/-- An update that keeps the mirror and the pipes, and reads neither. -/
theorem Alike.map {s t : State} (h : Alike s t) (f : State → State)
    (hf : ∀ u m P, f { u with mirror := m, pipe := P } = { f u with mirror := m, pipe := P })
    (hp : ∀ u, (f u).pipe = u.pipe) : Alike (f s) (f t) := by
  have e := h.rest
  refine ⟨?_, fun p => by rw [hp, hp]; exact h.pipes p⟩
  have e2 : f t = { f s with mirror := t.mirror, pipe := t.pipe } := by
    conv => lhs; rw [e]
    exact hf _ _ _
  rw [e2]

theorem Alike.setMirror {s t : State} (h : Alike s t) (m m' : RegFile) :
    Alike { s with mirror := m } { t with mirror := m' } :=
  ⟨by rw [h.rest], h.pipes⟩

theorem Alike.setPipe {s t : State} (h : Alike s t) (p : PipeNo) {r r' : Pipe} (hr : r'.forget = r.forget) :
    Alike (s.setPipe p r) (t.setPipe p r') := by
  refine ⟨by rw [h.rest]; rfl, fun q => ?_⟩
  by_cases hq : p = q
  · subst hq; rw [State.setPipe_get, State.setPipe_get]; exact hr
  · rw [State.setPipe_get_ne hq, State.setPipe_get_ne hq]; exact h.pipes q

theorem Alike.transfer {s t : State} (h : Alike s t) (out : List Byte) :
    (t.transfer out).1 = (s.transfer out).1 ∧ Alike (s.transfer out).2 (t.transfer out).2 := by
  have ha : t.answer out = s.answer out := by rw [h.rest]; rfl
  unfold State.transfer
  rw [ha]
  cases (s.answer out).1 with
  | ok inp => exact ⟨rfl, h.map (fun u => (u.emit (.xfer out inp)).moved _) (fun _ _ _ => rfl) fun _ => rfl⟩
  | fail => exact ⟨rfl, h.map (fun u => (u.emit (.xferFail out)).markBusFault.moved _) (fun _ _ _ => rfl) fun _ => rfl⟩

theorem Alike.select {s t : State} (h : Alike s t) : Alike s.select t.select :=
  h.map State.select (fun _ _ _ => rfl) fun _ => rfl
theorem Alike.deselect {s t : State} (h : Alike s t) : Alike s.deselect t.deselect :=
  h.map State.deselect (fun _ _ _ => rfl) fun _ => rfl
theorem Alike.respond {s t : State} (h : Alike s t) (r : Response) : Alike (s.respond r) (t.respond r) :=
  h.map (State.respond r) (fun _ _ _ => rfl) fun _ => rfl
theorem Alike.raise {s t : State} (h : Alike s t) (c : Code) : Alike (s.raise c) (t.raise c) := h.respond _
theorem Alike.emit {s t : State} (h : Alike s t) (e : Event) : Alike (s.emit e) (t.emit e) :=
  h.map (State.emit e) (fun _ _ _ => rfl) fun _ => rfl
theorem Alike.wait {s t : State} (h : Alike s t) (d : Nat) : Alike (s.wait d) (t.wait d) :=
  h.map (State.wait d) (fun _ _ _ => rfl) fun _ => rfl
theorem Alike.driveCe {s t : State} (h : Alike s t) (l : Level) : Alike (s.driveCe l) (t.driveCe l) :=
  h.map (State.driveCe l) (fun _ _ _ => rfl) fun _ => rfl
theorem Alike.setStatus {s t : State} (h : Alike s t) (x : Status) : Alike (s.setStatus x) (t.setStatus x) :=
  h.map (State.setStatus x) (fun _ _ _ => rfl) fun _ => rfl
theorem Alike.cfg {s t : State} (h : Alike s t) : t.cfg = s.cfg := by rw [h.rest]

theorem Alike.bracket {s t : State} (h : Alike s t) (out : List Byte) :
    (t.bracket out).1 = (s.bracket out).1 ∧ Alike (s.bracket out).2 (t.bracket out).2 := by
  have := h.select.transfer out
  exact ⟨this.1, this.2.deselect⟩

theorem Alike.busRead {s t : State} (h : Alike s t) (n : RegName) :
    (Machine.busRead n t).1 = (Machine.busRead n s).1 ∧ Alike (Machine.busRead n s).2 (Machine.busRead n t).2 := by
  have := h.bracket (readBytes s.cfg n)
  simp only [Machine.busRead, h.cfg]
  exact ⟨by rw [this.1], this.2⟩

theorem Alike.busWrite {s t : State} (h : Alike s t) (n : RegName) (v : Raw) :
    (Machine.busWrite n v t).1 = (Machine.busWrite n v s).1 ∧ Alike (Machine.busWrite n v s).2 (Machine.busWrite n v t).2 := by
  have := h.bracket (writeBytes s.cfg n v)
  simp only [Machine.busWrite, h.cfg, this.1]
  split
  · exact ⟨rfl, this.2.setMirror _ _⟩
  · exact ⟨rfl, this.2⟩

theorem Alike.dequeue {s t : State} (h : Alike s t) (p : PipeNo) : Alike (Machine.dequeue p s) (Machine.dequeue p t) := by
  refine h.setPipe p ?_
  have e := h.pipes p
  simp only [Pipe.forget, Pipe.mk.injEq] at e ⊢
  simp_all

theorem Alike.enqueue {s t : State} (h : Alike s t) (p : PipeNo) (fr : Frame) :
    (Machine.enqueue p fr t).1 = (Machine.enqueue p fr s).1 ∧ Alike (Machine.enqueue p fr s).2 (Machine.enqueue p fr t).2 := by
  have hr : t.hasRoom p = s.hasRoom p := by simp only [State.hasRoom, h.q p, h.cfg]
  unfold Machine.enqueue
  rw [hr]
  have e := h.pipes p
  split
  · refine ⟨rfl, h.setPipe p ?_⟩
    simp only [Pipe.forget, Pipe.mk.injEq] at e ⊢
    simp_all
  · refine ⟨rfl, (h.setPipe p ?_).emit _⟩
    simp only [Pipe.forget, Pipe.mk.injEq, Pipe.countDrop] at e ⊢
    simp_all

theorem Alike.rxPop {s t : State} (h : Alike s t) :
    (Machine.rxPop t).1 = (Machine.rxPop s).1 ∧ Alike (Machine.rxPop s).2 (Machine.rxPop t).2 := by
  have key : ∀ {s t : State}, Alike s t → (popBody t).1 = (popBody s).1 ∧ Alike (popBody s).2 (popBody t).2 := by
    intro s t h
    have a := h.transfer [s.cfg.rxpl]
    simp only [popBody, h.cfg, a.1]
    split
    · exact ⟨rfl, a.2⟩
    · split
      · exact ⟨rfl, a.2⟩
      · exact ⟨rfl, a.2⟩
      · rename_i p _
        have hl := a.2.len p
        unfold popPayload
        rw [hl]
        cases (s.transfer [s.cfg.rxpl]).2.pipe[p].len with
        | none => exact ⟨rfl, a.2⟩
        | some len =>
          have b := a.2.transfer (List.replicate len (s.transfer [s.cfg.rxpl]).2.cfg.fill)
          simp only [a.2.cfg, b.1]
          cases ((s.transfer [s.cfg.rxpl]).2.transfer
            (List.replicate len (s.transfer [s.cfg.rxpl]).2.cfg.fill)).1 with
          | some bytes => exact ⟨rfl, b.2⟩
          | none => exact ⟨rfl, b.2⟩
  have := key h.select
  exact ⟨this.1, this.2.deselect⟩

theorem Alike.setPort {s t : State} (h : Alike s t) {p p' : Port} (e : p' = p) :
    Alike { s with port := p } { t with port := p' } :=
  e ▸ h.map (fun u => { u with port := p' }) (fun _ _ _ => rfl) fun _ => rfl

theorem Alike.release {s t : State} (h : Alike s t) (p : Port) : Alike (s.release p) (t.release p) :=
  h.map (State.release p) (fun _ _ _ => by cases p <;> rfl) fun _ => by cases p <;> rfl

theorem Alike.holdRecvw {s t : State} (h : Alike s t) (p : Port) (w : Waiting) :
    Alike (s.holdRecvw p w) (t.holdRecvw p w) :=
  h.map (State.holdRecvw p w) (fun _ _ _ => by cases p <;> rfl) fun _ => by cases p <;> rfl

theorem Alike.recvwWait {s t : State} (h : Alike s t) (w : Waiting) :
    Alike (Machine.recvwWait w s) (Machine.recvwWait w t) := by
  have e1 : t.port = s.port := by rw [h.rest]
  have e2 : t.cancel s.port = s.cancel s.port := by rw [h.rest]; cases s.port <;> rfl
  have e3 : t.expired w.expiry = s.expired w.expiry := by rw [h.rest]; rfl
  unfold Machine.recvwWait
  rw [e1, e2, e3]
  split
  · exact (h.release _).raise _
  · split
    · exact (h.release _).raise _
    · exact h.holdRecvw _ _

theorem Alike.recvwTry {s t : State} (h : Alike s t) (w : Waiting) :
    Alike (Machine.recvwTry w s) (Machine.recvwTry w t) := by
  have e1 : t.port = s.port := by rw [h.rest]
  unfold Machine.recvwTry
  rw [h.q, e1]
  cases s.pipe[w.pipe].q with
  | cons fr l => exact ((h.dequeue _).release _).respond _
  | nil => exact h.recvwWait w

theorem Alike.recvwPoll {s t : State} (h : Alike s t) (w : Waiting) :
    Alike (Machine.recvwPoll w s) (Machine.recvwPoll w t) := by
  have e1 : t.life = s.life := by rw [h.rest]
  unfold Machine.recvwPoll
  rw [e1]
  split
  · exact h.recvwTry w
  · exact h.recvwWait w

/-- The same turn, on states alike. -/
inductive AlikeTurn : Fetch → Fetch → Prop where
  | run (i : Instr) {s t : State} (h : Alike s t) : AlikeTurn (.run i s) (.run i t)
  | done {s t : State} (h : Alike s t) : AlikeTurn (.done s) (.done t)
  | refuse (r : Refusal) : AlikeTurn (.refuse r) (.refuse r)

theorem Alike.fetchCommand {s t : State} (h : Alike s t) (p : Port) (word : CmdWord) (fr : Frame) :
    AlikeTurn (Machine.fetchCommand p word fr s) (Machine.fetchCommand p word fr t) := by
  have e1 : t.busy p = s.busy p := by rw [h.rest]; cases p <;> rfl
  have e2 : t.life = s.life := by rw [h.rest]
  have a := h.setPort (rfl : p = p)
  unfold Machine.fetchCommand
  generalize ({ s with port := p } : State) = s' at a ⊢
  generalize ({ t with port := p } : State) = t' at a ⊢
  rw [e1, e2]
  split
  · exact .refuse _
  · cases s.life with
    | closed => exact .done (a.raise _)
    | opened =>
      cases decodeWord word fr with
      | error _ => exact .done (a.raise _)
      | ok i =>
        simp only
        split
        · exact .done (a.raise _)
        · exact .run _ a

theorem Alike.fetchDecoder {s t : State} (h : Alike s t) :
    AlikeTurn (Machine.fetchDecoder s) (Machine.fetchDecoder t) := by
  have e1 : t.dec = s.dec := by rw [h.rest]
  have e2 : t.life = s.life := by rw [h.rest]
  have e3 : t.stop = s.stop := by rw [h.rest]
  have a : Alike { s with dec := .exited } { t with dec := .exited } :=
    h.map (fun u => { u with dec := .exited }) (fun _ _ _ => rfl) fun _ => rfl
  unfold Machine.fetchDecoder
  generalize ({ s with dec := .exited } : State) = s' at a ⊢
  generalize ({ t with dec := .exited } : State) = t' at a ⊢
  rw [e1, e2, e3, h.cfg]
  cases s.cfg.decPipe with
  | none => exact .done h
  | some dp =>
    simp only [h.q dp]
    split
    · split
      · exact .done a
      · cases s.pipe[dp].q with
        | nil => exact .done h
        | cons fr l =>
          simp only
          cases decodeFrame fr with
          | ok i => exact .run _ (h.dequeue dp)
          | error _ => exact .done ((h.dequeue dp).map (decodeFailure _) (fun _ _ _ => rfl) fun _ => rfl)
    · exact .done h

theorem Alike.fetchAct {s t : State} (h : Alike s t) (a : Act) : AlikeTurn (Machine.fetchAct a s) (Machine.fetchAct a t) := by
  cases a with
  | consumer word => exact h.fetchCommand .C word []
  | pollC =>
    have e : t.holdC = s.holdC := by rw [h.rest]
    refine .done ?_
    have a := h.setPort (rfl : Port.C = .C)
    unfold pollConsumer
    generalize ({ s with port := .C } : State) = s' at a ⊢
    generalize ({ t with port := .C } : State) = t' at a ⊢
    rw [e]
    cases s.holdC with
    | none => exact h
    | some w => exact a.recvwPoll _
  | decoder => exact h.fetchDecoder
  | time d => exact .done (h.map (fun u => { u with now := u.now + d }) (fun _ _ _ => rfl) fun _ => rfl)
  | cancel p l => exact .done (h.map (State.driveCancel p l) (fun _ _ _ => by cases p <;> rfl) fun _ => by cases p <;> rfl)

theorem Alike.recv {s t : State} (h : Alike s t) (a : Byte) : Alike (recvEffect a s) (recvEffect a t) := by
  unfold recvEffect
  split
  · exact h.raise _
  · rename_i p _
    rw [h.q]
    cases s.pipe[p].q with
    | nil => exact h.raise _
    | cons fr l => exact (h.dequeue _).respond _

theorem Alike.hasdata {s t : State} (h : Alike s t) (a : Byte) : Alike (hasdataEffect a s) (hasdataEffect a t) := by
  unfold hasdataEffect
  split
  · exact h.raise _
  · rw [h.q]; exact h.respond _

theorem Alike.recvw {s t : State} (h : Alike s t) (a : Byte) (timeout : Option Raw) :
    Alike (recvwEffect a timeout s) (recvwEffect a timeout t) := by
  have e : t.expiryOf timeout = s.expiryOf timeout := by rw [h.rest]; rfl
  unfold recvwEffect
  split
  · exact h.raise _
  · rw [e]; exact h.recvwTry _

theorem Alike.track {s t : State} (h : Alike s t) (arg : Byte) : Alike (trackEffect arg s) (trackEffect arg t) := by
  unfold trackEffect
  split
  · exact h
  · exact h.emit _

theorem Alike.runAct {s t : State} (h : Alike s t) (a : Act) : Alike (Machine.runAct s a) (Machine.runAct t a) := by
  have f := h.fetchAct a
  unfold Machine.runAct
  generalize Machine.fetchAct a s = x at f
  generalize Machine.fetchAct a t = y at f
  cases f with
  | run i hi =>
    cases i with
    | hasdata a => exact hi.hasdata a
    | recv a => exact hi.recv a
    | recvw a timeout => exact hi.recvw a timeout
    | volume arg => exact hi.emit _
    | play arg => exact hi.emit _
    | track arg => exact hi.track arg
    | _ => exact hi
  | done hd => exact hd
  | refuse r => exact h

theorem Alike.interleave {s t : State} (h : Alike s t) : Alike (Machine.interleave s) (Machine.interleave t) := by
  have e1 : t.within = s.within := by rw [h.rest]
  have e2 : t.port = s.port := by rw [h.rest]
  have acts : ∀ (l : List Act) {s t : State}, Alike s t → Alike (l.foldl Machine.runAct s) (l.foldl Machine.runAct t) := by
    intro l
    induction l with
    | nil => exact fun h => h
    | cons a l ih => exact fun h => ih (h.runAct a)
  unfold Machine.interleave
  rw [e1]
  cases s.within with
  | nil => exact h
  | cons as rest =>
    exact (acts as (h.map (fun u => { u with within := rest }) (fun _ _ _ => rfl) fun _ => rfl)).setPort e2

theorem Alike.writeField {s t : State} (h : Alike s t) (n : RegName) (f : Field) (v : Raw) :
    (Machine.writeField n f v t).1 = (Machine.writeField n f v s).1 ∧
      Alike (Machine.writeField n f v s).2 (Machine.writeField n f v t).2 := by
  have r := h.busRead n
  unfold Machine.writeField
  rw [r.1]
  split
  · exact ⟨rfl, r.2⟩
  · exact r.2.interleave.busWrite n _

theorem Alike.drainLoop (k : Nat) : ∀ (n : Nat) {s t : State}, Alike s t →
    (Machine.drainLoop k n t).1 = (Machine.drainLoop k n s).1 ∧
      Alike (Machine.drainLoop k n s).2 (Machine.drainLoop k n t).2 := by
  induction k with
  | zero => exact fun _ _ _ h => ⟨rfl, h⟩
  | succ k ih =>
    intro n s t h
    have r := h.rxPop
    simp only [Machine.drainLoop, r.1]
    split
    · exact ⟨rfl, r.2⟩
    · exact ⟨rfl, r.2⟩
    · exact ⟨rfl, r.2⟩
    · exact ⟨rfl, r.2⟩
    · exact ih _ (r.2.interleave.enqueue _ _).2.interleave

/-! ## Runs -/

/-- Two runs that differ only where no rule reads: at each point and at the end. -/
inductive AlikeRun {α : Type} : Run α → Run α → Prop where
  | done (a : α) {s t : State} : Alike s t → AlikeRun (.done a s) (.done a t)
  | point {s t : State} {f g : State → Run α} : Alike s t → (∀ u v, Alike u v → AlikeRun (f u) (g v)) →
      AlikeRun (.point s f) (.point t g)

theorem AlikeRun.passes {α : Type} {r r' : Run α} (h : AlikeRun r r') : List.Forall₂ Alike r.passes r'.passes := by
  induction h with
  | done a h => exact .cons h .nil
  | point h _ ih => exact .cons h.interleave (ih _ _ h.interleave)

theorem AlikeRun.andThen {α β : Type} {r r' : Run α} (h : AlikeRun r r') {f g : α → State → Run β}
    (hf : ∀ a u v, Alike u v → AlikeRun (f a u) (g a v)) : AlikeRun (r.andThen f) (r'.andThen g) := by
  induction h with
  | done a h => exact hf _ _ _ h
  | point h _ ih => exact .point h ih

theorem Alike.writeFieldRun {s t : State} (h : Alike s t) (n : RegName) (f : Field) (v : Raw) :
    AlikeRun (Machine.writeFieldRun n f v s) (Machine.writeFieldRun n f v t) := by
  unfold Machine.writeFieldRun
  rw [(h.busRead n).1]
  split
  · exact .done _ (h.busRead n).2
  · rename_i old _
    refine .point (h.busRead n).2 fun u v' g => ?_
    rw [(g.busWrite n (insertField f old v)).1]
    exact .done _ (g.busWrite n _).2

theorem Alike.drainLoopRun (k : Nat) : ∀ (n : Nat) {s t : State}, Alike s t →
    AlikeRun (Machine.drainLoopRun k n s) (Machine.drainLoopRun k n t) := by
  induction k with
  | zero => exact fun n s t h => .done _ h
  | succ k ih =>
    intro n s t h
    unfold Machine.drainLoopRun
    rw [h.rxPop.1]
    split
    all_goals first
      | exact .done _ h.rxPop.2
      | exact .point h.rxPop.2 fun u v g => .point (g.enqueue _ _).2 fun u v l => ih _ l

/-- A reset of two such states leaves one state. -/
theorem Alike.construct {s t : State} (h : Alike s t) : t.construct = s.construct := by rw [h.rest]; rfl

end Sys2Proof.Machine
end

