-- ==== Sys2Proof/Laws/History.lean ====
section
/-! SUPPORT. How what a history says grows with the history. -/

namespace Sys2Proof.Machine

open Sys2Proof

theorem dropCount_append (p : PipeNo) (l m : List Event) : dropCount p (l ++ m) = dropCount p l + dropCount p m := by
  simp only [dropCount, List.countP_append]
theorem decodeFailureCount_append (l m : List Event) :
    decodeFailureCount (l ++ m) = decodeFailureCount l + decodeFailureCount m := by
  simp only [decodeFailureCount, List.countP_append]
theorem transferCount_append (l m : List Event) : transferCount (l ++ m) = transferCount l + transferCount m := by
  simp only [transferCount, List.countP_append]
theorem bracketCount_append (l m : List Event) : bracketCount (l ++ m) = bracketCount l + bracketCount m := by
  simp only [bracketCount, List.countP_append]

/-- Only a level driven on a pin changes the last level driven on it. -/
theorem lastCe_snoc (l : List Event) (e : Event) (h : ∀ v, e ≠ .ce v) : lastCe (l ++ [e]) = lastCe l := by
  unfold lastCe
  rw [List.foldl_append]
  cases e <;> first | rfl | exact absurd rfl (h _)
theorem lastCsn_snoc (l : List Event) (e : Event) (h : ∀ v, e ≠ .csn v) : lastCsn (l ++ [e]) = lastCsn l := by
  unfold lastCsn
  rw [List.foldl_append]
  cases e <;> first | rfl | exact absurd rfl (h _)
theorem lastCe_ce (l : List Event) (v : Level) : lastCe (l ++ [.ce v]) = some v := by
  unfold lastCe
  rw [List.foldl_append]
  rfl
theorem lastCsn_csn (l : List Event) (v : Level) : lastCsn (l ++ [.csn v]) = some v := by
  unfold lastCsn
  rw [List.foldl_append]
  rfl

/-- Events that are all transfers count as no drop and no decode failure. -/
theorem dropCount_transfers {l : List Event} (h : ∀ e ∈ l, (∃ o i, e = .xfer o i) ∨ ∃ o, e = .xferFail o)
    (p : PipeNo) : dropCount p l = 0 := by
  rw [dropCount, List.countP_eq_zero]
  intro e he
  rcases h e he with ⟨_, _, rfl⟩ | ⟨_, rfl⟩ <;> exact Bool.false_ne_true
theorem decodeFailureCount_transfers {l : List Event} (h : ∀ e ∈ l, (∃ o i, e = .xfer o i) ∨ ∃ o, e = .xferFail o) :
    decodeFailureCount l = 0 := by
  rw [decodeFailureCount, List.countP_eq_zero]
  intro e he
  rcases h e he with ⟨_, _, rfl⟩ | ⟨_, rfl⟩ <;> exact Bool.false_ne_true

end Sys2Proof.Machine
end

