-- ==== Sys2Proof/Laws/Drain.lean ====
section
/-! SUPPORT. What one payload read and one DRAIN can do, said once: `rxPop_run`, `drainLoop_run`
(spec/20_memory.md R51; spec/43_draindemux.md R155 to R161). -/

namespace Sys2Proof.Machine

open Sys2Proof

/-! ## The payload read -/

/-- What the pipe-number field of a status byte says, under a well-formed configuration (R79). -/
theorem statusPipe_cases {c : Config} (hw : c.wf = true) (st : Byte) :
    (pipeNumberField c st = 7 ∧ statusPipe c st = .empty) ∨ (pipeNumberField c st = 6 ∧ statusPipe c st = .noPipe) ∨
      ∃ p : PipeNo, pipeNumberField c st = p ∧ statusPipe c st = .pipe p := by
  obtain ⟨-, d, hp⟩ := c.role_bound hw (c.wf_pipeNo hw)
  simp only [Bool.and_eq_true, decide_eq_true_eq] at hp
  have e : (extract (c.roleField c.role.pipeNo) (st.setWidth 40)).toNat = pipeNumberField c st := by
    have hst : st.toNat % 2 ^ 40 = st.toNat := Nat.mod_eq_of_lt (by have := st.isLt; omega)
    rw [extract_toNat, hp.1, BitVec.toNat_setWidth, hst]
    rfl
  have hlt : pipeNumberField c st < 8 := Nat.mod_lt _ (by omega)
  unfold statusPipe
  simp only [e]
  by_cases h6 : pipeNumberField c st < 6
  · exact .inr (.inr ⟨⟨_, h6⟩, rfl, by rw [dif_pos h6]⟩)
  · by_cases h7 : pipeNumberField c st = 7
    · exact .inl ⟨h7, by rw [dif_neg h6, if_pos (by rw [h7]; rfl)]⟩
    · exact .inr (.inl ⟨by omega, by rw [dif_neg h6, if_neg (by rw [Config.pipeEmpty]; exact h7)]⟩)

/-- What one payload read found, the transfers of its bracket, as the device answered them, and the state before the
bracket closes (R51). -/
inductive PopRun (s : State) : PopResult → List Event → State → Prop where
  | statusFault : s.fails [s.cfg.rxpl] → PopRun s .busFault [.xferFail [s.cfg.rxpl]] (s.select.lost [s.cfg.rxpl])
  | empty (st : Byte) : s.answers [s.cfg.rxpl] [st] → pipeNumberField s.cfg st = 7 →
      PopRun s .empty [.xfer [s.cfg.rxpl] [st]] (s.select.received [s.cfg.rxpl] [st])
  | noPipe (st : Byte) : s.answers [s.cfg.rxpl] [st] → pipeNumberField s.cfg st = 6 →
      PopRun s .noPipe [.xfer [s.cfg.rxpl] [st]] (s.select.received [s.cfg.rxpl] [st])
  | noLen (st : Byte) (p : PipeNo) : s.answers [s.cfg.rxpl] [st] → pipeNumberField s.cfg st = p →
      s.pipe[p].len = none → PopRun s (.noLen p) [.xfer [s.cfg.rxpl] [st]] (s.select.received [s.cfg.rxpl] [st])
  | payloadFault (st : Byte) (p : PipeNo) (len : Nat) : s.answers [s.cfg.rxpl] [st] → pipeNumberField s.cfg st = p →
      s.pipe[p].len = some len →
      ((s.select.received [s.cfg.rxpl] [st]).answer (List.replicate len s.cfg.fill)).1 = .fail →
      PopRun s .busFault [.xfer [s.cfg.rxpl] [st], .xferFail (List.replicate len s.cfg.fill)]
        ((s.select.received [s.cfg.rxpl] [st]).lost (List.replicate len s.cfg.fill))
  | frame (st : Byte) (p : PipeNo) (bytes : Frame) : s.answers [s.cfg.rxpl] [st] → pipeNumberField s.cfg st = p →
      s.pipe[p].len = some bytes.length →
      ((s.select.received [s.cfg.rxpl] [st]).answer (List.replicate bytes.length s.cfg.fill)).1 = .ok bytes →
      PopRun s (.frame p bytes) [.xfer [s.cfg.rxpl] [st], .xfer (List.replicate bytes.length s.cfg.fill) bytes]
        ((s.select.received [s.cfg.rxpl] [st]).received (List.replicate bytes.length s.cfg.fill) bytes)

/-- Transfers happened and nothing else. -/
def Transferred (s t : State) (body : List Event) : Prop :=
  t = { s with hist := s.hist ++ body, busFault := s.busFault || anyFailure body, draws := t.draws, device := t.device }

theorem Transferred.trans {s t u : State} {l m : List Event} (h : Transferred s t l) (g : Transferred t u m) :
    Transferred s u (l ++ m) := by
  unfold Transferred at *
  rw [g, h, anyFailure_append]
  simp [Bool.or_assoc]

theorem transferred_ok (s : State) (out inp : List Byte) : Transferred s (s.received out inp) [.xfer out inp] := by
  simp [Transferred, State.received, anyFailure]

theorem transferred_fail (s : State) (out : List Byte) : Transferred s (s.lost out) [.xferFail out] := by
  simp [Transferred, State.lost, anyFailure]

/-- The body of the payload read (R51). -/
theorem popBody_run {s : State} (hw : s.cfg.wf = true) :
    ∃ body, PopRun s (popBody s.select).1 body (popBody s.select).2 ∧
      Transferred s.select (popBody s.select).2 body := by
  unfold popBody
  rcases s.select.transfer_cases [s.select.cfg.rxpl] with ⟨inp, hi, e⟩ | ⟨hf, e⟩
  · have hl := State.answer_length hi
    match inp, hl with
    | [st], _ =>
      have t1 := transferred_ok s.select [s.cfg.rxpl] [st]
      rw [e, State.received_eq]
      simp only [List.headD_cons]
      rcases statusPipe_cases (c := s.select.cfg) hw st with ⟨hn, hp⟩ | ⟨hn, hp⟩ | ⟨p, hn, hp⟩
      · rw [hp]; exact ⟨_, .empty st hi hn, t1⟩
      · rw [hp]; exact ⟨_, .noPipe st hi hn, t1⟩
      · rw [hp]
        simp only [popPayload]
        generalize hu : s.select.received [s.select.cfg.rxpl] [st] = u
        have hu : s.select.received [s.cfg.rxpl] [st] = u := hu
        rw [hu] at t1
        have up : u.pipe = s.pipe := by rw [t1]; rfl
        have uc : u.cfg = s.cfg := by rw [t1]; rfl
        rw [up, uc]
        cases hlen : s.pipe[p].len with
        | none => exact ⟨_, hu ▸ .noLen st p hi hn hlen, t1⟩
        | some len =>
          simp only
          rcases u.transfer_cases (List.replicate len s.cfg.fill) with ⟨bytes, hb, e'⟩ | ⟨hb, e'⟩
          · have hbl : bytes.length = len := by simpa using State.answer_length hb
            rw [e', State.received_eq]
            subst hbl
            exact ⟨_, hu ▸ .frame st p bytes hi hn hlen (hu ▸ hb), t1.trans (transferred_ok u _ bytes)⟩
          · rw [e', State.lost_eq]
            exact ⟨_, hu ▸ .payloadFault st p len hi hn hlen (hu ▸ hb), t1.trans (transferred_fail u _)⟩
  · rw [e, State.lost_eq]
    exact ⟨_, .statusFault hf, transferred_fail _ _⟩

/-- The payload read: one closed bracket around one or two transfers, as the device answers them (R42, R51). -/
theorem rxPop_run {s : State} (hw : s.cfg.wf = true) :
    ∃ body v, PopRun s (rxPop s).1 body v ∧ (rxPop s).2 = v.deselect ∧ s.now + 2 * s.cfg.tCS ≤ (rxPop s).2.now ∧
      (rxPop s).2 = { s with
        hist := s.hist ++ bracketEvents s.cfg body, csn := some .high
        busFault := s.busFault || anyFailure body, now := (rxPop s).2.now, draws := (rxPop s).2.draws
        device := (rxPop s).2.device } := by
  obtain ⟨body, hr, ht⟩ := popBody_run hw
  refine ⟨body, _, hr, rfl, ?_, ?_⟩
  · simp only [rxPop]
    rw [ht]
    simp [State.deselect, State.select]
    omega
  · simp only [rxPop]
    rw [ht]
    simp [State.deselect, State.select, State.driveCsn, State.wait, State.emit, bracketEvents]

/-! ## Running, without a response -/

/-- The part of `OwnerDid` that composes when queues may also grow. -/
structure OwnerRan (s t : State) (done : List Event) : Prop where
  events : ownerEvents t.hist = ownerEvents s.hist ++ done
  replies : t.repliesOn .H = s.repliesOn .H
  time : s.now + waitTotal done ≤ t.now
  rest : SameButBusAndGuests s t
  quiet : s.within = [] → QuietDoing s t done

theorem OwnerDoing.ran {s t : State} {l : List Event} (h : OwnerDoing s t l) : OwnerRan s t l :=
  ⟨h.events, h.replies, h.time, h.rest, h.quiet⟩

theorem OwnerRan.trans {s t u : State} {l m : List Event} (h : OwnerRan s t l) (g : OwnerRan t u m) :
    OwnerRan s u (l ++ m) where
  events := by rw [g.events, h.events, List.append_assoc]
  replies := g.replies.trans h.replies
  time := by have := h.time; have := g.time; rw [waitTotal_append]; omega
  rest := h.rest.trans g.rest
  quiet w := (h.quiet w).trans (g.quiet ((h.quiet w).within.trans w))

theorem OwnerRan.respond {s t : State} {l : List Event} (h : OwnerRan s t l) (hp : s.port = .H) (r : Response) :
    OwnerDid s (t.respond r) l r where
  events := h.events
  replies := by
    have : t.port = .H := by rw [h.rest.rest]; exact hp
    rw [State.repliesOn_respond, if_pos this, h.replies]
  time := h.time
  rest := { rest := by rw [h.rest.rest]; rfl, dec := h.rest.dec, decFail := h.rest.decFail, time := h.rest.time }
  quiet w := (h.quiet w).respond hp r

theorem PopRun.events {s v : State} {r : PopResult} {l : List Event} (h : PopRun s r l v) :
    ownerEvents (bracketEvents s.cfg l) = bracketEvents s.cfg l ∧
      waitTotal (bracketEvents s.cfg l) = 2 * s.cfg.tCS := by
  cases h <;> refine ⟨rfl, ?_⟩ <;> simp [bracketEvents, waitTotal] <;> omega

theorem rxPop_ran {s v : State} {body : List Event} (hr : PopRun s (rxPop s).1 body v)
    (ht : s.now + 2 * s.cfg.tCS ≤ (rxPop s).2.now)
    (h : (rxPop s).2 = { s with
        hist := s.hist ++ bracketEvents s.cfg body, csn := some .high
        busFault := s.busFault || anyFailure body, now := (rxPop s).2.now, draws := (rxPop s).2.draws
        device := (rxPop s).2.device }) : OwnerRan s (rxPop s).2 (bracketEvents s.cfg body) where
  events := by rw [h, ownerEvents_append, hr.events.1]
  replies := State.repliesOn_congr (by rw [h]) _
  time := by rw [hr.events.2]; exact ht
  rest :=
    { rest := by rw [h]
      dec := .inl (by rw [h])
      decFail := by rw [h]
      time := by omega }
  quiet _ := by rw [h]; rfl

/-- Handing a frame to its queue, as the owner's run. -/
theorem enqueue_ran (p : PipeNo) (fr : Frame) (s : State) :
    OwnerRan s (enqueue p fr s).2 (if (enqueue p fr s).1 then [] else [.drop p fr]) := by
  rcases enqueue_cases p fr s with ⟨-, e⟩ | ⟨-, e⟩ <;> rw [e]
  · exact
      { events := by simp
        replies := rfl
        time := by simp [waitTotal]
        rest := ⟨rfl, .inl rfl, le_rfl, le_rfl⟩
        quiet := fun _ => by simp [QuietDoing, State.setPipe] }
  · exact
      { events := by rw [State.emit_hist, ownerEvents_append]; rfl
        replies := rfl
        time := by simp [waitTotal]
        rest := ⟨rfl, .inl rfl, le_rfl, le_rfl⟩
        quiet := fun _ => by simp [QuietDoing, State.setPipe, State.emit] }

/-! ## One iteration that pops a frame -/

/-- The state after one iteration that popped a frame. -/
def afterFrame (p : PipeNo) (bytes : Frame) (s : State) : State :=
  interleave (enqueue p bytes (interleave (rxPop s).2)).2

/-- Was the popped frame stored? -/
def wasStored (p : PipeNo) (bytes : Frame) (s : State) : Bool := (enqueue p bytes (interleave (rxPop s).2)).1

/-- What one iteration that popped a frame does (R156). -/
structure Iterated (p : PipeNo) (bytes : Frame) (s t : State) (x : Popped) : Prop where
  isPopped : x.pipe = p ∧ x.frame = bytes ∧ x.stored = wasStored p bytes s
  ok : x.ok s
  status : s.answers [s.cfg.rxpl] [x.status]
  payload : ((s.select.received [s.cfg.rxpl] [x.status]).answer (List.replicate x.frame.length s.cfg.fill)).1
    = .ok x.frame
  stored : x.stored = true ↔ (interleave (s.popBracket x)).pipe[x.pipe].q.length < s.cfg.cap[x.pipe]
  bracket : (rxPop s).2 = s.popBracket x
  after : t = s.afterPop x
  ran : OwnerRan s t (x.events s.cfg)
  same : t.cfg = s.cfg ∧ t.status = s.status ∧ t.ce = s.ce ∧ t.mirror = s.mirror ∧ t.csn = some .high ∧
    t.busFault = s.busFault
  pipe : ∀ q : PipeNo, t.pipe[q] = { s.pipe[q] with
    q := t.pipe[q].q, drops := s.pipe[q].drops + if x.pipe = q && !x.stored then 1 else 0 }
  quiet : s.within = [] → t.within = [] ∧ (x.stored = true ↔ s.pipe[p].q.length < s.cfg.cap[p]) ∧
    ∀ q : PipeNo, t.pipe[q].q = s.pipe[q].q ++ if x.pipe = q && x.stored then [bytes] else []

theorem Frame.enqueue_pipe (p q : PipeNo) (bytes : Frame) (s : State) :
    (enqueue p bytes s).2.pipe[q] = { s.pipe[q] with
      q := s.pipe[q].q ++ if p = q && (enqueue p bytes s).1 then [bytes] else []
      drops := s.pipe[q].drops + if p = q && !(enqueue p bytes s).1 then 1 else 0 } := by
  rcases enqueue_cases p bytes s with ⟨-, e⟩ | ⟨-, e⟩ <;> rw [e] <;> by_cases h : p = q
  · subst h; rw [State.setPipe_get]; simp
  · rw [State.setPipe_get_ne h]; simp [h]
  · subst h; rw [State.emit_pipe, State.setPipe_get]; simp [Pipe.countDrop]
  · rw [State.emit_pipe, State.setPipe_get_ne h]; simp [h]

/-- An enqueue stores exactly when there is room (R140). -/
theorem enqueue_stores (p : PipeNo) (bytes : Frame) (s : State) :
    (enqueue p bytes s).1 = true ↔ s.pipe[p].q.length < s.cfg.cap[p] := by
  rcases enqueue_cases p bytes s with ⟨h, e⟩ | ⟨h, e⟩ <;> rw [e]
  · simpa using h
  · simpa using h

theorem enqueue_same (p : PipeNo) (bytes : Frame) (s : State) :
    (enqueue p bytes s).2 = { s with
      pipe := (enqueue p bytes s).2.pipe, hist := (enqueue p bytes s).2.hist } := by
  rcases enqueue_cases p bytes s with ⟨-, e⟩ | ⟨-, e⟩ <;> rw [e] <;> rfl

theorem iterated {p : PipeNo} {bytes : Frame} {s : State} (hw : s.cfg.wf = true)
    (h : (rxPop s).1 = .frame p bytes) : ∃ x, Iterated p bytes s (afterFrame p bytes s) x := by
  obtain ⟨body, v, hr, hv, ht, hs⟩ := rxPop_run hw
  have ran := rxPop_ran hr ht hs
  rw [h] at hr
  cases hr with
  | frame st _ _ ha hn hl hb =>
    have hv : (rxPop s).2 = s.popBracket ⟨st, p, bytes, wasStored p bytes s⟩ := hv
    have stored : wasStored p bytes s = true ↔
        (interleave (s.popBracket ⟨st, p, bytes, wasStored p bytes s⟩)).pipe[p].q.length < s.cfg.cap[p] := by
      rw [← hv]
      conv => lhs; unfold wasStored
      rw [enqueue_stores, (interleave_guests _).rest, hs]
    have after : afterFrame p bytes s = s.afterPop ⟨st, p, bytes, wasStored p bytes s⟩ := by
      rw [State.afterPop, ← hv, afterFrame]
    generalize hu : (rxPop s).2 = u at *
    have g1 := interleave_guests u
    have g2 := interleave_guests (enqueue p bytes (interleave u)).2
    have en := enqueue_same p bytes (interleave u)
    have uc : (interleave u).cfg = s.cfg := by rw [g1.rest, hs]
    refine ⟨⟨st, p, bytes, wasStored p bytes s⟩, ⟨rfl, rfl, rfl⟩, ⟨hn, hl⟩, ha, hb, stored, hu.trans hv, after, ?_, ?_, ?_, ?_⟩
    · have e2 := enqueue_ran p bytes (interleave u)
      have := ((ran.trans (interleave_doing u).ran).trans e2).trans (interleave_doing _).ran
      simp only [List.append_nil] at this
      simp only [afterFrame, wasStored, hu, Popped.events]
      exact this
    · simp only [afterFrame, hu]
      rw [g2.rest, en, g1.rest, hs]
      simp [anyFailure]
    · intro q
      simp only [afterFrame, wasStored, hu]
      obtain ⟨k2, e2⟩ := g2.pipes q
      obtain ⟨k1, e1⟩ := g1.pipes q
      rw [e2, Frame.enqueue_pipe, e1, hs]
    · intro hq
      have uq : u.within = [] := by rw [hs]; exact hq
      have i1 : interleave u = u := interleave_quiet uq
      have eq : (enqueue p bytes u).2.within = [] := by rw [enqueue_same]; exact uq
      simp only [afterFrame, wasStored, hu, i1, interleave_quiet eq]
      refine ⟨eq, ?_, fun q => ?_⟩
      · have : u.pipe = s.pipe := by rw [hs]
        have uc' : u.cfg = s.cfg := by rw [hs]
        rcases enqueue_cases p bytes u with ⟨hc, e⟩ | ⟨hc, e⟩ <;> rw [e] <;> rw [this, uc'] at hc <;> simp <;> omega
      · rw [Frame.enqueue_pipe, hs]

/-! ## The loop -/

/-- What the loop does with `k` iterations left and `n` frames popped so far (R155 to R158). -/
structure DrainRun (k n : Nat) (s t : State) (r : Response) (popped : List Popped) (code : Code)
    (last : List Event) : Prop where
  count : popped.length ≤ k
  ok : ∀ x ∈ popped, x.ok s
  ends : DrainEnd s k popped.length code last
  trace : DrainTrace k s popped code last t
  passes : (drainLoopRun k n s).passes = s.popPasses popped ++ [t]
  ran : OwnerRan s t (popped.flatMap (Popped.events s.cfg) ++ last)
  response : r = .ofCode code (countValue (n + popped.length))
  same : t.status = s.status ∧ t.ce = s.ce ∧ t.mirror = s.mirror
  csn : t.csn = some .high ∨ (k = 0 ∧ t = s)
  busFault : t.busFault = true ↔ s.busFault = true ∨ code = .busFault
  pipe : ∀ q : PipeNo, t.pipe[q] = { s.pipe[q] with
    q := t.pipe[q].q, drops := s.pipe[q].drops + popped.countP fun x => x.pipe = q && !x.stored }
  quiet : s.within = [] → ∀ q : PipeNo, s.pipe[q].q.length ≤ s.cfg.cap[q] →
    t.pipe[q].q = (s.pipe[q].q ++ framesFor q popped).take s.cfg.cap[q]

theorem Popped.ok_of {s t : State} {x : Popped} (h : x.ok t) (hc : t.cfg = s.cfg)
    (hl : ∀ p : PipeNo, t.pipe[p].len = s.pipe[p].len) : x.ok s := ⟨hc ▸ h.1, (hl _) ▸ h.2⟩

theorem DrainEnd.succ {s t : State} {k n : Nat} {code : Code} {last : List Event} (h : DrainEnd t k n code last)
    (hc : t.cfg = s.cfg) (hl : ∀ p : PipeNo, t.pipe[p].len = s.pipe[p].len) :
    DrainEnd s (k + 1) (n + 1) code last := by
  cases h with
  | capReached h => exact .capReached (by omega)
  | empty st h a => rw [hc] at a ⊢; exact .empty st (by omega) a
  | noSuchPipe st h a => rw [hc] at a ⊢; exact .noSuchPipe st (by omega) a
  | notConfigured st p h a b => rw [hc] at a ⊢; rw [hl] at b; exact .notConfigured st p (by omega) a b
  | statusFault h => rw [hc]; exact .statusFault (by omega)
  | payloadFault st p len h a b => rw [hc] at a ⊢; rw [hl] at b; exact .payloadFault st p len (by omega) a b

/-- An invocation that ends in its first iteration. -/
theorem drainRun_end {k n : Nat} {s : State} {res : PopResult} {body : List Event} {code : Code} {r : Response}
    {v : State} (hr : PopRun s res body v) (hres : (rxPop s).1 = res) (hv : (rxPop s).2 = v.deselect)
    (tr : DrainTrace (k + 1) s [] code (bracketEvents s.cfg body) v.deselect) (ht : s.now + 2 * s.cfg.tCS ≤ (rxPop s).2.now)
    (hs : (rxPop s).2 = { s with
        hist := s.hist ++ bracketEvents s.cfg body, csn := some .high
        busFault := s.busFault || anyFailure body, now := (rxPop s).2.now, draws := (rxPop s).2.draws
        device := (rxPop s).2.device })
    (he : DrainEnd s (k + 1) 0 code (bracketEvents s.cfg body))
    (hp : (drainLoopRun (k + 1) n s).passes = [(rxPop s).2])
    (hf : anyFailure body = true ↔ code = .busFault)
    (hresp : r = .ofCode code (countValue n)) :
    DrainRun (k + 1) n s (rxPop s).2 r [] code (bracketEvents s.cfg body) where
  count := Nat.zero_le _
  ok := by simp
  ends := he
  trace := hv ▸ tr
  passes := hp
  ran := rxPop_ran (hres ▸ hr) ht hs
  response := hresp
  same := by rw [hs]; exact ⟨rfl, rfl, rfl⟩
  csn := .inl (by rw [hs])
  busFault := by rw [hs]; simp [hf]
  pipe q := by rw [hs]; rfl
  quiet _ q hq := by
    rw [hs]
    simp [framesFor]
    exact hq

theorem drainLoop_run (k : Nat) : ∀ (n : Nat) (s : State), s.cfg.wf = true →
    ∃ popped code last, DrainRun k n s (drainLoop k n s).2 (drainLoop k n s).1 popped code last := by
  induction k with
  | zero =>
    intro n s hw
    refine ⟨[], .ok, [], Nat.le_refl _, by simp, .capReached rfl, .capReached s, rfl, (OwnerDoing.refl s).ran, rfl, ⟨rfl, rfl, rfl⟩,
      .inr ⟨rfl, rfl⟩, by simp [drainLoop], fun q => rfl, fun _ q hq => ?_⟩
    simp [drainLoop, framesFor]
    exact hq
  | succ k ih =>
    intro n s hw
    obtain ⟨body, v, hr, hv, ht, hs⟩ := rxPop_run hw
    cases hres : (rxPop s).1 with
    | empty =>
      rw [hres] at hr
      cases hr with
      | empty st ha hn =>
        refine ⟨[], .ok, bracketEvents s.cfg [.xfer [s.cfg.rxpl] [st]], ?_⟩
        simp only [drainLoop, hres]
        exact drainRun_end (.empty st ha hn) hres hv (.empty k s st ha hn) ht hs (.empty st (by omega) hn)
          (by simp only [drainLoopRun, hres, Run.passes]) (by simp [anyFailure]) rfl
    | noPipe =>
      rw [hres] at hr
      cases hr with
      | noPipe st ha hn =>
        refine ⟨[], .noSuchPipe, bracketEvents s.cfg [.xfer [s.cfg.rxpl] [st]], ?_⟩
        simp only [drainLoop, hres]
        exact drainRun_end (.noPipe st ha hn) hres hv (.noSuchPipe k s st ha hn) ht hs (.noSuchPipe st (by omega) hn)
          (by simp only [drainLoopRun, hres, Run.passes])
          (by simp [anyFailure]) rfl
    | noLen p =>
      rw [hres] at hr
      cases hr with
      | noLen st _ ha hn hl =>
        refine ⟨[], .pipeNotConfigured, bracketEvents s.cfg [.xfer [s.cfg.rxpl] [st]], ?_⟩
        simp only [drainLoop, hres]
        exact drainRun_end (.noLen st p ha hn hl) hres hv (.notConfigured k s st p ha hn hl) ht hs
          (.notConfigured st p (by omega) hn hl)
          (by simp only [drainLoopRun, hres, Run.passes]) (by simp [anyFailure]) rfl
    | busFault =>
      rw [hres] at hr
      refine ⟨[], .busFault, bracketEvents s.cfg body, ?_⟩
      simp only [drainLoop, hres]
      cases hr with
      | statusFault hf =>
        exact drainRun_end (.statusFault hf) hres hv (.statusFault k s hf) ht hs (.statusFault (by omega))
          (by simp only [drainLoopRun, hres, Run.passes])
          (by simp [anyFailure]) rfl
      | payloadFault st p len ha hn hl hb =>
        exact drainRun_end (.payloadFault st p len ha hn hl hb) hres hv (.payloadFault k s st p len ha hn hl hb) ht hs
          (.payloadFault st p len (by omega) hn hl)
          (by simp only [drainLoopRun, hres, Run.passes]) (by simp [anyFailure]) rfl
    | frame p bytes =>
      obtain ⟨x, it⟩ := iterated hw hres
      have e : drainLoop (k + 1) n s = drainLoop k (n + 1) (afterFrame p bytes s) := by
        simp only [drainLoop, hres, afterFrame]
      rw [e]
      obtain ⟨hc, h2, h3, h4, h5, h6⟩ := it.same
      obtain ⟨popped, code, last, d⟩ := ih (n + 1) (afterFrame p bytes s) (by rw [hc]; exact hw)
      have hl : ∀ q : PipeNo, (afterFrame p bytes s).pipe[q].len = s.pipe[q].len := fun q => by rw [it.pipe q]
      refine ⟨x :: popped, code, last, ?_⟩
      refine
        { count := by have := d.count; simp; omega
          ok := ?_
          ends := d.ends.succ hc hl
          trace := .popped k s x popped code last _ it.status it.ok it.payload it.stored (it.after ▸ d.trace)
          passes := by
            have := d.passes
            simp only [drainLoopRun, hres, Run.passes, State.popPasses, List.cons_append, ← it.bracket, ← it.after]
            rw [← this]
            rfl
          ran := ?_
          response := ?_
          same := ⟨d.same.1.trans h2, d.same.2.1.trans h3, d.same.2.2.trans h4⟩
          csn := .inl ?_
          busFault := by rw [d.busFault, h6]
          pipe := fun q => ?_
          quiet := fun hq q hle => ?_ }
      · intro y hy
        rcases List.mem_cons.1 hy with rfl | hy
        · exact it.ok
        · exact Popped.ok_of (d.ok y hy) hc hl
      · have := it.ran.trans d.ran
        rw [hc] at this
        simpa [List.append_assoc] using this
      · rw [d.response]
        simp only [List.length_cons]
        congr 2
        omega
      · rcases d.csn with h | ⟨-, h⟩
        · exact h
        · rw [h]; exact h5
      · rw [d.pipe q, it.pipe q, List.countP_cons]
        simp only [Nat.add_assoc]
        congr 2
        exact Nat.add_comm _ _
      · obtain ⟨w, st, iq⟩ := it.quiet hq
        have hx := it.isPopped
        have key : (afterFrame p bytes s).pipe[q].q.length ≤ s.cfg.cap[q] ∧
            (s.pipe[q].q ++ framesFor q (x :: popped)).take s.cfg.cap[q] =
              ((afterFrame p bytes s).pipe[q].q ++ framesFor q popped).take s.cfg.cap[q] := by
          rw [iq q]
          by_cases hpq : x.pipe = q
          · have hp : p = q := hx.1 ▸ hpq
            subst hp
            have hf : framesFor x.pipe (x :: popped) = bytes :: framesFor x.pipe popped := by
              simp [framesFor, hx.2.1]
            rw [hpq] at hf
            rw [hf]
            by_cases hstored : x.stored = true
            · have := st.1 hstored
              simp [hpq, hstored]
              omega
            · have hfull : s.pipe[p].q.length = s.cfg.cap[p] := by
                have := mt st.2 hstored
                omega
              have hst : x.stored = false := by simpa using hstored
              simp only [hst, Bool.and_false, Bool.false_eq_true, if_false, List.append_nil]
              rw [← hfull]
              exact ⟨Nat.le_refl _, by rw [List.take_left, List.take_left]⟩
          · have hf : framesFor q (x :: popped) = framesFor q popped := by simp [framesFor, hpq]
            rw [hf]
            simp [hpq]
            exact hle
        rw [d.quiet w q (by rw [hc]; exact key.1), hc, key.2]

/-- The brackets and transfers of an invocation (R155, R161). -/
theorem drain_counts {s : State} {cap : Nat} {popped : List Popped} {code : Code} {last : List Event}
    (hp : popped.length ≤ cap) (h : DrainEnd s cap popped.length code last) :
    bracketCount (popped.flatMap (Popped.events s.cfg) ++ last) ≤ cap ∧
      transferCount (popped.flatMap (Popped.events s.cfg) ++ last) ≤ 2 * cap := by
  have one : ∀ l : List Popped, bracketCount (l.flatMap (Popped.events s.cfg)) = l.length ∧
      transferCount (l.flatMap (Popped.events s.cfg)) = 2 * l.length := by
    intro l
    induction l with
    | nil => exact ⟨rfl, rfl⟩
    | cons x l ih =>
      have hx : bracketCount (x.events s.cfg) = 1 ∧ transferCount (x.events s.cfg) = 2 := by
        unfold Popped.events
        split <;> exact ⟨rfl, rfl⟩
      simp only [List.flatMap_cons, bracketCount_append, transferCount_append, ih, hx, List.length_cons]
      omega
  have hl : bracketCount last + popped.length ≤ cap ∧ transferCount last + 2 * popped.length ≤ 2 * cap := by
    cases h with
    | capReached h => simp [bracketCount, transferCount]; omega
    | empty st h a => exact ⟨by show 1 + _ ≤ _; omega, by show 1 + _ ≤ _; omega⟩
    | noSuchPipe st h a => exact ⟨by show 1 + _ ≤ _; omega, by show 1 + _ ≤ _; omega⟩
    | notConfigured st p h a b => exact ⟨by show 1 + _ ≤ _; omega, by show 1 + _ ≤ _; omega⟩
    | statusFault h => exact ⟨by show 1 + _ ≤ _; omega, by show 1 + _ ≤ _; omega⟩
    | payloadFault st p len h a b => exact ⟨by show 1 + _ ≤ _; omega, by show 2 + _ ≤ _; omega⟩
  simp only [bracketCount_append, transferCount_append, one]
  omega

end Sys2Proof.Machine
end

