-- ==== Sys2Proof/Laws/Transceiver.lean ====
section
/-! SUPPORT. What the edges of GOTO do when their field write succeeds, and when it fails
(spec/41_statemachine.md R111 to R119). -/

namespace Sys2Proof.Machine

open Sys2Proof

theorem ce_doing (l : Level) (s : State) : OwnerDoing s (s.driveCe l) [.ce l] where
  events := by rw [State.driveCe_hist, ownerEvents_append]; rfl
  replies := rfl
  time := by simp [waitTotal]
  rest := ⟨rfl, .inl rfl, le_rfl, le_rfl⟩
  pipes := .refl rfl
  quiet _ := rfl

theorem wait_doing (d : Nat) (s : State) : OwnerDoing s (s.wait d) [.wait d] where
  events := by rw [State.wait_hist, ownerEvents_append]; rfl
  replies := rfl
  time := by simp [waitTotal]
  rest := ⟨rfl, .inl rfl, le_rfl, by simp; omega⟩
  pipes := .refl rfl
  quiet _ := rfl

theorem status_doing (t : Status) (s : State) : OwnerDoing s (s.setStatus t) [] where
  events := by simp
  replies := rfl
  time := by simp [waitTotal]
  rest := ⟨rfl, .inl rfl, le_rfl, le_rfl⟩
  pipes := .refl rfl
  quiet _ := by simp [QuietDoing, State.setStatus]

/-- What other agents leave alone. -/
theorem interleave_keeps (s : State) :
    (interleave s).mirror = s.mirror ∧ (interleave s).csn = s.csn ∧ (interleave s).busFault = s.busFault ∧
      (interleave s).ce = s.ce ∧ (interleave s).status = s.status ∧ (interleave s).port = s.port ∧
      (interleave s).cfg = s.cfg := by
  have := (interleave_guests s).rest
  refine ⟨?_, ?_, ?_, ?_, ?_, ?_, ?_⟩ <;> rw [this]

/-! ## An edge whose field write succeeded -/

theorem edgePU_ok {s : State} (h : (writeRole s.cfg.role.pwrUp 1 s).1 = true) :
    edgePU s = (true, ((interleave ((interleave (writeRole s.cfg.role.pwrUp 1 s).2).driveCe .low)).wait
      Config.tPU).setStatus .standBy) := by
  unfold edgePU
  simp only [h, if_true]
theorem edgePD_ok {s : State} (h : (writeRole s.cfg.role.pwrUp 0 s).1 = true) :
    edgePD s = (true, (writeRole s.cfg.role.pwrUp 0 s).2.setStatus .powerDown) := by
  unfold edgePD
  simp only [h, if_true]
theorem edgeRX_ok {s : State} (h : (writeRole s.cfg.role.primRx 1 s).1 = true) :
    edgeRX s = (true, ((interleave (writeRole s.cfg.role.primRx 1 s).2).driveCe .high).setStatus .rx) := by
  unfold edgeRX
  simp only [h, if_true]
theorem edgeTX_ok {s : State} (h : (writeRole s.cfg.role.primRx 0 s).1 = true) :
    edgeTX s = (true, ((interleave ((interleave (writeRole s.cfg.role.primRx 0 s).2).driveCe .high)).wait
      Config.tMode).setStatus .tx) := by
  unfold edgeTX
  simp only [h, if_true]

/-! ## An edge whose field write failed -/

theorem edgePU_fail {s : State} (h : (writeRole s.cfg.role.pwrUp 1 s).1 = false) :
    edgePU s = writeRole s.cfg.role.pwrUp 1 s := by
  unfold edgePU
  simp only [h, Bool.false_eq_true, if_false]
theorem edgePD_fail {s : State} (h : (writeRole s.cfg.role.pwrUp 0 s).1 = false) :
    edgePD s = writeRole s.cfg.role.pwrUp 0 s := by
  unfold edgePD
  simp only [h, Bool.false_eq_true, if_false]
theorem edgeRX_fail {s : State} (h : (writeRole s.cfg.role.primRx 1 s).1 = false) :
    edgeRX s = writeRole s.cfg.role.primRx 1 s := by
  unfold edgeRX
  simp only [h, Bool.false_eq_true, if_false]
theorem edgeTX_fail {s : State} (h : (writeRole s.cfg.role.primRx 0 s).1 = false) :
    edgeTX s = writeRole s.cfg.role.primRx 0 s := by
  unfold edgeTX
  simp only [h, Bool.false_eq_true, if_false]

/-! ## The port -/

theorem writeField_port (n : RegName) (f : Field) (v : Raw) (s : State) : (writeField n f v s).2.port = s.port := by
  rcases fieldWrite_cases n f v s with ⟨inp, inp', h⟩ | ⟨evs, d, h⟩
  · rw [(writeField_doing h).1.rest.rest]
  · rw [(writeField_failing h).1.rest.rest]

theorem edge_port {source target : Status} {edge : State → Bool × State} (h : edgeOf source target = some edge)
    (s : State) : (edge s).2.port = s.port := by
  have w : ∀ r v u, (writeRole r v u).2.port = u.port := fun _ _ _ => writeField_port _ _ _ _
  have i : ∀ u, (interleave u).port = u.port := fun u => (interleave_keeps u).2.2.2.2.2.1
  have pd : ∀ u, (edgePD u).2.port = u.port := by
    intro u
    unfold edgePD
    simp only
    split
    · exact w _ _ _
    · exact w _ _ _
  unfold edgeOf at h
  split at h <;> cases h
  · unfold edgePU
    simp only
    split
    · exact (i _).trans ((i _).trans (w _ _ _))
    · exact w _ _ _
  · exact pd s
  · unfold edgeRX
    simp only
    split
    · exact (i _).trans (w _ _ _)
    · exact w _ _ _
  · unfold edgeTX
    simp only
    split
    · exact (i _).trans ((i _).trans (w _ _ _))
    · exact w _ _ _
  · exact i _
  · exact i _
  · exact (pd _).trans ((i _).trans (i _))
  · exact (pd _).trans ((i _).trans (i _))

/-- GOTO along an edge of the table. -/
theorem goto_edge {s : State} {target : Status} {edge : State → Bool × State}
    (h : edgeOf s.status target = some edge) :
    exec (.goto target) s = .next (if (edge s).1 then (edge s).2.respond (.okay (statusValue (edge s).2.status))
      else (edge s).2.raise .busFault) := by
  simp only [exec, execGoto, gotoRun_answer, h]

end Sys2Proof.Machine
end

