-- ==== Sys2Proof/Laws/Passes.lean ====
section
/-! SUPPORT. The states in which a reset can meet an operation of port H, said once: `passes_staged` and what follows
from it (spec/70_reset_and_hazards.md R215; spec/20_memory.md R42). -/

namespace Sys2Proof.Machine

open Sys2Proof

/-! ## Stretches between two such states -/

/-- The events of one stretch: none, a whole bracket, or one event that lies outside brackets. -/
inductive Stretch : List Event → Prop where
  | none : Stretch []
  | bracket (c : Config) (body : List Event) : (∀ e ∈ body, Event.isTransfer e = true) →
      Stretch (bracketEvents c body)
  | one (e : Event) : bracketStep (some false) e = some false → Stretch [e]

theorem bracketStep_true {e : Event} (h : Event.isTransfer e = true ∨ ∃ d, e = .wait d) :
    bracketStep (some true) e = some true := by
  rcases h with h | ⟨d, rfl⟩
  · cases e <;> first | rfl | cases h
  · rfl

theorem foldl_true {l : List Event} (h : ∀ e ∈ l, Event.isTransfer e = true ∨ ∃ d, e = .wait d) :
    l.foldl bracketStep (some true) = some true := by
  induction l with
  | nil => rfl
  | cons e l ih =>
    rw [List.foldl_cons, bracketStep_true (h e (by simp))]
    exact ih fun x hx => h x (by simp [hx])

theorem bracket_inner (c : Config) {body : List Event} (h : ∀ e ∈ body, Event.isTransfer e = true) :
    ∀ e ∈ Event.wait c.tCS :: body ++ [.wait c.tCS], Event.isTransfer e = true ∨ ∃ d, e = .wait d := by
  intro e he
  simp only [List.cons_append, List.mem_cons, List.mem_append, List.not_mem_nil, or_false] at he
  rcases he with rfl | he | rfl
  · exact .inr ⟨_, rfl⟩
  · exact .inl (h e he)
  · exact .inr ⟨_, rfl⟩

theorem bracketEvents_eq (c : Config) (body : List Event) :
    bracketEvents c body = Event.csn .low :: ((Event.wait c.tCS :: body ++ [.wait c.tCS]) ++ [.csn .high]) := by
  simp [bracketEvents]

theorem Stretch.closed {l : List Event} (h : Stretch l) : l.foldl bracketStep (some false) = some false := by
  cases h with
  | none => rfl
  | one e h => exact h
  | bracket c body h =>
    rw [bracketEvents_eq, List.foldl_cons, List.foldl_append]
    show List.foldl bracketStep (List.foldl bracketStep (some true) _) _ = _
    rw [foldl_true (bracket_inner c h)]
    rfl

theorem stretches_closed {es : List (List Event)} (h : ∀ e ∈ es, Stretch e) : wellBracketed es.flatten = true := by
  have : es.flatten.foldl bracketStep (some false) = some false := by
    induction es with
    | nil => rfl
    | cons e es ih =>
      rw [List.flatten_cons, List.foldl_append, (h e (by simp)).closed]
      exact ih fun x hx => h x (by simp [hx])
  simp [wellBracketed, this]

/-- A closed first part of a stretch is nothing or all of it. -/
theorem Stretch.part {l a b : List Event} (h : Stretch l) (hl : l = a ++ b) (ha : wellBracketed a = true) :
    a = [] ∨ b = [] := by
  cases h with
  | none => exact .inl (List.append_eq_nil_iff.1 hl.symm).1
  | one e _ =>
    cases a with
    | nil => exact .inl rfl
    | cons x a => exact .inr (by simp at hl; exact hl.2.2)
  | bracket c body h =>
    cases a with
    | nil => exact .inl rfl
    | cons x a =>
      right
      have hl : Event.csn .low :: ((Event.wait c.tCS :: body ++ [.wait c.tCS]) ++ [.csn .high]) = x :: (a ++ b) := by
        rw [← bracketEvents_eq]
        exact hl
      obtain ⟨rfl, hl'⟩ := List.cons.inj hl
      rcases List.eq_nil_or_concat b with rfl | ⟨b', y, rfl⟩
      · rfl
      · rw [List.concat_eq_append, ← List.append_assoc] at hl'
        have hin := (List.append_inj' hl' rfl).1
        have : a.foldl bracketStep (some true) = some true := foldl_true fun e he =>
          bracket_inner c h e (by rw [hin]; simp [he])
        have ha' : a.foldl bracketStep (some true) = some false := of_decide_eq_true ha
        rw [this] at ha'
        cases ha'

/-- A closed first part of a sequence of stretches ends with one of them. -/
theorem stretches_part {es : List (List Event)} (h : ∀ e ∈ es, Stretch e) :
    ∀ {a b : List Event}, es.flatten = a ++ b → wellBracketed a = true →
      ∃ l m, es = l ++ m ∧ l.flatten = a := by
  induction es with
  | nil =>
    intro a b hl _
    exact ⟨[], [], rfl, ((List.append_eq_nil_iff.1 (by simpa using hl.symm)).1).symm⟩
  | cons e es ih =>
    intro a b hl ha
    rw [List.flatten_cons] at hl
    rcases List.append_eq_append_iff.1 hl with ⟨a', rfl, h2⟩ | ⟨c, h1, h2⟩
    · have hc : wellBracketed a' = true := by
        have := (h e (by simp)).closed
        simpa [wellBracketed, this] using ha
      obtain ⟨l, m, rfl, rfl⟩ := ih (fun x hx => h x (by simp [hx])) h2 hc
      exact ⟨e :: l, m, rfl, rfl⟩
    · rcases (h e (by simp)).part h1 ha with rfl | rfl
      · exact ⟨[], e :: es, rfl, rfl⟩
      · exact ⟨[e], es, rfl, by simpa using h1⟩

/-! ## Runs as sequences of stretches -/

/-- A run from a state, with the events of its stretches. -/
inductive Staged {α : Type} : State → Run α → List (List Event) → Prop where
  | done {s t : State} {e : List Event} (a : α) : OwnerRan s t e → Stretch e → Staged s (.done a t) [e]
  | point {s t : State} {e : List Event} {es : List (List Event)} (k : State → Run α) : OwnerRan s t e → Stretch e →
      Staged (interleave t) (k (interleave t)) es → Staged s (.point t k) (e :: es)

theorem OwnerRan.refl (s : State) : OwnerRan s s [] := (OwnerDoing.refl s).ran

theorem OwnerRan.interleave {s t : State} {e : List Event} (h : OwnerRan s t e) : OwnerRan s (interleave t) e := by
  simpa using h.trans (interleave_doing t).ran

namespace Staged

variable {α β : Type} {s : State} {r : Run α} {es : List (List Event)}

theorem stretches (h : Staged s r es) : ∀ e ∈ es, Stretch e := by
  induction h with
  | done a _ h => simpa using h
  | point k _ h _ ih => simpa using ⟨h, ih⟩

/-- At its end it has done all of its stretches. -/
theorem finish (h : Staged s r es) : OwnerRan s r.finish.2 es.flatten := by
  induction h with
  | done a h _ => simpa using h
  | point k h _ _ ih => simpa using h.interleave.trans ih

/-- In every state it passes it has done the first of them. -/
theorem passed (h : Staged s r es) : ∀ u ∈ r.passes, ∃ l m, es = l ++ m ∧ OwnerRan s u l.flatten := by
  induction h with
  | @done s t e a h _ =>
    intro u hu
    simp only [Run.passes, List.mem_singleton] at hu
    subst hu
    exact ⟨[e], [], rfl, by simpa using h⟩
  | @point s t e es k h _ _ ih =>
    intro u hu
    simp only [Run.passes, List.mem_cons] at hu
    rcases hu with rfl | hu
    · exact ⟨[e], es, rfl, by simpa using h.interleave⟩
    · obtain ⟨l, m, rfl, g⟩ := ih u hu
      exact ⟨e :: l, m, rfl, by simpa using h.interleave.trans g⟩

/-- After each first part of its stretches it passes a state. -/
theorem passes_all (h : Staged s r es) : ∀ l m, es = l ++ m → l ≠ [] → ∃ u ∈ r.passes, OwnerRan s u l.flatten := by
  induction h with
  | @done s t e a h _ =>
    intro l m hl hn
    refine ⟨t, by simp [Run.passes], ?_⟩
    cases l with
    | nil => exact absurd rfl hn
    | cons x l =>
      simp only [List.cons_append, List.cons.injEq] at hl
      obtain ⟨rfl, hl⟩ := hl
      simpa [(List.append_eq_nil_iff.1 hl.symm).1] using h
  | @point s t e es k h _ _ ih =>
    intro l m hl hn
    cases l with
    | nil => exact absurd rfl hn
    | cons x l =>
      simp only [List.cons_append, List.cons.injEq] at hl
      obtain ⟨rfl, hl⟩ := hl
      cases l with
      | nil => exact ⟨Machine.interleave t, by simp [Run.passes], by simpa using h.interleave⟩
      | cons y l =>
        obtain ⟨u, hu, g⟩ := ih (y :: l) m hl (by simp)
        exact ⟨u, by simp [Run.passes, hu], by simpa using h.interleave.trans g⟩

theorem prepend {s t : State} {e : List Event} (h : OwnerRan s t e) (he : Stretch e) {r : Run α}
    {es : List (List Event)} (g : Staged t r ([] :: es)) : Staged s r (e :: es) := by
  cases g with
  | done a g _ => exact .done a (by simpa using h.trans g) he
  | point k g _ n => exact .point k (by simpa using h.trans g) he n

/-- One run after another; the second begins with no event of its own. -/
theorem andThen {f : α → State → Run β} (h : Staged s r es)
    (g : ∃ fs, Staged r.finish.2 (f r.finish.1 r.finish.2) ([] :: fs)) : ∃ gs, Staged s (r.andThen f) gs := by
  induction h with
  | done a h he =>
    obtain ⟨fs, g⟩ := g
    exact ⟨_, prepend h he g⟩
  | point k h he _ ih =>
    obtain ⟨gs, g⟩ := ih g
    exact ⟨_, .point _ h he g⟩

/-- A run that ends where it begins. -/
theorem still (a : α) (s : State) : Staged s (.done a s) [[]] := .done a (.refl s) .none

end Staged

/-! ## The states a field write passes -/

theorem Run.andThen_assoc {α β γ : Type} (r : Run α) (f : α → State → Run β) (g : β → State → Run γ) :
    (r.andThen f).andThen g = r.andThen fun a u => (f a u).andThen g := by
  induction r with
  | done a s => rfl
  | point s next ih => simp only [Run.andThen, ih]

/-- A field write, whatever comes after it. -/
theorem writeFieldRun_andThen {α : Type} {n : RegName} {f : Field} {v : Raw} {s : State} {inp : List Byte}
    (h : s.answers (readOut s.cfg n) inp) (g : Bool → State → Run α) :
    ((writeFieldRun n f v s).andThen g).passes =
      between n s :: (g (writeField n f v s).1 (writeField n f v s).2).passes := by
  have e := busRead_ok h
  rw [← writeFieldRun_finish]
  unfold writeFieldRun
  simp only [e, Run.andThen, Run.passes, Run.finish_point, Run.finish_done, between]

/-! ## The operations -/

theorem ofDecoder_transfer {e : Event} (h : Event.isTransfer e = true) : Event.ofDecoder e = false := by
  cases e <;> first | rfl | cases h

theorem busRead_staged (n : RegName) (s : State) : ∃ e, OwnerRan s (busRead n s).2 e ∧ Stretch e := by
  rcases busRead_cases n s with ⟨inp, -, e⟩ | ⟨-, e⟩ <;> rw [e]
  · exact ⟨_, ((s.bracketOk_bracketed _ _).doing (by simp) rfl rfl).ran, .bracket _ _ (by simp [Event.isTransfer])⟩
  · exact ⟨_, ((s.bracketFail_bracketed _).doing (by simp) rfl rfl).ran, .bracket _ _ (by simp [Event.isTransfer])⟩

theorem busWrite_staged (n : RegName) (v : Raw) (s : State) : ∃ e, OwnerRan s (busWrite n v s).2 e ∧ Stretch e := by
  rcases busWrite_cases n v s with ⟨inp, -, e⟩ | ⟨-, e⟩ <;> rw [e]
  · exact ⟨_, (((s.bracketOk_bracketed _ _).mirror _).doing (by simp) rfl rfl).ran,
      .bracket _ _ (by simp [Event.isTransfer])⟩
  · exact ⟨_, ((s.bracketFail_bracketed _).doing (by simp) rfl rfl).ran, .bracket _ _ (by simp [Event.isTransfer])⟩

theorem writeFieldRun_staged (n : RegName) (f : Field) (v : Raw) (s : State) :
    ∃ es, Staged s (writeFieldRun n f v s) es := by
  obtain ⟨e, h, he⟩ := busRead_staged n s
  unfold writeFieldRun
  split
  · exact ⟨_, .done _ h he⟩
  · obtain ⟨e', h', he'⟩ := busWrite_staged n (insertField f _ v) (interleave (busRead n s).2)
    exact ⟨_, .point _ h he (.done _ h' he')⟩

theorem raise_staged (c : Code) (s : State) : ∃ es, Staged s (Run.raise c s) es := ⟨_, .still _ s⟩

theorem read_staged {g : Raw → Raw} (n : RegName) (s : State) :
    ∃ es, Staged s (.ofRead ((busRead n s).1.map g, (busRead n s).2)) es := by
  obtain ⟨e, h, he⟩ := busRead_staged n s
  exact ⟨_, .done _ h he⟩
theorem read_staged' (n : RegName) (s : State) : ∃ es, Staged s (.ofRead (busRead n s)) es := by
  obtain ⟨e, h, he⟩ := busRead_staged n s
  exact ⟨_, .done _ h he⟩

theorem copy_ran (p : PipeNo) (update : Pipe → Pipe) (r : Bool × State) :
    OwnerRan r.2 (copyIfWritten p update r).2 [] := by
  unfold copyIfWritten
  split
  · exact
      { events := by simp
        replies := rfl
        time := by simp [waitTotal]
        rest := ⟨rfl, .inl rfl, le_rfl, le_rfl⟩
        quiet := fun _ => by simp [QuietDoing, State.setPipe] }
  · exact .refl _

theorem onPipe_staged {a : Byte} {s : State} {k : PipeNo → Run Response} (h : ∀ p, ∃ es, Staged s (k p) es) :
    ∃ es, Staged s (Run.onPipe a s k) es := by
  unfold Run.onPipe
  split
  · exact raise_staged _ _
  · exact h _

theorem writeCopy_staged (n : RegName) (v : Raw) (p : PipeNo) (update : Pipe → Pipe) (s : State) :
    ∃ es, Staged s (.ofWrite (copyIfWritten p update (busWrite n v s))) es := by
  obtain ⟨e, h, he⟩ := busWrite_staged n v s
  exact ⟨_, .done _ (by simpa using h.trans (copy_ran p update (busWrite n v s))) he⟩

theorem psetFlagRun_staged (a : Byte) (v : Raw) (role : PipeNo → FieldRef) (update : Bool → Pipe → Pipe) (s : State) :
    ∃ es, Staged s (psetFlagRun a v role update s) es := by
  refine onPipe_staged fun p => ?_
  split
  · obtain ⟨es, h⟩ := writeFieldRun_staged (.tab (role p).reg) (s.cfg.roleField (role p)) v s
    refine h.andThen ⟨[], .done _ ?_ .none⟩
    exact copy_ran _ _ (_, _)
  · exact raise_staged _ _

/-! ## The transitions -/

theorem ce_ran (l : Level) (s : State) : OwnerRan s (s.driveCe l) [.ce l] := (ce_doing l s).ran
theorem waitStatus_ran (d : Nat) (t : Status) (s : State) : OwnerRan s ((s.wait d).setStatus t) [.wait d] := by
  simpa using ((wait_doing d s).trans (status_doing t _)).ran

theorem runPU_staged (s : State) : ∃ es, Staged s (runPU s) es := by
  obtain ⟨es, h⟩ := writeFieldRun_staged (.tab s.cfg.role.pwrUp.reg) (s.cfg.roleField s.cfg.role.pwrUp) 1 s
  refine h.andThen ?_
  split
  · exact ⟨_, .point _ (.refl _) .none (.point _ (ce_ran .low _) (.one _ rfl)
      (.done _ (waitStatus_ran _ _ _) (.one _ rfl)))⟩
  · exact ⟨_, .still _ _⟩
theorem runPD_staged (s : State) : ∃ es, Staged s (runPD s) es := by
  obtain ⟨es, h⟩ := writeFieldRun_staged (.tab s.cfg.role.pwrUp.reg) (s.cfg.roleField s.cfg.role.pwrUp) 0 s
  refine h.andThen ?_
  split
  · exact ⟨_, .done _ (status_doing .powerDown _).ran .none⟩
  · exact ⟨_, .still _ _⟩
theorem runRX_staged (s : State) : ∃ es, Staged s (runRX s) es := by
  obtain ⟨es, h⟩ := writeFieldRun_staged (.tab s.cfg.role.primRx.reg) (s.cfg.roleField s.cfg.role.primRx) 1 s
  refine h.andThen ?_
  split
  · exact ⟨_, .point _ (.refl _) .none (.done _
      (by simpa using ((ce_doing .high _).trans (status_doing .rx _)).ran) (.one _ rfl))⟩
  · exact ⟨_, .still _ _⟩
theorem runTX_staged (s : State) : ∃ es, Staged s (runTX s) es := by
  obtain ⟨es, h⟩ := writeFieldRun_staged (.tab s.cfg.role.primRx.reg) (s.cfg.roleField s.cfg.role.primRx) 0 s
  refine h.andThen ?_
  split
  · exact ⟨_, .point _ (.refl _) .none (.point _ (ce_ran .high _) (.one _ rfl)
      (.done _ (waitStatus_ran _ _ _) (.one _ rfl)))⟩
  · exact ⟨_, .still _ _⟩
theorem runSB_staged (s : State) : ∃ es, Staged s (runSB s) es :=
  ⟨_, .point _ (ce_ran .low _) (.one _ rfl) (.done _ (waitStatus_ran _ _ _) (.one _ rfl))⟩
theorem runSBPD_staged (s : State) : ∃ es, Staged s (runSBPD s) es := by
  obtain ⟨es, h⟩ := runSB_staged s
  obtain ⟨fs, g⟩ := runPD_staged (interleave (runSB s).finish.2)
  exact h.andThen ⟨fs, .point _ (.refl _) .none g⟩

theorem gotoRun_staged (target : Status) (s : State) : ∃ es, Staged s (gotoRun target s) es := by
  unfold gotoRun
  split
  · exact raise_staged _ _
  · rename_i edge h
    have key : ∃ es, Staged s (edge s) es := by
      unfold transition at h
      split at h <;> cases h
      · exact runPU_staged s
      · exact runPD_staged s
      · exact runRX_staged s
      · exact runTX_staged s
      all_goals first | exact runSB_staged s | exact runSBPD_staged s
    obtain ⟨es, g⟩ := key
    exact g.andThen ⟨[], .still _ _⟩

/-! ## DRAIN -/

theorem rxPop_staged (s : State) : ∃ e, OwnerRan s (rxPop s).2 e ∧ Stretch e := by
  obtain ⟨body, hb, h⟩ := popBody_body s.select
  have hs : (rxPop s).2 = { s with
      hist := s.hist ++ bracketEvents s.cfg body, csn := some .high
      busFault := s.busFault || anyFailure body, now := (rxPop s).2.now, draws := (rxPop s).2.draws
      device := (rxPop s).2.device } := by
    simp only [rxPop]
    rw [h]
    simp [State.deselect, State.select, State.driveCsn, State.wait, State.emit, bracketEvents]
  have ht : s.now + 2 * s.cfg.tCS ≤ (rxPop s).2.now := by
    simp only [rxPop]
    rw [h]
    simp
    omega
  have ev : ownerEvents (bracketEvents s.cfg body) = bracketEvents s.cfg body := by
    rw [ownerEvents, List.filter_eq_self]
    intro e he
    simp only [bracketEvents, List.mem_append, List.mem_cons, List.not_mem_nil, or_false] at he
    rcases he with ((rfl | rfl) | he) | (rfl | rfl) <;> first | rfl | simp [ofDecoder_transfer (hb e he)]
  have wt : waitTotal body = 0 := by
    clear h hs ht ev
    induction body with
    | nil => rfl
    | cons e l ih =>
      have he := hb e (by simp)
      have := ih fun x hx => hb x (by simp [hx])
      cases e <;> first | exact (by simpa [waitTotal] using this) | cases he
  refine ⟨_, ?_, .bracket s.cfg body hb⟩
  exact
    { events := by rw [hs, ownerEvents_append, ev]
      replies := State.repliesOn_congr (by rw [hs]) _
      time := by
        rw [bracketEvents, waitTotal_append, waitTotal_append, wt]
        simp [waitTotal]
        omega
      rest := ⟨by rw [hs], .inl (by rw [hs]), by rw [hs], by omega⟩
      quiet := fun _ => by rw [hs]; rfl }

theorem drainLoopRun_staged (k : Nat) : ∀ (n : Nat) (s : State), ∃ es, Staged s (drainLoopRun k n s) es := by
  induction k with
  | zero => exact fun n s => ⟨_, .still _ s⟩
  | succ k ih =>
    intro n s
    obtain ⟨e, h, he⟩ := rxPop_staged s
    unfold drainLoopRun
    split
    · exact ⟨_, .done _ h he⟩
    · exact ⟨_, .done _ h he⟩
    · exact ⟨_, .done _ h he⟩
    · exact ⟨_, .done _ h he⟩
    · rename_i p bytes _
      obtain ⟨es, g⟩ := ih (n + 1) (interleave (enqueue p bytes (interleave (rxPop s).2)).2)
      refine ⟨_, .point _ h he (.point _ (enqueue_ran p bytes _) ?_ g)⟩
      split
      · exact .none
      · exact .one _ rfl

/-! ## All operations -/

/-- Every operation that uses the bus or a pin is a run; the states it passes are those of `passes`. -/
theorem passes_staged {i : Instr} (h : Instr.atBoundary i = true) (s : State) :
    ∃ (r : Run Response) (es : List (List Event)),
      exec i s = .next r.answer ∧ passes i s = r.passes ∧ Staged s r es := by
  have mk : ∀ {r : Run Response}, exec i s = .next r.answer → passes i s = r.passes → (∃ es, Staged s r es) →
      ∃ (r : Run Response) (es : List (List Event)),
        exec i s = .next r.answer ∧ passes i s = r.passes ∧ Staged s r es :=
    fun he hp ⟨es, hs⟩ => ⟨_, es, he, hp, hs⟩
  cases i <;> try cases h
  case get a =>
    refine mk (r := getRun a s) rfl rfl ?_
    unfold getRun
    split
    · exact raise_staged _ _
    · exact read_staged' _ _
  case set a v =>
    refine mk (r := setRun a v s) rfl rfl ?_
    unfold setRun
    split
    · exact raise_staged _ _
    · split
      · obtain ⟨e, h, he⟩ := busWrite_staged _ v s
        exact ⟨_, .done _ h he⟩
      · exact raise_staged _ _
  case getf a b =>
    refine mk (r := getfRun a b s) rfl rfl ?_
    unfold getfRun
    split
    · exact raise_staged _ _
    · split
      · exact raise_staged _ _
      · exact read_staged _ _
  case setf a b v =>
    refine mk (r := setfRun a b v s) rfl rfl ?_
    unfold setfRun
    split
    · exact raise_staged _ _
    · split
      · exact raise_staged _ _
      · split
        · exact raise_staged _ _
        · split
          · obtain ⟨es, h⟩ := writeFieldRun_staged _ _ v s
            exact h.andThen ⟨[], .still _ _⟩
          · exact raise_staged _ _
  case getch => exact mk (r := getchRun s) rfl rfl (read_staged' _ _)
  case setch v =>
    refine mk (r := setchRun v s) rfl rfl ?_
    unfold setchRun
    split
    · exact raise_staged _ _
    · obtain ⟨es, h⟩ := writeFieldRun_staged _ _ v s
      exact h.andThen ⟨[], .still _ _⟩
  case goto target => exact mk (r := gotoRun target s) rfl rfl (gotoRun_staged _ _)
  case psetaddr a v =>
    exact mk (r := psetaddrRun a v s) rfl rfl (onPipe_staged fun p => writeCopy_staged _ _ _ _ _)
  case psetlen a v =>
    refine mk (r := psetlenRun a v s) rfl rfl (onPipe_staged fun p => ?_)
    split
    · exact writeCopy_staged _ _ _ _ _
    · exact raise_staged _ _
  case psetaa a v => exact mk (r := psetaaRun a v s) rfl rfl (psetFlagRun_staged _ _ _ _ _)
  case psetdpl a v => exact mk (r := psetdplRun a v s) rfl rfl (psetFlagRun_staged _ _ _ _ _)
  case pseten a v => exact mk (r := psetenRun a v s) rfl rfl (psetFlagRun_staged _ _ _ _ _)
  case pgetaddr a => exact mk (r := pgetaddrRun a s) rfl rfl (onPipe_staged fun _ => read_staged' _ _)
  case pgetlen a => exact mk (r := pgetlenRun a s) rfl rfl (onPipe_staged fun _ => read_staged' _ _)
  case pgetaa a => exact mk (r := pgetaaRun a s) rfl rfl (onPipe_staged fun _ => read_staged _ _)
  case pgetdpl a => exact mk (r := pgetdplRun a s) rfl rfl (onPipe_staged fun _ => read_staged _ _)
  case pgeten a => exact mk (r := pgetenRun a s) rfl rfl (onPipe_staged fun _ => read_staged _ _)
  case drain b =>
    refine mk (r := drainRun b s) rfl rfl ?_
    unfold drainRun
    split
    · exact drainLoopRun_staged _ _ _
    all_goals exact raise_staged _ _

/-- The last state passed is the one at the end of the run. -/
theorem Run.passes_getLast {α : Type} (r : Run α) : r.passes.getLast? = some r.finish.2 := by
  induction r with
  | done a s => rfl
  | point s next ih =>
    rw [Run.passes, List.getLast?_cons, ih]
    simp

theorem passes_still {i : Instr} (h : Instr.atBoundary i = false) (s : State) : passes i s = [] := by
  cases i <;> first | rfl | cases h

/-- A reset keeps the configuration. -/
theorem passes_cfg {i : Instr} {s u : State} (h : u ∈ passes i s) : u.cfg = s.cfg := by
  cases hb : Instr.atBoundary i with
  | false => rw [passes_still hb] at h; cases h
  | true =>
    obtain ⟨r, es, -, hp, hs⟩ := passes_staged hb s
    obtain ⟨l, m, -, g⟩ := hs.passed u (hp ▸ h)
    rw [g.rest.rest]

theorem getD_passes_cfg (i : Instr) (s : State) (k : Nat) : ((passes i s).getD k s).cfg = s.cfg := by
  rw [List.getD_eq_getElem?_getD]
  cases h : (passes i s)[k]? with
  | none => rfl
  | some u => exact passes_cfg (List.mem_of_getElem? h)

/-- What a reset leaves (R33; log entry 11). -/
theorem construct_from (u : State) : ResetFrom u u.construct where
  table i r hr := by
    simp [State.construct, State.resetFor, Config.defaults, RegFile.get, hr, RegDesc.dflt, List.foldl_map]
  pseudo p := by simp [State.construct, State.resetFor, Config.defaults, RegFile.get]
  txAddr := rfl
  status := rfl
  pins := ⟨rfl, rfl⟩
  pipes p := by simp [State.construct, State.resetFor, Pipe.initial]
  dec := by cases h : u.cfg.decPipe <;> simp [State.construct, State.resetFor, h]
  decoder := ⟨rfl, rfl⟩
  life := rfl
  busFault := rfl
  hist := rfl
  ports := ⟨rfl, rfl⟩
  cfg := rfl
  device := rfl
  time := ⟨rfl, rfl⟩
  replies := rfl
  environment := ⟨rfl, rfl, rfl, rfl⟩

/-! ## One step -/

/-- One step: a reset, a sequence of moves, or a refusal. Only a GOTO of the owner moves the status and chip-enable. -/
theorem step_moves (s : State) :
    (∃ u : State, step s = .next u.construct ∧ u.cfg = s.cfg ∧
      ((∃ rest, s.inputs = .reset :: rest) ∨ ∃ w fr k rest, s.inputs = .ownerReset w fr k :: rest)) ∨
    (∃ t, step s = .next t ∧ Moves false s t) ∨
    (∃ t w fr target rest, s.inputs = .owner w fr :: rest ∧ decodeWord w fr = .ok (.goto target) ∧
      step s = .next t ∧ Moves true s t) ∨
    ∃ r, step s = .refused r := by
  cases hin : s.inputs with
  | nil => exact .inr (.inl ⟨s, by simp [step, fetch, hin], .refl⟩)
  | cons i rest =>
    have hf : fetch s = fetchInput i { s with inputs := rest } := by rw [fetch, hin]
    have hst : step s = match fetchInput i { s with inputs := rest } with
        | .run i s' => exec i s'
        | .done s' => .next s'
        | .refuse r => .refused r := by
      show (match fetch s with
        | .run i s' => exec i s'
        | .done s' => .next s'
        | .refuse r => .refused r) = _
      rw [hf]
    rw [hst]
    clear hst
    have h0 : Moves false s { s with inputs := rest } := .one (.inputs rest)
    cases i with
    | reset => exact .inl ⟨_, rfl, rfl, .inl ⟨rest, rfl⟩⟩
    | ownerReset w fr k =>
      simp only [fetchInput, fetchOwnerReset]
      rcases fetchCommand_cases .H w fr { s with inputs := rest } with ⟨_, e⟩ | ⟨_, r, e⟩ | ⟨_, _, i, _, e⟩ <;> rw [e]
      · exact .inr (.inr (.inr ⟨_, rfl⟩))
      · exact .inl ⟨_, rfl, rfl, .inr ⟨w, fr, k, rest, rfl⟩⟩
      · exact .inl ⟨_, rfl, getD_passes_cfg _ _ _, .inr ⟨w, fr, k, rest, rfl⟩⟩
    | pollH =>
      refine .inr (.inl ⟨_, rfl, h0.trans ?_⟩)
      unfold pollOwner
      simp only
      split
      · exact .refl
      · rename_i w hw
        exact (Moves.one (.port .H)).trans (recvwPoll_moves _ _ fun _ i => i.open_of_hold (by simp [hw]))
      · rename_i e he
        exact (Moves.one (.port .H)).trans (shutdown_moves _ _ fun i =>
          ⟨i.shutdownStop e he, i.open_of_hold (by simp [he])⟩)
    | act a =>
      have key : (∃ t, fetchAct a { s with inputs := rest } = .done t) ∨
          (∃ i t, fetchAct a { s with inputs := rest } = .run i t ∧ exec i t = .next (guestEffect i t)) ∨
          ∃ r, fetchAct a { s with inputs := rest } = .refuse r := by
        cases a with
        | consumer w =>
          rcases fetchCommand_C w { s with inputs := rest } with ⟨r, e⟩ | ⟨r, e⟩ | ⟨i, hi, e⟩
          · exact .inr (.inr ⟨r, e⟩)
          · exact .inl ⟨_, e⟩
          · refine .inr (.inl ⟨i, _, e, ?_⟩)
            cases i <;> try cases hi
            all_goals rfl
        | decoder =>
          rcases fetchDecoder_moves false { s with inputs := rest } with ⟨t, e, h⟩ | ⟨i, dp, e, _, hi⟩
          · exact .inl ⟨t, e⟩
          · refine .inr (.inl ⟨i, _, e, ?_⟩)
            rcases hi with ⟨x, rfl⟩ | ⟨x, rfl⟩ | ⟨x, rfl⟩ <;> rfl
        | pollC => exact .inl ⟨_, rfl⟩
        | time d => exact .inl ⟨_, rfl⟩
        | cancel p l => exact .inl ⟨_, rfl⟩
      have hm := runAct_moves false { s with inputs := rest } a
      simp only [fetchInput]
      rcases key with ⟨t, e⟩ | ⟨i, t, e, he⟩ | ⟨r, e⟩
      · rw [runAct, e] at hm
        rw [e]
        exact .inr (.inl ⟨t, rfl, h0.trans hm⟩)
      · rw [runAct, e] at hm
        rw [e]
        exact .inr (.inl ⟨_, he, h0.trans hm⟩)
      · rw [e]
        exact .inr (.inr (.inr ⟨r, rfl⟩))
    | owner w fr =>
      simp only [fetchInput]
      rcases fetchCommand_cases .H w fr { s with inputs := rest } with ⟨_, e⟩ | ⟨_, r, e⟩ | ⟨_, ho, i, hd, e⟩ <;> rw [e]
      · exact .inr (.inr (.inr ⟨_, rfl⟩))
      · exact .inr (.inl ⟨_, rfl, (h0.step (.port .H)).step (.respond r)⟩)
      · obtain ⟨t, he, hm⟩ := exec_moves (decodeWord_wf hd) (s := { s with inputs := rest, port := .H }) ho
        have h1 : Moves false s { s with inputs := rest, port := .H } := h0.step (.port .H)
        cases hg : Instr.isGoto i with
        | false => rw [hg] at hm; exact .inr (.inl ⟨t, he, h1.trans hm⟩)
        | true =>
          rw [hg] at hm
          cases i <;> try cases hg
          rename_i target
          exact .inr (.inr (.inl ⟨t, w, fr, target, rest, rfl, hd, he, (Moves.mono h1).trans hm⟩))

end Sys2Proof.Machine
end

