-- ==== Sys2Proof/Laws/PerInstr.lean ====
section
/-! SUPPORT. A family over all instructions: the bits of a well-formed instruction match its row of
spec/opcode_table.json. -/

namespace Sys2Proof.Laws.TableRow

open Sys2Proof

/-- The `mask` and `match` numbers of the instruction's row. -/
def row : Instr → Nat × Nat
  | .get _ => (0xFF00FFFFFFFFFFFF, 0x0100000000000000)
  | .set _ _ => (0xFF00FF0000000000, 0x0200000000000000)
  | .getf _ _ => (0xFF0000FFFFFFFFFF, 0x0300000000000000)
  | .setf _ _ _ => (0xFF00000000000000, 0x0400000000000000)
  | .getch => (0xFFFFFFFFFFFFFFFF, 0x0500000000000000)
  | .setch _ => (0xFFFFFF0000000000, 0x0600000000000000)
  | .goto _ => (0xFFFCFFFFFFFFFFFF, 0x1000000000000000)
  | .state => (0xFFFFFFFFFFFFFFFF, 0x1100000000000000)
  | .psetaddr _ _ => (0xFF00FF0000000000, 0x2000000000000000)
  | .psetlen _ _ => (0xFF00FF0000000000, 0x2100000000000000)
  | .psetaa _ _ => (0xFF00FF0000000000, 0x2200000000000000)
  | .psetdpl _ _ => (0xFF00FF0000000000, 0x2300000000000000)
  | .pseten _ _ => (0xFF00FF0000000000, 0x2400000000000000)
  | .pgetaddr _ => (0xFF00FFFFFFFFFFFF, 0x2800000000000000)
  | .pgetlen _ => (0xFF00FFFFFFFFFFFF, 0x2900000000000000)
  | .pgetaa _ => (0xFF00FFFFFFFFFFFF, 0x2A00000000000000)
  | .pgetdpl _ => (0xFF00FFFFFFFFFFFF, 0x2B00000000000000)
  | .pgeten _ => (0xFF00FFFFFFFFFFFF, 0x2C00000000000000)
  | .enq _ _ => (0xFF00C0FFFFFFFFFF, 0x3000000000000000)
  | .hasdata _ => (0xFF00FFFFFFFFFFFF, 0x3100000000000000)
  | .recv _ => (0xFF00FFFFFFFFFFFF, 0x3200000000000000)
  | .recvw _ _ => (0xFF00FE0000000000, 0x3300000000000000)
  | .drain _ => (0xFFFF00FFFFFFFFFF, 0x4000000000000000)
  | .dstop => (0xFFFFFFFFFFFFFFFF, 0x5000000000000000)
  | .shutdown => (0xFFFFFFFFFFFFFFFF, 0x5100000000000000)
  | .volume _ => (0xFF00, 0x7600)
  | .play _ => (0xFF00, 0x7000)
  | .track _ => (0xFF00, 0x7400)

/-- The encoder's bits, as the table numbers them (R66, R76). -/
def bits : Encoded → Nat
  | .word w _ => w.toNat
  | .wire frame => (frame.getD 0 0).toNat * 256 + (frame.getD 1 0).toNat

/-- A well-formed instruction's bits, masked by its row's mask, are its row's match (R75). -/
def Statement (i : Instr) : Prop := i.wf = true → bits (encode i) &&& (row i).1 = (row i).2

theorem word_and (op a b m1 m2 m3 : Byte) (v m4 : Raw) :
    (CmdWord.mk op a b v).toNat &&& (CmdWord.mk m1 m2 m3 m4).toNat =
      (CmdWord.mk (op &&& m1) (a &&& m2) (b &&& m3) (v &&& m4)).toNat := by
  rw [← BitVec.toNat_and]
  simp only [CmdWord.mk]
  rw [← BitVec.and_append, ← BitVec.and_append, ← BitVec.and_append]

theorem byte_eq (b : Byte) : b.toNat * 256 &&& 0xFF00 = b.toNat * 256 := by
  revert b; decide

theorem wire_and (c arg : Byte) : c.toNat * 256 + arg.toNat &&& 0xFF00 = c.toNat * 256 := by
  have h := arg.isLt
  have : c.toNat * 256 + arg.toNat = c.toNat * 256 ||| arg.toNat := by
    rw [show (256 : Nat) = 2 ^ 8 from rfl, ← Nat.shiftLeft_eq, Nat.shiftLeft_add_eq_or_of_lt (by omega)]
  rw [this, Nat.and_or_distrib_right, byte_eq]
  have : ∀ x : Byte, x.toNat &&& 0xFF00 = 0 := by decide
  rw [this, Nat.or_zero]

theorem length_and {n : Nat} (h : n ≤ 32) : BitVec.ofNat 8 n &&& 0xC0 = 0 := by
  interval_cases n <;> rfl

theorem get (x : Byte) : Statement (.get x) := fun _ =>
  (word_and _ _ _ 0xFF 0x00 0xFF _ 0xFFFFFFFFFF).trans (by simp [Op.code, row, CmdWord.mk])
theorem set (x : Byte) (y : Raw) : Statement (.set x y) := fun _ =>
  (word_and _ _ _ 0xFF 0x00 0xFF _ 0x0000000000).trans (by simp [Op.code, row, CmdWord.mk])
theorem getf (x : Byte) (y : Byte) : Statement (.getf x y) := fun _ =>
  (word_and _ _ _ 0xFF 0x00 0x00 _ 0xFFFFFFFFFF).trans (by simp [Op.code, row, CmdWord.mk])
theorem setf (x : Byte) (y : Byte) (z : Raw) : Statement (.setf x y z) := fun _ =>
  (word_and _ _ _ 0xFF 0x00 0x00 _ 0x0000000000).trans (by simp [Op.code, row, CmdWord.mk])
theorem getch : Statement .getch := fun _ => rfl
theorem setch (x : Raw) : Statement (.setch x) := fun _ =>
  (word_and _ _ _ 0xFF 0xFF 0xFF _ 0x0000000000).trans (by simp [Op.code, row, CmdWord.mk])
theorem goto (x : Status) : Statement (.goto x) := fun _ => by cases x <;> rfl
theorem state : Statement .state := fun _ => rfl
theorem psetaddr (x : Byte) (y : Raw) : Statement (.psetaddr x y) := fun _ =>
  (word_and _ _ _ 0xFF 0x00 0xFF _ 0x0000000000).trans (by simp [Op.code, row, CmdWord.mk])
theorem psetlen (x : Byte) (y : Raw) : Statement (.psetlen x y) := fun _ =>
  (word_and _ _ _ 0xFF 0x00 0xFF _ 0x0000000000).trans (by simp [Op.code, row, CmdWord.mk])
theorem psetaa (x : Byte) (y : Raw) : Statement (.psetaa x y) := fun _ =>
  (word_and _ _ _ 0xFF 0x00 0xFF _ 0x0000000000).trans (by simp [Op.code, row, CmdWord.mk])
theorem psetdpl (x : Byte) (y : Raw) : Statement (.psetdpl x y) := fun _ =>
  (word_and _ _ _ 0xFF 0x00 0xFF _ 0x0000000000).trans (by simp [Op.code, row, CmdWord.mk])
theorem pseten (x : Byte) (y : Raw) : Statement (.pseten x y) := fun _ =>
  (word_and _ _ _ 0xFF 0x00 0xFF _ 0x0000000000).trans (by simp [Op.code, row, CmdWord.mk])
theorem pgetaddr (x : Byte) : Statement (.pgetaddr x) := fun _ =>
  (word_and _ _ _ 0xFF 0x00 0xFF _ 0xFFFFFFFFFF).trans (by simp [Op.code, row, CmdWord.mk])
theorem pgetlen (x : Byte) : Statement (.pgetlen x) := fun _ =>
  (word_and _ _ _ 0xFF 0x00 0xFF _ 0xFFFFFFFFFF).trans (by simp [Op.code, row, CmdWord.mk])
theorem pgetaa (x : Byte) : Statement (.pgetaa x) := fun _ =>
  (word_and _ _ _ 0xFF 0x00 0xFF _ 0xFFFFFFFFFF).trans (by simp [Op.code, row, CmdWord.mk])
theorem pgetdpl (x : Byte) : Statement (.pgetdpl x) := fun _ =>
  (word_and _ _ _ 0xFF 0x00 0xFF _ 0xFFFFFFFFFF).trans (by simp [Op.code, row, CmdWord.mk])
theorem pgeten (x : Byte) : Statement (.pgeten x) := fun _ =>
  (word_and _ _ _ 0xFF 0x00 0xFF _ 0xFFFFFFFFFF).trans (by simp [Op.code, row, CmdWord.mk])
theorem enq (x : Byte) (y : Frame) : Statement (.enq x y) := fun h => by
  have h : y.length ≤ 32 := by simpa [Instr.wf] using h
  refine (word_and _ _ _ 0xFF 0x00 0xC0 _ 0xFFFFFFFFFF).trans ?_
  rw [length_and h]
  simp [Op.code, row, CmdWord.mk]
theorem hasdata (x : Byte) : Statement (.hasdata x) := fun _ =>
  (word_and _ _ _ 0xFF 0x00 0xFF _ 0xFFFFFFFFFF).trans (by simp [Op.code, row, CmdWord.mk])
theorem recv (x : Byte) : Statement (.recv x) := fun _ =>
  (word_and _ _ _ 0xFF 0x00 0xFF _ 0xFFFFFFFFFF).trans (by simp [Op.code, row, CmdWord.mk])
theorem recvw (x : Byte) (y : Option Raw) : Statement (.recvw x y) := fun _ => by
  cases y <;> exact (word_and _ _ _ 0xFF 0x00 0xFE _ 0x0000000000).trans (by simp [Op.code, row, CmdWord.mk])
theorem drain (x : Byte) : Statement (.drain x) := fun _ =>
  (word_and _ _ _ 0xFF 0xFF 0x00 _ 0xFFFFFFFFFF).trans (by simp [Op.code, row, CmdWord.mk])
theorem dstop : Statement .dstop := fun _ => rfl
theorem shutdown : Statement .shutdown := fun _ => rfl
theorem volume (x : Byte) : Statement (.volume x) := fun _ => (wire_and _ x).trans (by simp [letterV, row])
theorem play (x : Byte) : Statement (.play x) := fun _ => (wire_and _ x).trans (by simp [letterP, row])
theorem track (x : Byte) : Statement (.track x) := fun _ => (wire_and _ x).trans (by simp [letterT, row])

end Sys2Proof.Laws.TableRow
end

