-- ==== Sys2Proof/Laws/Responses.lean ====
section
/-! SUPPORT. The pipe number check, and a register read with its response (spec/42_rxpipeset.md R125;
spec/40_registerfile.md R90, R92). -/

namespace Sys2Proof.Machine

open Sys2Proof

theorem checkPipe_none {a : Byte} (h : 6 ≤ a.toNat) : checkPipe a = none := by
  rw [checkPipe, dif_neg (by omega)]

theorem checkPipe_some {a : Byte} {p : PipeNo} (h : a.toNat = p) : checkPipe a = some p := by
  rw [checkPipe, dif_pos (by have := p.isLt; omega)]
  exact congrArg some (Fin.ext h)

theorem onPipe_none {a : Byte} (h : 6 ≤ a.toNat) (s : State) (k : PipeNo → State) :
    onPipe a s k = s.raise .invalidConfiguration := by simp [onPipe, checkPipe_none h]

theorem onPipe_some {a : Byte} {p : PipeNo} (h : a.toNat = p) (s : State) (k : PipeNo → State) :
    onPipe a s k = k p := by simp [onPipe, checkPipe_some h]

/-- A register read that succeeded, with what is answered of its value. -/
theorem respondRead_ok {s : State} {n : RegName} {inp : List Byte} (g : Raw → Raw)
    (h : s.answers (readBytes s.cfg n) inp) :
    ∃ t, respondRead ((busRead n s).1.map g, (busRead n s).2) = t ∧
      OneBracket s t (.xfer (readBytes s.cfg n) inp) (.okay (g (assemble inp.tail))) ∧
      t.mirror = s.mirror ∧ t.busFault = s.busFault := by
  rw [busRead_ok h]
  exact ⟨_, rfl, (s.bracketOk_bracketed _ _).respond (by simp) _, by simp [respondRead], by simp [respondRead]⟩

/-- A register read that failed. -/
theorem respondRead_fail {s : State} {n : RegName} (g : Raw → Raw) (h : s.fails (readBytes s.cfg n)) :
    ∃ t, respondRead ((busRead n s).1.map g, (busRead n s).2) = t ∧
      OneBracket s t (.xferFail (readBytes s.cfg n)) (.ofCode .busFault 0) ∧
      t.mirror = s.mirror ∧ t.busFault = true := by
  rw [busRead_fail h]
  exact ⟨_, rfl, (s.bracketFail_bracketed _).respond (by simp) _, by simp [respondRead, State.raise_eq],
    by simp [respondRead, State.raise_eq]⟩

end Sys2Proof.Machine
end

