-- ==== Sys2Proof/Tests/Slice0.lean ====
section
/-! SUPPORT. Tests of the model, each checked by evaluation: well-formedness refuses ill-formed terms; words written
out from the encoding of spec/30_encoding.md decode to the operation they stand for; one step per operation against
the vectors of spec/95_test_vectors.md (the ids V, T, Q, D, W are that file's); and a witness of the hypotheses of
every statement, at the boundaries where its clauses meet. -/

namespace Sys2Proof.Tests

open Sys2Proof Sys2Proof.Machine

/-! ## Small states -/

/-- Reset, with these answers still to come from the device. -/
def scripted (l : List Answer) : State := { State.reset with device := .scripted l }

/-- Reset, with RefDev at the far end of the bus. -/
def withRefDev (rx : List (Nat × Frame)) : State :=
  { State.reset with device := .refDev (RefDev.initial Config.ref rx) }

/-- The recorded status Rx, pipe 0 configured for frames of 2 bytes. -/
def inRx (device : Device) : State :=
  { State.reset with
    status := .rx, ce := some .high, device := device
    pipe := Vector.replicate 6 { Pipe.initial with len := some 2 } }

/-- Pipe 2 holds these frames. -/
def queued (frames : List Frame) : State :=
  { State.reset with pipe := Vector.replicate 6 { Pipe.initial with q := frames } }

/-- The next turn is this input. -/
def turn (i : Input) (s : State) : State := { s with inputs := [i] }

/-- Four frames, REF's capacity. -/
def four : List Frame := [[0x10, 0], [0x11, 1], [0x12, 2], [0x13, 3]]

/-- The operation ends with this response and emitted these events. -/
def gives (i : Instr) (s : State) (r : Response) (evs : List Event) : Bool :=
  match exec i s with
  | .next t => t.replies = s.replies ++ [(s.port, r)] && t.hist = s.hist ++ evs
  | .fault _ => false
  | .refused _ => false

/-- After the operation this holds. -/
def leaves (i : Instr) (s : State) (p : State → Bool) : Bool :=
  match exec i s with
  | .next t => p t
  | .fault _ => false
  | .refused _ => false

/-- After one step this holds. -/
def stepLeaves (s : State) (p : State → Bool) : Bool :=
  match step s with
  | .next t => p t
  | .fault _ => false
  | .refused _ => false

/-- The events of one bracket in REF. -/
abbrev bracket (body : List Event) : List Event := bracketEvents Config.ref body

/-! ## Well-formedness -/

theorem test_wf_enq_32_bytes : (Instr.enq 0 (List.replicate 32 0)).wf = true := by decide
theorem test_wf_enq_33_bytes_refused : (Instr.enq 0 (List.replicate 33 0)).wf = false := by decide
theorem test_wf_ref : Config.ref.wf = true := by decide

/-- Two registers of one name (R16). -/
theorem test_wf_names_refused :
    { Config.ref with table := byteReg "CD" 0x18 [] :: Config.ref.table }.tableWf = false := by decide
/-- Two registers at one address (R16). -/
theorem test_wf_addresses_refused :
    { Config.ref with table := Config.ref.table ++ [byteReg "X" 0x0A []] }.tableWf = false := by decide
/-- A field beyond its register, a field of width 0, a default that does not fit, two fields that share a bit, two of
one name (R15, R16). -/
theorem test_wf_field_refused :
    Field.wf .one (bits "F" 7 2 0) = false ∧ Field.wf .one (bits "F" 7 1 0) = true ∧
    Field.wf .one (bits "F" 0 0 0) = false ∧ Field.wf .one (bits "F" 0 2 4) = false ∧
    (byteReg "R" 0 [bits "F" 0 4 0, bits "G" 3 4 0]).wf = false ∧
    (byteReg "R" 0 [bits "F" 0 4 0, bits "G" 4 4 0]).wf = true ∧
    (byteReg "R" 0 [bits "F" 0 4 0, bits "F" 4 4 0]).wf = false := by decide
/-- A `plusOne` field that no role names (R16). -/
theorem test_wf_plus_one_refused :
    { Config.ref with role := { Config.ref.role with crcLen := ⟨0, 3⟩ } }.plusOneWf = false := by decide
/-- A role that names no field; one whose field is read-only; a pipe-number field that is not 3 bits wide (R17). -/
theorem test_wf_role_refused :
    { Config.ref with role := { Config.ref.role with pwrUp := ⟨0, 9⟩ } }.roleWf = false ∧
    { Config.ref with role := { Config.ref.role with primRx := ⟨7, 0⟩ } }.roleWf = false ∧
    { Config.ref with role := { Config.ref.role with pipeNo := ⟨7, 2⟩ } }.roleWf = false := by decide
/-- The payload-read command equal to a register read (R78); a mapped address without a command. -/
theorem test_wf_commands_refused :
    { Config.ref with rxpl := 0x05 }.commandsWf = false ∧
    { Config.ref with rcmd := [] }.commandsWf = false := by decide
/-- A capacity of 0; `RF_CH_MAX` of 39 and of 200 (R5). -/
theorem test_wf_bounds_refused :
    { Config.ref with cap := Vector.replicate 6 0 }.boundsWf = false ∧
    { Config.ref with rfChMax := 39 }.boundsWf = false ∧ { Config.ref with rfChMax := 40 }.boundsWf = true ∧
    { Config.ref with rfChMax := 199 }.boundsWf = true ∧ { Config.ref with rfChMax := 200 }.boundsWf = false := by
  decide

/-! ## Decoding: `op` in bits 63:56, `a` in 55:48, `b` in 47:40, `v` in 39:0 (R66, R73) -/

theorem test_decode_get : decodeWord 0x0193000000000000 [] = .ok (.get 0x93) := by decide
theorem test_decode_set : decodeWord 0x0280000102030405 [] = .ok (.set 0x80 0x0102030405) := by decide
theorem test_decode_getf : decodeWord 0x0307010000000000 [] = .ok (.getf 7 1) := by decide
theorem test_decode_setf : decodeWord 0x040401000000000F [] = .ok (.setf 4 1 15) := by decide
theorem test_decode_getch : decodeWord 0x0500000000000000 [] = .ok .getch := by decide
theorem test_decode_setch : decodeWord 0x06000000000000C8 [] = .ok (.setch 200) := by decide
theorem test_decode_goto :
    decodeWord 0x1000000000000000 [] = .ok (.goto .powerDown) ∧
    decodeWord 0x1001000000000000 [] = .ok (.goto .standBy) ∧
    decodeWord 0x1002000000000000 [] = .ok (.goto .rx) ∧
    decodeWord 0x1003000000000000 [] = .ok (.goto .tx) := by decide
theorem test_decode_state : decodeWord 0x1100000000000000 [] = .ok .state := by decide
theorem test_decode_psetaddr : decodeWord 0x200100A1B2C3D4E5 [] = .ok (.psetaddr 1 0xA1B2C3D4E5) := by decide
theorem test_decode_psetlen : decodeWord 0x2105000000000020 [] = .ok (.psetlen 5 32) := by decide
theorem test_decode_psetaa : decodeWord 0x2203000000000001 [] = .ok (.psetaa 3 1) := by decide
theorem test_decode_psetdpl : decodeWord 0x2301000000000001 [] = .ok (.psetdpl 1 1) := by decide
theorem test_decode_pseten : decodeWord 0x2402000000000001 [] = .ok (.pseten 2 1) := by decide
theorem test_decode_pgetaddr : decodeWord 0x2801000000000000 [] = .ok (.pgetaddr 1) := by decide
theorem test_decode_pgetlen : decodeWord 0x2902000000000000 [] = .ok (.pgetlen 2) := by decide
theorem test_decode_pgetaa : decodeWord 0x2A03000000000000 [] = .ok (.pgetaa 3) := by decide
theorem test_decode_pgetdpl : decodeWord 0x2B04000000000000 [] = .ok (.pgetdpl 4) := by decide
theorem test_decode_pgeten : decodeWord 0x2C06000000000000 [] = .ok (.pgeten 6) := by decide
theorem test_decode_enq : decodeWord 0x3000020000000000 [0x76, 0xF6] = .ok (.enq 0 [0x76, 0xF6]) := by decide
theorem test_decode_hasdata : decodeWord 0x31FF000000000000 [] = .ok (.hasdata 255) := by decide
theorem test_decode_recv : decodeWord 0x3203000000000000 [] = .ok (.recv 3) := by decide
theorem test_decode_recvw :
    decodeWord 0x3301010000001388 [] = .ok (.recvw 1 (some 5000)) ∧
    decodeWord 0x3301000000000000 [] = .ok (.recvw 1 none) := by decide
theorem test_decode_drain : decodeWord 0x4000050000000000 [] = .ok (.drain 5) := by decide
theorem test_decode_dstop : decodeWord 0x5000000000000000 [] = .ok .dstop := by decide
theorem test_decode_shutdown : decodeWord 0x5100000000000000 [] = .ok .shutdown := by decide
/-- Byte 0 is the letter, byte 1 the argument, later bytes are ignored (R76, R77; W1, W14). -/
theorem test_decode_volume :
    decodeFrame [0x76, 0xF6] = .ok (.volume 0xF6) ∧ decodeFrame [0x76, 0xF6, 0x01] = .ok (.volume 0xF6) := by decide
theorem test_decode_play : decodeFrame [0x70, 0x00] = .ok (.play 0) := by decide
theorem test_decode_track : decodeFrame [0x74, 0xFE] = .ok (.track 0xFE) := by decide

/-- The words that section 2.10 of the test vectors rejects, ENQ's with a frame of the length they claim. -/
def illegalWords : List (CmdWord × DecodeError) :=
  [ (0x0000000000000000, .unassignedOp), (0x0700000000000000, .unassignedOp), (0x1200000000000000, .unassignedOp),
    (0x2500000000000000, .unassignedOp), (0x2D00000000000000, .unassignedOp), (0x3400000000000000, .unassignedOp),
    (0xFFFFFFFFFFFFFFFF, .unassignedOp), (0x0100000000000001, .reservedNonzero),
    (0x0100010000000000, .reservedNonzero), (0x0501000000000000, .reservedNonzero) ] ++
  [ (0x0600010000000028, .reservedNonzero), (0x1004000000000000, .reservedNonzero),
    (0x1001000000000001, .reservedNonzero), (0x1100000000000001, .reservedNonzero),
    (0x2100010000000002, .reservedNonzero), (0x2900000000000001, .reservedNonzero),
    (0x3000400000000000, .frameTooLong), (0x3000210000000000, .frameTooLong) ] ++
  [ (0x3000020000000001, .reservedNonzero), (0x3300020000000000, .reservedNonzero),
    (0x3300000000000005, .timeoutWithoutFlag), (0x4001000000000000, .reservedNonzero),
    (0x4000000000000001, .reservedNonzero), (0x5001000000000000, .reservedNonzero) ]

theorem test_decode_illegal_words :
    (illegalWords.all fun x => decodeWord x.1 (zeroFrame x.1) = .error x.2) = true := by decide

/-- W11, W12: too short, upper case, not ASCII. -/
theorem test_decode_illegal_frames :
    decodeFrame [] = .error .frameTooShort ∧ decodeFrame [0x76] = .error .frameTooShort ∧
    decodeFrame [0x56, 0x01] = .error .unknownLetter ∧ decodeFrame [0xF6, 0x01] = .error .unknownLetter := by decide

/-- The opcode table's numbering, and that the next step after reset runs the word. -/
theorem test_table_word :
    decodeTableWord 64 0x0280000102030405 = some (.set 0x80 0x0102030405) ∧
    decodeTableWord 16 0x76F6 = some (.volume 0xF6) ∧ decodeTableWord 64 0x0700000000000000 = none := by decide
theorem test_table_word_runs :
    (stepLeaves (State.reset.withFetchWord 64 0x1100000000000000) fun t => t.replies = [(.H, .okay 0)]) = true ∧
    (stepLeaves (State.reset.withFetchWord 16 0x76F6) fun t => t.hist = [.player (.incrVolume (-10))]) = true := by
  decide

/-! ## RegisterFile -/

/-- V1, V3: a 1-byte register, and a 5-byte one, least significant byte first. -/
theorem test_get :
    gives (.get 0) (withRefDev []) (.okay 0x08) (bracket [.xfer [0x00, 0x00] [0x0E, 0x08]]) = true ∧
    gives (.get 0x80) (withRefDev []) (.okay 0xE7E7E7E7E7)
      (bracket [.xfer [0x0A, 0, 0, 0, 0, 0] [0x0E, 0xE7, 0xE7, 0xE7, 0xE7, 0xE7]]) = true := by decide +kernel
/-- V2. -/
theorem test_get_unknown : gives (.get 0x0D) (withRefDev []) (.ofCode .unknownRegister 0) [] = true := by decide
/-- V7: the byte order of a write; the mirror. -/
theorem test_set :
    gives (.set 0x80 0x0102030405) (withRefDev []) (.okay 0)
      (bracket [.xfer [0x2A, 5, 4, 3, 2, 1] [0x0E, 0, 0, 0, 0, 0]]) = true ∧
    (leaves (.set 0x80 0x0102030405) (withRefDev []) fun t => t.mirror.get (.rxAddr 0) = 0x0102030405) = true := by
  decide +kernel
/-- V6. -/
theorem test_set_too_wide :
    gives (.set 5 0x100) (withRefDev []) (.ofCode .invalidConfiguration 0) [] = true := by decide
/-- V10, V11: the `plusOne` field, a 3-bit field. -/
theorem test_getf :
    gives (.getf 0 2) (withRefDev []) (.okay 1) (bracket [.xfer [0, 0] [0x0E, 0x08]]) = true ∧
    gives (.getf 7 1) (withRefDev []) (.okay 7) (bracket [.xfer [7, 0] [0x0E, 0x0E]]) = true := by decide
/-- V11b. -/
theorem test_getf_pseudo : gives (.getf 0x90 0) (withRefDev []) (.ofCode .unknownField 0) [] = true := by decide
/-- V19: a 2-bit field in the middle of a byte. -/
theorem test_setf :
    gives (.setf 6 1 0) (withRefDev []) (.okay 0)
      (bracket [.xfer [6, 0] [0x0E, 0x0F]] ++ bracket [.xfer [0x26, 0x09] [0x0E, 0]]) = true := by decide
/-- V16: the access right is checked before the range. -/
theorem test_setf_read_only : gives (.setf 7 0 5) (withRefDev []) (.ofCode .readOnlyField 0) [] = true := by decide
/-- V28: the getter returns the full raw byte. -/
theorem test_getch :
    gives .getch (scripted [.ok [0x0E, 0xA8]]) (.okay 0xA8) (bracket [.xfer [5, 0] [0x0E, 0xA8]]) = true := by decide
/-- V28, V23: bit 7 of the register is preserved; 200 is refused. -/
theorem test_setch :
    gives (.setch 41) (scripted [.ok [0x0E, 0xA8], .ok [0x0E, 0]]) (.okay 0)
      (bracket [.xfer [5, 0] [0x0E, 0xA8]] ++ bracket [.xfer [0x25, 0xA9] [0x0E, 0]]) = true ∧
    gives (.setch 200) (withRefDev []) (.ofCode .invalidConfiguration 0) [] = true := by decide
/-- V30: the second transfer fails; the mirror keeps its value. -/
theorem test_setf_write_fails :
    gives (.setf 0 1 1) (scripted [.ok [0x0E, 0x08], .fail]) (.ofCode .busFault 0)
      (bracket [.xfer [0, 0] [0x0E, 0x08]] ++ bracket [.xferFail [0x20, 0x0A]]) = true ∧
    (leaves (.setf 0 1 1) (scripted [.ok [0x0E, 0x08], .fail]) fun t =>
      t.mirror.get (.tab 0) = 0x08 && t.busFault && t.csn = some .high) = true := by decide

/-! ## TransceiverStateMachine -/

/-- T2. -/
theorem test_goto :
    gives (.goto .standBy) (withRefDev []) (.okay 1)
      (bracket [.xfer [0, 0] [0x0E, 0x08]] ++ bracket [.xfer [0x20, 0x0A] [0x0E, 0]] ++ [.ce .low, .wait 1500])
        = true ∧
    (leaves (.goto .standBy) (withRefDev []) fun t => t.status = .standBy && t.ce = some .low) = true := by decide
/-- T9 with CONFIG 0x0B: two internal steps; and T3. -/
theorem test_goto_power_down :
    gives (.goto .powerDown) (inRx (.scripted [.ok [0x0E, 0x0B], .ok [0x0E, 0]])) (.okay 0)
      ([.ce .low, .wait 130] ++ bracket [.xfer [0, 0] [0x0E, 0x0B]] ++ bracket [.xfer [0x20, 0x09] [0x0E, 0]])
        = true ∧
    gives (.goto .rx) (withRefDev []) (.ofCode .illegalStateTransition 0) [] = true := by decide
theorem test_state : gives .state (inRx (.scripted [])) (.okay 2) [] = true := by decide

/-! ## RxPipeSet -/

/-- Q1. -/
theorem test_psetaddr :
    gives (.psetaddr 1 0xA1B2C3D4E5) (withRefDev []) (.okay 0)
      (bracket [.xfer [0x2B, 0xE5, 0xD4, 0xC3, 0xB2, 0xA1] [0x0E, 0, 0, 0, 0, 0]]) = true ∧
    (leaves (.psetaddr 1 0xA1B2C3D4E5) (withRefDev []) fun t => t.pipe[1].addr = some 0xA1B2C3D4E5) = true := by
  decide
/-- Q7. -/
theorem test_psetlen :
    gives (.psetlen 5 32) (withRefDev []) (.okay 0) (bracket [.xfer [0x36, 0x20] [0x0E, 0]]) = true ∧
    (leaves (.psetlen 5 32) (withRefDev []) fun t => t.pipe[5].len = some 32) = true := by decide
/-- Q9, Q10, Q11. -/
theorem test_psetaa :
    gives (.psetaa 0 0) (withRefDev []) (.okay 0)
      (bracket [.xfer [1, 0] [0x0E, 0x3F]] ++ bracket [.xfer [0x21, 0x3E] [0x0E, 0]]) = true ∧
    (leaves (.psetaa 0 0) (withRefDev []) fun t => t.pipe[0].autoAck = some false) = true := by decide
theorem test_psetdpl :
    gives (.psetdpl 1 1) (withRefDev []) (.okay 0)
      (bracket [.xfer [0x1C, 0] [0x0E, 0]] ++ bracket [.xfer [0x3C, 0x02] [0x0E, 0]]) = true ∧
    (leaves (.psetdpl 1 1) (withRefDev []) fun t => t.pipe[1].dynPayload = some true) = true := by decide
theorem test_pseten :
    gives (.pseten 2 1) (withRefDev []) (.okay 0)
      (bracket [.xfer [2, 0] [0x0E, 0x03]] ++ bracket [.xfer [0x22, 0x07] [0x0E, 0]]) = true ∧
    (leaves (.pseten 2 1) (withRefDev []) fun t => t.pipe[2].enabled = some true) = true := by decide
/-- Q1, Q8, and the reads of Q9 to Q11 at RefDev's defaults. -/
theorem test_pgetaddr :
    gives (.pgetaddr 1) (withRefDev []) (.okay 0xC2C2C2C2C2)
      (bracket [.xfer [0x0B, 0, 0, 0, 0, 0] [0x0E, 0xC2, 0xC2, 0xC2, 0xC2, 0xC2]]) = true := by decide +kernel
theorem test_pgetlen :
    gives (.pgetlen 2) (scripted [.ok [0x0E, 0xC8]]) (.okay 200) (bracket [.xfer [0x13, 0] [0x0E, 0xC8]]) = true := by
  decide
theorem test_pgetaa :
    gives (.pgetaa 3) (withRefDev []) (.okay 1) (bracket [.xfer [1, 0] [0x0E, 0x3F]]) = true := by decide
theorem test_pgetdpl :
    gives (.pgetdpl 1) (scripted [.ok [0x0E, 0x02]]) (.okay 1) (bracket [.xfer [0x1C, 0] [0x0E, 0x02]]) = true := by
  decide
theorem test_pgeten :
    gives (.pgeten 2) (withRefDev []) (.okay 0) (bracket [.xfer [2, 0] [0x0E, 0x03]]) = true ∧
    gives (.pgeten 6) (withRefDev []) (.ofCode .invalidConfiguration 0) [] = true := by decide
/-- Q13: the fourth frame is stored, the fifth dropped. -/
theorem test_enq :
    (leaves (.enq 0 [0x13, 3]) (queued (four.take 3)) fun t => t.pipe[0].q = four && t.pipe[1].q = four.take 3)
      = true ∧
    gives (.enq 0 [0x14, 4]) (queued four) (.okay 0) [.drop 0 [0x14, 4]] = true := by decide
/-- Q14, Q12. -/
theorem test_hasdata :
    gives (.hasdata 0) (queued four) (.okay 1) [] = true ∧ gives (.hasdata 0) (queued []) (.okay 0) [] = true := by
  decide
/-- Q15. -/
theorem test_recv :
    gives (.recv 0) (queued four) (.okFrame [0x10, 0]) [] = true ∧
    (leaves (.recv 0) (queued four) fun t => t.pipe[0].q = four.tail) = true := by decide
/-- Q20, Q21: a timeout of 0 on an empty queue; a timeout that holds. -/
theorem test_recvw :
    gives (.recvw 0 (some 0)) (queued []) (.ofCode .timeout 0) [] = true ∧
    (leaves (.recvw 1 (some 5000)) (queued []) fun t =>
      t.holdH = some (.recvw { pipe := 1, expiry := some 5000 }) && t.replies = []) = true := by decide
/-- Q22: the hold of port C ends when the timeout has passed, not before. -/
theorem test_recvw_poll :
    (stepLeaves (turn (.act .pollC)
      { queued [] with holdC := some { pipe := 1, expiry := some 5000 }, now := 5000 }) fun t =>
        t.replies = [(.C, .ofCode .timeout 0)] && t.holdC = none) = true ∧
    (stepLeaves (turn (.act .pollC)
      { queued [] with holdC := some { pipe := 1, expiry := some 5000 }, now := 4999 }) fun t =>
        t.replies = [] && t.holdC = some { pipe := 1, expiry := some 5000 }) = true := by decide

/-! ## DRAIN -/

/-- D5b: a frame for pipe 0, then one for a pipe with no length. -/
theorem test_drain :
    (leaves (.drain 0) { withRefDev [(0, [1, 2]), (2, [9])] with
        status := .rx, pipe := (Vector.replicate 6 Pipe.initial).set 0 { Pipe.initial with len := some 2 } } fun t =>
      t.replies = [(.H, .ofCode .pipeNotConfigured 1)] && t.pipe[0].q = [[1, 2]] &&
        t.hist = bracket [.xfer [0x61] [0x00], .xfer [0, 0] [1, 2]] ++ bracket [.xfer [0x61] [0x04]]) = true := by
  decide
/-- D6, and the default cap of D2. -/
theorem test_drain_ends :
    gives (.drain 0) (inRx (.scripted [.ok [0x0C]])) (.ofCode .noSuchPipe 0) (bracket [.xfer [0x61] [0x0C]]) = true ∧
    (leaves (.drain 0) (inRx (.refDev (RefDev.initial Config.ref (List.replicate 5 (0, [1, 2]))))) fun t =>
      t.replies = [(.H, .okay 3)] && t.pipe[0].q.length = 3) = true := by decide

/-! ## The decoder -/

/-- W9, W8. -/
theorem test_volume :
    (leaves (.volume 0x80) State.reset fun t => t.hist = [.player (.incrVolume (-128))]) = true ∧
    (leaves (.volume 0x7F) State.reset fun t => t.hist = [.player (.incrVolume 127)]) = true := by decide
/-- W10. -/
theorem test_play : (leaves (.play 0xFF) State.reset fun t => t.hist = [.player .togglePlayPause]) = true := by decide
/-- W5, W6. -/
theorem test_track :
    (leaves (.track 0xFF) State.reset fun t => t.hist = [.player (.skipTracks (-1))]) = true ∧
    (leaves (.track 0) State.reset fun t => t.hist = []) = true := by decide
/-- W15's second step: a frame that fails to parse. -/
theorem test_decoder_failure :
    (stepLeaves (turn (.act .decoder) (queued [[0x78, 5], [0x70, 0]])) fun t =>
      t.hist = [.decodeFailure [0x78, 5]] && t.decFail = 1 && t.pipe[0].q = [[0x70, 0]] && t.dec = .running)
      = true := by decide
/-- W16. -/
theorem test_dstop :
    (leaves .dstop (queued [[0x70, 0]]) fun t =>
      t.stop && stepLeaves (turn (.act .decoder) t) fun u => u.dec = .exited && u.pipe[0].q = [[0x70, 0]]) = true := by
  decide
/-- W17: with the decoder exited, `Close` is the only event; a running one is waited for. -/
theorem test_shutdown :
    gives .shutdown { State.reset with dec := .exited } (.okay 0) [.close] = true ∧
    (leaves .shutdown State.reset fun t =>
      t.replies = [] && t.stop && t.holdH = some (.shutdown 1000000) && t.life = .opened) = true := by decide
/-- W17: after it every word is answered `Closed`, an illegal one too. -/
theorem test_closed :
    (stepLeaves (turn (.owner 0 []) { State.reset with life := .closed }) fun t =>
      t.replies = [(.H, .ofCode .closed 0)]) = true := by decide

/-! ## Witnesses: for each statement with hypotheses, states and operands that meet them, clause by clause -/

/-- The owner, a consumer, presents a word to reset. -/
def ownerTurn (w : CmdWord) (fr : Frame) : State := turn (.owner w fr) State.reset
def consumerTurn (w : CmdWord) : State := turn (.act (.consumer w)) State.reset

/-- The device answers a read of CONFIG with 0x08 and the write that follows; fails the first, the second. -/
def good : State := scripted [.ok [0x0E, 0x08], .ok [0x0E, 0x00]]
def readFails : State := scripted [.fail]
def writeFails : State := scripted [.ok [0x0E, 0x08], .fail]
/-- The same with a recorded status. -/
def goodIn (st : Status) : State := { good with status := st }

theorem witness_DecodeOfEncode : (Instr.enq 255 (List.replicate 32 0xFF)).wf = true := by decide

theorem witness_EncodeOfDecode :
    decodeWord 0x3005200000000000 (List.replicate 32 1) = .ok (.enq 5 (List.replicate 32 1)) ∧
    decodeWord 0x330501FFFFFFFFFF [] = .ok (.recvw 5 (some 0xFFFFFFFFFF)) := by decide

/-- The clauses of an illegal word: an unassigned `op`, `a`, `b`, `v` reserved, GOTO 4, ENQ 33, ENQ with a shorter
frame, RECVW with `b` = 2, RECVW with a value and no flag. -/
theorem witness_IllegalWordsAreRejected_illegal :
    ∀ x ∈ ([(0x0700000000000000, []), (0x1101000000000000, []), (0x0100010000000000, []), (0x0100000000000001, []),
        (0x1004000000000000, []), (0x3000210000000000, List.replicate 33 0), (0x3000020000000000, [1]),
        (0x3300020000000000, []), (0x3300000000000001, [])] : List (CmdWord × Frame)), illegalWord x.1 x.2 := by
  unfold illegalWord; decide
/-- The legal words next to them: GOTO 3, ENQ 32, RECVW with the flag, the largest GET, HASDATA, RECVW without. -/
theorem witness_IllegalWordsAreRejected_legal :
    ∀ x ∈ ([(0x1003000000000000, []), (0x3000200000000000, List.replicate 32 0), (0x330001FFFFFFFFFF, []),
        (0x01FF000000000000, []), (0x3100000000000000, []), (0x3300000000000000, [])] : List (CmdWord × Frame)),
      ¬ illegalWord x.1 x.2 := by
  unfold illegalWord; decide
theorem witness_IllegalWordsAreRejected_ports :
    (ownerTurn 0x1004000000000000 []).life = .opened ∧
    (ownerTurn 0x1004000000000000 []).inputs = [.owner 0x1004000000000000 []] ∧
    (ownerTurn 0x1004000000000000 []).holdH = none ∧
    (consumerTurn 0x3000000000000000).inputs = [.act (.consumer 0x3000000000000000)] ∧
    (consumerTurn 0x3000000000000000).holdC = none ∧ opOf 0x3000000000000000 ∉ [0x31, 0x32, 0x33] ∧
    opOf 0x3100000000000000 ∈ [0x31, 0x32, 0x33] ∧ opOf 0x3300000000000000 ∈ [0x31, 0x32, 0x33] := by decide

/-- The boundaries of the selector map: REF's table has 13 registers. -/
theorem witness_RegisterSelectorsNameRegisters :
    resolveReg Config.ref 0x0C = some (.tab 12) ∧ resolveReg Config.ref 0x0D = none ∧
    resolveReg Config.ref 0x7F = none ∧ resolveReg Config.ref 0x80 = some (.rxAddr 0) ∧
    resolveReg Config.ref 0x85 = some (.rxAddr 5) ∧ resolveReg Config.ref 0x86 = some .txAddr ∧
    resolveReg Config.ref 0x87 = none ∧ resolveReg Config.ref 0x8F = none ∧
    resolveReg Config.ref 0x90 = some (.rxPw 0) ∧ resolveReg Config.ref 0x95 = some (.rxPw 5) ∧
    resolveReg Config.ref 0x96 = none ∧ resolveReg State.reset.cfg 0xFF = none := by decide +kernel

/-- EN_CRC is plain; CRCO is `plusOne`, also at the largest width 39. -/
theorem witness_FieldDecodeIsExact :
    (bit "EN_CRC" 3).decode = .plain ∧
    ({ name := "CRCO", off := 0, width := 39, dflt := 0, access := .rw, decode := .plusOne } : Field).decode = .plusOne ∧
    ({ name := "CRCO", off := 0, width := 39, dflt := 0, access := .rw, decode := .plusOne } : Field).width ≤ 39 ∧
    (Config.ref.fieldsOf (.tab 3))[0]? = some (bits "AW" 0 2 3) := by decide

/-- A field that ends at bit 40, a field next to it. -/
theorem witness_FieldInsertReplacesTheField :
    (3 : Raw).toNat < 2 ^ (bits "F" 38 2 0).width ∧ (bits "F" 38 2 0).off + (bits "F" 38 2 0).width ≤ 40 ∧
    (bits "F" 38 2 0).disjoint (bits "G" 37 1 0) = true ∧
    (1 : Raw).toNat < 2 ^ (bits "F" 7 1 0).width ∧ (bits "F" 7 1 0).off + (bits "F" 7 1 0).width ≤ 8 ∧
    (0xFF : Raw).toNat < 2 ^ 8 := by decide

theorem witness_RegisterBytesOnTheBus :
    ([1, 2, 3, 4, 5] : List Byte)[4]? = some 5 ∧ (0xFFFFFFFFFF : Raw).toNat < 2 ^ (8 * 5) ∧
    (0xFF : Raw).toNat < 2 ^ (8 * 1) ∧ (Config.ref.table[12]?).isSome = true ∧
    Config.ref.rcmd.lookup (Config.ref.addrOf (.rxAddr 5)) = some 0x0F ∧
    Config.ref.wcmd.lookup (Config.ref.addrOf (.rxPw 5)) = some 0x36 := by decide

/-- The numbers of R71's first and last codes. -/
theorem test_code_numbers : Code.ok.code = 0x00 ∧ Code.pipeNotConfigured.code = 0x0D ∧
    (Response.okFrame [0x76, 0xF6]).frameLength = 2 ∧ (Response.okay 1).frameLength = 0 := by decide

theorem witness_GetReadsTheRegister :
    resolveReg good.cfg 0x0D = none ∧ resolveReg good.cfg 0 = some (.tab 0) ∧
    good.answers (readOut good.cfg (.tab 0)) [0x0E, 0x08] ∧ readFails.fails (readOut readFails.cfg (.tab 0)) := by
  decide

/-- 255 and 256 at a 1-byte register; all 40 bits at a 5-byte one. -/
theorem witness_SetWritesTheRegister :
    resolveReg good.cfg 5 = some (.tab 5) ∧
    2 ^ (8 * good.cfg.bytesOf (.tab 5)) ≤ (256 : Raw).toNat ∧ (255 : Raw).toNat < 2 ^ (8 * good.cfg.bytesOf (.tab 5)) ∧
    (0xFFFFFFFFFF : Raw).toNat < 2 ^ (8 * good.cfg.bytesOf .txAddr) ∧
    good.answers (writeOut good.cfg (.tab 5) 255) [0x0E, 0x08] ∧
    readFails.fails (writeOut readFails.cfg (.tab 5) 255) := by decide

/-- CONFIG has 7 fields. -/
theorem witness_GetfAnswersTheField :
    (good.cfg.fieldsOf (.tab 0)).length ≤ (7 : Byte).toNat ∧
    (good.cfg.fieldsOf (.tab 0))[(6 : Byte).toNat]? = some (bit "MASK_RX_DR" 6) ∧
    resolveReg good.cfg 0x86 = some .txAddr ∧ (∀ k, RegName.txAddr ≠ .tab k) ∧
    good.answers (readOut good.cfg (.tab 0)) [0x0E, 0x08] ∧ readFails.fails (readOut readFails.cfg (.tab 0)) :=
  ⟨by decide, by decide, by decide, fun _ h => (nomatch h), by decide, by decide⟩

/-- `PWR_UP` takes 1, not 2; both transfers answered; the read fails; the write fails. -/
theorem witness_SetfReadsThenWrites :
    resolveReg good.cfg 0 = some (.tab 0) ∧ (good.cfg.fieldsOf (.tab 0))[(1 : Byte).toNat]? = some (bit "PWR_UP" 1) ∧
    (bit "PWR_UP" 1).access = .rw ∧ 2 ^ (bit "PWR_UP" 1).width ≤ (2 : Raw).toNat ∧
    (1 : Raw).toNat < 2 ^ (bit "PWR_UP" 1).width ∧ good.port = .H ∧
    good.within = [] ∧ FieldWriteAnswers (.tab 0) (bit "PWR_UP" 1) 1 good [0x0E, 0x08] [0x0E, 0x00] :=
  ⟨by decide, by decide, by decide, by decide, by decide, by decide, by decide, ⟨by decide, by decide⟩⟩
theorem witness_SetfReadsThenWrites_fails :
    (∃ d, FieldWriteFails (.tab 0) (bit "PWR_UP" 1) 1 readFails (bracket [.xferFail [0x00, 0x00]]) d) ∧
    ∃ d, FieldWriteFails (.tab 0) (bit "PWR_UP" 1) 1 writeFails
      (bracket [.xfer [0x00, 0x00] [0x0E, 0x08]] ++ bracket [.xferFail [0x20, 0x0A]]) d :=
  ⟨⟨_, .read (by decide)⟩, _, .write [0x0E, 0x08] (by decide) (by decide)⟩

theorem witness_GetchAnswersTheRawByte :
    good.answers (readOut good.cfg (.tab good.cfg.role.rfCh.reg)) [0x0E, 0x08] ∧
    readFails.fails (readOut readFails.cfg (.tab readFails.cfg.role.rfCh.reg)) := by decide

/-- 125 is REF's largest channel. -/
theorem witness_SetchChecksThenWrites :
    good.cfg.rfChMax < (126 : Raw).toNat ∧ (125 : Raw).toNat ≤ good.cfg.rfChMax ∧ good.port = .H ∧
    FieldWriteAnswers (.tab good.cfg.role.rfCh.reg) (good.cfg.roleField good.cfg.role.rfCh) 125 good
      [0x0E, 0x08] [0x0E, 0x00] ∧
    ∃ d, FieldWriteFails (.tab readFails.cfg.role.rfCh.reg) (readFails.cfg.roleField readFails.cfg.role.rfCh) 125
      readFails (bracket [.xferFail [0x05, 0x00]]) d :=
  ⟨by decide, by decide, by decide, ⟨by decide, by decide⟩, _, .read (by decide)⟩

theorem witness_ReadOnlyFieldsAreRejected :
    resolveReg State.reset.cfg 7 = some (.tab 7) ∧
    resolveField State.reset.cfg (.tab 7) 1 = some (bits "RX_P_NO" 1 3 7 .ro) ∧
    (bits "RX_P_NO" 1 3 7 .ro).access = .ro := by decide

theorem mirrorFits_reset : MirrorFits State.reset := by unfold MirrorFits; decide +kernel

/-- After `SETF CONFIG.PWR_UP, 1` (mirror 0x0A) the device reads back 0x0A. -/
theorem witness_ReadBackAfterFieldWrite :
    ∃ t s' : State, good.cfg.wf = true ∧ MirrorFits good ∧ good.port = .H ∧
      resolveReg good.cfg 0 = some (.tab 0) ∧ resolveField good.cfg (.tab 0) 1 = some (bit "PWR_UP" 1) ∧
      (bit "PWR_UP" 1).access = .rw ∧ (1 : Raw).toNat < 2 ^ (bit "PWR_UP" 1).width ∧
      FieldWriteAnswers (.tab 0) (bit "PWR_UP" 1) 1 good [0x0E, 0x08] [0x0E, 0x00] ∧
      exec (.setf 0 1 1) good = .next t ∧ s'.cfg = t.cfg ∧ s'.mirror.get (.tab 0) = t.mirror.get (.tab 0) ∧
      s'.answers (readOut good.cfg (.tab 0)) [0x0E, 0x0A] ∧
      extract (bit "PWR_UP" 1) (assemble [0x0A]) = extract (bit "PWR_UP" 1) (s'.mirror.get (.tab 0)) :=
  ⟨_, { scripted [.ok [0x0E, 0x0A]] with mirror := (RegFile.set Config.ref.defaults (.tab 0) 0x0A) },
    test_wf_ref, mirrorFits_reset, by decide, by decide, by decide, by decide, by decide, ⟨by decide, by decide⟩, rfl,
    by decide, by decide, by decide, by decide⟩

theorem witness_CleanErrorsChangeNothing :
    ∃ t, State.reset.port = .H ∧ exec (.get 0x0D) State.reset = .next t ∧
      t.repliesOn .H = State.reset.repliesOn .H ++ [.ofCode .unknownRegister 0] ∧
      (Response.ofCode .unknownRegister 0).code ∈
        [Code.unknownRegister, .unknownField, .readOnlyField, .illegalStateTransition, .invalidConfiguration] :=
  ⟨_, by decide, rfl, by decide, by decide⟩

theorem witness_BusFaultLeavesCopies :
    ∃ t, readFails.port = .H ∧ exec (.get 0) readFails = .next t ∧
      t.repliesOn .H = readFails.repliesOn .H ++ [.ofCode .busFault 0] ∧ (Response.ofCode .busFault 0).code = .busFault :=
  ⟨_, by decide, rfl, by decide, by decide⟩

/-- The field writes of the four edges that use the bus, and of the second step from Rx. -/
theorem witness_Edges :
    good.port = .H ∧ good.status = .powerDown ∧ (goodIn .standBy).status = .standBy ∧
    FieldWriteAnswers (.tab 0) (good.cfg.roleField good.cfg.role.pwrUp) 1 good [0x0E, 0x08] [0x0E, 0x00] ∧
    FieldWriteAnswers (.tab 0) (good.cfg.roleField good.cfg.role.pwrUp) 0 (goodIn .standBy)
      [0x0E, 0x08] [0x0E, 0x00] ∧
    FieldWriteAnswers (.tab 0) (good.cfg.roleField good.cfg.role.primRx) 1 (goodIn .standBy)
      [0x0E, 0x08] [0x0E, 0x00] ∧
    FieldWriteAnswers (.tab 0) (good.cfg.roleField good.cfg.role.primRx) 0 (goodIn .standBy)
      [0x0E, 0x08] [0x0E, 0x00] ∧
    FieldWriteAnswers (.tab 0) (good.cfg.roleField good.cfg.role.pwrUp) 0 (interleave (edgeSB (goodIn .tx)))
      [0x0E, 0x08] [0x0E, 0x00] :=
  ⟨by decide, by decide, by decide, ⟨by decide, by decide⟩, ⟨by decide, by decide⟩, ⟨by decide, by decide⟩,
    ⟨by decide, by decide⟩, ⟨by decide, by decide⟩⟩
theorem witness_EdgeActiveToStandBy :
    (goodIn .rx).port = .H ∧ (goodIn .rx).status = .rx ∧ (goodIn .tx).status = .tx := by decide
theorem witness_TransitionFailureKeepsTheStatus :
    readFails.port = .H ∧ readFails.status = .powerDown ∧
    (∃ d, FieldWriteFails (.tab readFails.cfg.role.pwrUp.reg) (readFails.cfg.roleField readFails.cfg.role.pwrUp) 1
      readFails (bracket [.xferFail [0x00, 0x00]]) d) ∧
    (∃ d, FieldWriteFails (.tab readFails.cfg.role.pwrUp.reg) (readFails.cfg.roleField readFails.cfg.role.pwrUp) 0
      (interleave (edgeSB { readFails with status := .rx })) (bracket [.xferFail [0x00, 0x00]]) d) ∧
    ∃ d, FieldWriteFails (.tab writeFails.cfg.role.primRx.reg) (writeFails.cfg.roleField writeFails.cfg.role.primRx) 1
      { writeFails with status := .standBy }
      (bracket [.xfer [0x00, 0x00] [0x0E, 0x08]] ++ bracket [.xferFail [0x20, 0x09]]) d :=
  ⟨by decide, by decide, ⟨_, .read (by decide)⟩, ⟨_, .read (by decide)⟩,
    _, .write [0x0E, 0x08] (by decide) (by decide)⟩

/-- A GOTO of the owner from Rx. -/
theorem witness_OnlyGotoChangesStatus :
    ∃ t, step (turn (.owner 0x1001000000000000 []) (goodIn .rx)) = .next t ∧ t.status ≠ Status.rx :=
  ⟨_, rfl, by decide⟩
/-- A reset, and a reset that meets a GETCH, from Rx. -/
theorem witness_OnlyGotoChangesStatus_reset :
    (∃ t, step (turn .reset (goodIn .rx)) = .next t ∧ t.status ≠ Status.rx) ∧
    ∃ t, step (turn (.ownerReset 0x0500000000000000 [] 0) (goodIn .rx)) = .next t ∧ t.status ≠ Status.rx :=
  ⟨⟨_, rfl, by decide⟩, ⟨_, rfl, by decide⟩⟩

/-- Pipe 5 is a pipe, 6 is none. -/
theorem witness_PipeNumberCheckedFirst : 6 ≤ (6 : Byte).toNat ∧ (5 : Byte).toNat = (5 : PipeNo) := by decide

theorem witness_PsetaddrWritesThenCopies :
    (scripted [.ok [0x0E, 0, 0, 0, 0, 0]]).answers (writeOut good.cfg (.rxAddr 5) 0xFFFFFFFFFF)
      [0x0E, 0, 0, 0, 0, 0] ∧
    readFails.fails (writeOut readFails.cfg (.rxAddr 0) 0) := by decide

/-- Lengths 0, 1, 32, 33. -/
theorem witness_PsetlenWritesThenCopies :
    (0 : Raw).toNat < 1 ∧ 32 < (33 : Raw).toNat ∧ 1 ≤ (1 : Raw).toNat ∧ (32 : Raw).toNat ≤ 32 ∧
    good.answers (writeOut good.cfg (.rxPw 5) 32) [0x0E, 0x08] ∧ readFails.fails (writeOut readFails.cfg (.rxPw 0) 1) := by
  decide

theorem witness_PsetFlagsWriteThenCopy :
    2 ≤ (2 : Raw).toNat ∧ (1 : Raw).toNat < 2 ∧ (0 : Raw).toNat < 2 ∧ good.port = .H ∧
    FieldWriteAnswers (.tab 1) (good.cfg.roleField good.cfg.role.enAA[(0 : PipeNo)]) 1 good
      [0x0E, 0x08] [0x0E, 0x00] ∧
    FieldWriteAnswers (.tab 11) (good.cfg.roleField good.cfg.role.dynPd[(5 : PipeNo)]) 0 good
      [0x0E, 0x08] [0x0E, 0x00] ∧
    FieldWriteAnswers (.tab 2) (good.cfg.roleField good.cfg.role.enRx[(5 : PipeNo)]) 1 good
      [0x0E, 0x08] [0x0E, 0x00] ∧
    ∃ d, FieldWriteFails (.tab 2) (readFails.cfg.roleField readFails.cfg.role.enRx[(0 : PipeNo)]) 1 readFails
      (bracket [.xferFail [0x02, 0x00]]) d :=
  ⟨by decide, by decide, by decide, by decide, ⟨by decide, by decide⟩, ⟨by decide, by decide⟩, ⟨by decide, by decide⟩,
    _, .read (by decide)⟩

theorem witness_PgetRegistersReadTheDevice :
    (scripted [.ok [0x0E, 1, 2, 3, 4, 5]]).answers
      (Config.ref.readCommand (Config.ref.addrOf (.rxAddr 5)) :: List.replicate 5 Config.ref.fill)
      [0x0E, 1, 2, 3, 4, 5] ∧
    good.answers (Config.ref.readCommand (Config.ref.addrOf (.rxPw 0)) :: List.replicate 1 Config.ref.fill)
      [0x0E, 0x08] ∧
    readFails.fails (Config.ref.readCommand (Config.ref.addrOf (.rxPw 5)) :: List.replicate 1 Config.ref.fill) := by
  decide

theorem witness_PgetFlagsReadTheDevice :
    good.answers (readOut good.cfg (.tab good.cfg.role.enAA[(5 : PipeNo)].reg)) [0x0E, 0x08] ∧
    readFails.fails (readOut readFails.cfg (.tab readFails.cfg.role.dynPd[(0 : PipeNo)].reg)) := by decide

/-- One frame below the capacity, and at it. -/
theorem witness_EnqStoresOrDrops :
    (queued (four.take 3)).pipe[(5 : PipeNo)].q.length < (queued (four.take 3)).cfg.cap[(5 : PipeNo)] ∧
    (queued four).cfg.cap[(0 : PipeNo)] ≤ (queued four).pipe[(0 : PipeNo)].q.length := by decide
theorem witness_HasdataTellsIfQueued :
    (queued four).pipe[(0 : PipeNo)].q ≠ [] ∧ (queued []).pipe[(5 : PipeNo)].q = [] := by decide
theorem witness_RecvTakesTheOldest :
    (queued [[]]).pipe[(0 : PipeNo)].q = [[]] ∧ (queued []).pipe[(5 : PipeNo)].q = [] := by decide

/-- A frame; no frame with `cancel` high; a timeout of 0, of 1, none, with `cancel` low. -/
theorem witness_RecvwAccepted :
    (queued [[1]]).pipe[(0 : PipeNo)].q = [[1]] ∧ (queued []).pipe[(0 : PipeNo)].q = [] ∧
    ({ queued [] with cancelH := true } : State).cancel (queued []).port = true ∧
    (queued []).cancel (queued []).port = false ∧ (some 1 : Option Raw) ≠ some 0 ∧ (none : Option Raw) ≠ some 0 := by
  decide

/-- A hold on each port, expired at its last microsecond, and one before it. -/
theorem witness_RecvwHolds :
    let h : State := { turn .pollH (queued []) with holdH := some (.recvw { pipe := 5, expiry := some 9 }), now := 9 }
    let c : State := { turn (.act .pollC) (queued []) with holdC := some { pipe := 0, expiry := some 9 }, now := 8 }
    h.life = .opened ∧ h.inputs = [.pollH] ∧ h.holdH = some (.recvw { pipe := 5, expiry := some 9 }) ∧
    h.pipe[(5 : PipeNo)].q = [] ∧ h.cancel .H = false ∧ (∃ e, some 9 = some e ∧ e ≤ h.now) ∧
    c.inputs = [.act .pollC] ∧ c.holdC = some { pipe := 0, expiry := some 9 } ∧ c.cancel .C = false ∧
    (∀ e, some 9 = some e → c.now < e) ∧
    ({ c with cancelC := true } : State).cancel .C = true ∧ (queued [[7]]).pipe[(0 : PipeNo)].q = [[7]] := by
  refine ⟨by decide, by decide, by decide, by decide, by decide, ⟨9, rfl, by decide⟩, by decide, by decide, by decide,
    fun e h => ?_, by decide, by decide⟩
  cases h; decide

/-- A RECVW of port C, pending when RFB is closed with a frame queued: at its expiry, before it, with `cancel` high. -/
theorem witness_RecvwHolds_closed :
    let c : State := { turn (.act .pollC) (queued [[7]]) with
      holdC := some { pipe := 0, expiry := some 9 }, life := .closed, now := 9 }
    c.inputs = [.act .pollC] ∧ c.holdC = some { pipe := 0, expiry := some 9 } ∧ c.life = .closed ∧
    c.cancel .C = false ∧ (∃ e, some 9 = some e ∧ e ≤ c.now) ∧ (∀ e, some 9 = some e → 8 < e) ∧
    ({ c with cancelC := true } : State).cancel .C = true :=
  ⟨by decide, by decide, by decide, by decide, ⟨9, rfl, by decide⟩, fun e h => by cases h; decide, by decide⟩

/-- The owner waits on pipe 0 and the decoder has its turn. -/
theorem witness_OwnerHoldEndsByCancel :
    let s : State := { turn (.act .decoder) (queued []) with holdH := some (.recvw { pipe := 0, expiry := none }) }
    ∃ t, s.holdH = some (.recvw { pipe := 0, expiry := none }) ∧ s.pipe[(0 : PipeNo)].q = [] ∧ s.cancelH = false ∧
      step s = .next t ∧ ∀ rest, s.inputs ≠ .reset :: rest :=
  ⟨_, by decide, by decide, by decide, rfl, fun _ h => nomatch h⟩

theorem witness_FirstInFirstOut : (2 : Byte).toNat = (2 : PipeNo) ∧ State.reset.pipe[(2 : PipeNo)].q = [] := by decide

/-- Two states that differ in the mirror and in a copied address, and a step of one; a refused step. -/
theorem witness_CopiesAreNotRead :
    (∃ t, ({ withRefDev [] with mirror := { Config.ref.defaults with txAddr := 1 } } : State).forget
        = (withRefDev []).forget ∧
      step { withRefDev [] with mirror := { Config.ref.defaults with txAddr := 1 } } = .next t) ∧
    step { ownerTurn 0 [] with holdH := some (.shutdown 0) } = .refused (.portBusy .H) :=
  ⟨⟨_, by rfl, rfl⟩, rfl⟩

theorem witness_DrainOutsideRx :
    State.reset.status ≠ .rx ∧ (goodIn .standBy).status ≠ .rx ∧ (goodIn .tx).status ≠ .rx := by decide

/-- A buffer with more frames than the cap, and queues that are within their capacity. -/
theorem witness_DrainPopsUntilItEnds :
    let s := inRx (.refDev (RefDev.initial Config.ref (List.replicate 5 (0, [1, 2]))))
    s.cfg.wf = true ∧ s.port = .H ∧ s.status = .rx ∧ s.within = [] ∧
    ∀ p : PipeNo, s.pipe[p].q.length ≤ s.cfg.cap[p] :=
  ⟨test_wf_ref, by decide, by decide, by decide, by decide⟩
/-- The status bytes of the ends: 7 in the pipe-number field, 6, pipe 5. -/
theorem witness_DrainPopsUntilItEnds_status :
    pipeNumberField Config.ref 0x0E = 7 ∧ pipeNumberField Config.ref 0x0C = 6 ∧ pipeNumberField Config.ref 0x0A = 5 ∧
    pipeNumberField Config.ref 0xF1 = 0 := by decide

/-- R58: a payload read consumes the listed answers one after another, across iterations: a frame of pipe 0, then
the empty status; the third answer is still to come. -/
theorem test_drain_consumes_answers :
    (leaves (.drain 0) (inRx (.scripted [.ok [0x40], .ok [7, 9], .ok [0x0E], .fail])) fun t =>
      t.device = .scripted [.fail] && t.replies = [(.H, .okay 1)] && t.pipe[(0 : PipeNo)].q = [[7, 9]]) = true := by
  decide

theorem witness_WireCommands : (0 : Byte) = 0 ∧ (0x80 : Byte) ≠ 0 := by decide

/-- An exited decoder, a closed RFB, stop with a frame, an empty queue, and the frames of each clause. -/
theorem witness_DecoderStepTakesOneFrame :
    let s := turn (.act .decoder) (queued [[0x76, 0x80], [0x56, 1], [0x76]])
    s.inputs = [.act .decoder] ∧ s.cfg.decPipe = some 0 ∧ s.dec = .running ∧ s.life = .opened ∧ s.stop = false ∧
    s.pipe[(0 : PipeNo)].q = [0x76, 0x80] :: [[0x56, 1], [0x76]] ∧ ([0x76] : Frame).length < 2 ∧
    (0x76 : Byte).toNat = 0x76 ∧ (0x56 : Byte).toNat ∉ [0x76, 0x70, 0x74] ∧
    (queued []).pipe[(0 : PipeNo)].q = [] := by decide
/-- W18: no designated pipe and a frame that would parse. -/
theorem witness_DecoderStepTakesOneFrame_none :
    let s := turn (.act .decoder) { queued [[0x70, 0]] with cfg := { Config.ref with decPipe := none } }
    s.inputs = [.act .decoder] ∧ s.cfg.decPipe = none ∧ s.pipe[(0 : PipeNo)].q = [[0x70, 0]] := by decide

theorem witness_DstopStopsTheDecoder :
    State.reset.cfg.decPipe = some 0 ∧ State.reset.dec = .running ∧ State.reset.life = .opened := by decide

theorem witness_ShutdownWaitsThenCloses :
    State.reset.port = .H ∧ State.reset.dec = .running ∧ State.reset.cfg.tStop ≠ 0 ∧
    (let s : State := { turn .pollH State.reset with holdH := some (.shutdown 9), stop := true, now := 9 }
     s.inputs = [.pollH] ∧ s.holdH = some (.shutdown 9) ∧ s.stop = true ∧ 9 ≤ s.now) := by decide
/-- The hold examined after a turn of port C, one microsecond before its end. -/
theorem witness_ShutdownWaitsThenCloses_afterC :
    let s : State := { turn .pollH State.reset with holdH := some (.shutdown 9), stop := true, now := 8, port := .C }
    s.inputs = [.pollH] ∧ s.holdH = some (.shutdown 9) ∧ s.stop = true ∧ s.dec = .running ∧ s.now < 9 := by decide

theorem witness_ClosedAnswersEveryWord :
    let s : State := { turn (.owner 0 []) State.reset with life := .closed }
    let c : State := { turn (.act (.consumer 0xFFFFFFFFFFFFFFFF)) State.reset with life := .closed }
    s.life = .closed ∧ s.inputs = [.owner 0 []] ∧ s.holdH = none ∧
    c.inputs = [.act (.consumer 0xFFFFFFFFFFFFFFFF)] ∧ c.holdC = none := by decide

theorem witness_StepRunsTheDecoded :
    (ownerTurn 0x1100000000000000 []).life = .opened ∧
    (ownerTurn 0x1100000000000000 []).inputs = [.owner 0x1100000000000000 []] ∧
    (ownerTurn 0x1100000000000000 []).holdH = none ∧ decode (.word 0x1100000000000000 []) = .ok .state ∧
    (consumerTurn 0x3200000000000000).inputs = [.act (.consumer 0x3200000000000000)] ∧
    decode (.word 0x3200000000000000 []) = .ok (.recv 0) ∧ (Instr.recv 0).onPortC = true ∧
    (let s := turn (.act .decoder) (queued [[0x70, 0]])
     s.inputs = [.act .decoder] ∧ s.cfg.decPipe = some 0 ∧ s.dec = .running ∧ s.stop = false ∧
     s.pipe[(0 : PipeNo)].q = [[0x70, 0]] ∧ decode (.wire [0x70, 0]) = .ok (.play 0)) := by decide

theorem witness_EveryOperationAnswersOnce :
    State.reset.port = .H ∧ (Instr.recv 0).onPortC = true ∧ PipesWithinBounds State.reset ∧
    ∀ x, Instr.state ≠ .volume x ∧ Instr.state ≠ .play x ∧ Instr.state ≠ .track x :=
  ⟨by decide, by decide, by unfold PipesWithinBounds Pipe.within; decide, fun _ => ⟨nofun, nofun, nofun⟩⟩

theorem witness_GuestsActAsInSteps : (turn (.act (.time 5)) State.reset).inputs = [.act (.time 5)] ∧
    ({ State.reset with within := [[.decoder]] } : State).within = [[.decoder]] ∧ State.reset.within = [] ∧
    (turn (.act (.cancel .H true)) State.reset).inputs = [.act (.cancel .H true)] ∧
    (turn (.act (.cancel .C false)) State.reset).inputs = [.act (.cancel .C false)] ∧
    (turn (.act .pollC) State.reset).inputs = [.act .pollC] ∧ (turn .pollH State.reset).inputs = [.pollH] ∧
    State.reset.holdC = none ∧ State.reset.holdH = none ∧ State.reset.inputs = [] := by decide

/-- The invariants' hypotheses: a step from a state with full queues of full frames; and reset. -/
theorem witness_PipesWithinBoundsKept :
    let s := turn (.act .decoder) { State.reset with
      pipe := Vector.replicate 6 { Pipe.initial with len := some 32, q := List.replicate 4 (List.replicate 32 0x76) } }
    ∃ t, PipesWithinBounds s ∧ step s = .next t :=
  ⟨_, by unfold PipesWithinBounds Pipe.within; decide, rfl⟩
theorem witness_HistoryAgreesKept :
    let s := turn (.act .decoder) { queued [[0x78, 5]] with
      hist := bracket [.xferFail [0]] ++ [.ce .low, .decodeFailure []], busFault := true, csn := some .high
      ce := some .low, decFail := 1 }
    ∃ t, HistoryAgrees s ∧ step s = .next t :=
  ⟨_, ⟨by decide, by decide, by decide, by decide, by decide, by decide, by decide⟩, rfl⟩
theorem witness_MirrorFitsKept :
    ∃ t, State.reset.cfg.wf = true ∧ MirrorFits (ownerTurn 0x1100000000000000 []) ∧
      step (ownerTurn 0x1100000000000000 []) = .next t :=
  ⟨_, test_wf_ref, mirrorFits_reset, rfl⟩
theorem witness_LifecycleKept :
    ∃ t, LifecycleInv (turn .pollH { State.reset with holdH := some (.shutdown 5), stop := true }) ∧
      step (turn .pollH { State.reset with holdH := some (.shutdown 5), stop := true }) = .next t :=
  ⟨_, ⟨by decide, by decide, by decide, by decide, fun _ _ => rfl⟩, rfl⟩
theorem witness_NeverGoesBack :
    ∃ t, step (turn (.act .decoder) (queued [[0x70, 0]])) = .next t ∧
      (∀ rest, (turn (.act .decoder) (queued [[0x70, 0]])).inputs ≠ .reset :: rest) ∧
      ∀ w fr k rest, (turn (.act .decoder) (queued [[0x70, 0]])).inputs ≠ .ownerReset w fr k :: rest :=
  ⟨_, rfl, nofun, nofun⟩
theorem witness_EveryStepAnswers :
    step { turn (.ownerReset 0 [] 0) State.reset with holdH := some (.shutdown 5) } = .refused (.portBusy .H) ∧
    ∃ t, step (turn (.ownerReset 0 [] 0) State.reset) = .next t := ⟨rfl, _, rfl⟩

/-! ## Reset -/

/-- A reset between operations from a closed RFB with a hold; one that meets an operation: RFB closed, a word that is
no operation, one that is. -/
theorem witness_ResetValues :
    let w : CmdWord := 0x0400010000000001
    (turn .reset { queued four with life := .closed, holdH := some (.shutdown 5) }).inputs = [.reset] ∧
    (turn .reset State.reset).cfg.table[12]? ≠ none ∧
    (turn (.ownerReset w [] 1) good).inputs = [.ownerReset w [] 1] ∧ good.holdH = none ∧
    ({ good with life := .closed } : State).life = .closed ∧ decodeWord 0 [] = .error .unassignedOp ∧
    good.life = .opened ∧ decode (.word w []) = .ok (.setf 0 1 1) := by decide
/-- An operation on the bus and one that is not; its first bracket is a closed first part of its events. -/
theorem witness_ResetValues_passes :
    good.port = .H ∧ Instr.atBoundary .state = false ∧ Instr.atBoundary (.setf 0 1 1) = true ∧
    wellBracketed (bracket [.xfer [0x00, 0x00] [0x0E, 0x08]]) = true ∧
    (leaves (.setf 0 1 1) good fun t =>
      (ownerEvents good.hist ++ bracket [.xfer [0x00, 0x00] [0x0E, 0x08]]).isPrefixOf (ownerEvents t.hist)) = true := by
  decide

/-- R215, R42: a reset between the two brackets of SETF and one after both, before the response. The device has seen
what came before; nothing is answered. -/
theorem test_reset_in_setf :
    (stepLeaves (turn (.ownerReset 0x0400010000000001 [] 0) good) fun t =>
      t.device = .scripted [.ok [0x0E, 0x00]] && t.replies = [] && t.hist = [] && t.csn = none &&
        t.mirror.get (.tab 0) = 0x08) = true ∧
    (stepLeaves (turn (.ownerReset 0x0400010000000001 [] 1) good) fun t =>
      t.device = .scripted [] && t.replies = [] && t.hist = [] && t.mirror.get (.tab 0) = 0x08) = true := by decide
/-- R215, R111: a reset inside GOTO StandBy after chip-enable has been driven: undriven again, the status PowerDown. -/
theorem test_reset_in_goto :
    ((passes (.goto .standBy) good).map fun u => (u.ce, u.status)) =
      [(none, .powerDown), (none, .powerDown), (some .low, .powerDown), (some .low, .standBy)] ∧
    (stepLeaves (turn (.ownerReset 0x1001000000000000 [] 2) good) fun t =>
      t.ce = none && t.status = .powerDown && t.replies = []) = true := by decide
/-- R215, R156: a reset inside DRAIN after a frame was handed to its queue: the queue is empty, the device has lost the
frame. With no first effect done the device is as it was. -/
theorem test_reset_in_drain :
    (stepLeaves (turn (.ownerReset 0x4000000000000000 [] 1)
        (inRx (.scripted [.ok [0x40], .ok [7, 9], .ok [0x0E]]))) fun t =>
      t.device = .scripted [.ok [0x0E]] && t.pipe[(0 : PipeNo)] = Pipe.initial && t.replies = [] &&
        t.status = .powerDown) = true ∧
    (stepLeaves (turn (.ownerReset 0x4000000000000000 [] 9) (inRx (.scripted [.ok [0x0E]]))) fun t =>
      t.device = .scripted [.ok [0x0E]] && t.replies = []) = true := by decide

end Sys2Proof.Tests
end

/-! ## Noninterference (R19, R142): runs, operations and turns of states that differ only where no rule reads -/

namespace Sys2Proof.Machine

open Sys2Proof

theorem AlikeRun.finish {α : Type} {r r' : Run α} (h : AlikeRun r r') :
    r'.finish.1 = r.finish.1 ∧ Alike r.finish.2 r'.finish.2 := by
  induction h with
  | done a h => exact ⟨rfl, h⟩
  | point h _ ih => exact ih _ _ h.interleave

theorem AlikeRun.answer {r r' : Run Response} (h : AlikeRun r r') : Alike r.answer r'.answer := by
  rw [Run.answer, Run.answer, h.finish.1]
  exact h.finish.2.respond _

theorem Alike.raiseRun {s t : State} (h : Alike s t) (c : Code) : AlikeRun (.raise c s) (.raise c t) := .done _ h

theorem AlikeRun.ofRead {r r' : Option Raw × State} (h : r'.1 = r.1 ∧ Alike r.2 r'.2) :
    AlikeRun (.ofRead r) (.ofRead r') := by
  unfold Run.ofRead
  rw [h.1]
  exact .done _ h.2

theorem AlikeRun.ofWrite {r r' : Bool × State} (h : r'.1 = r.1 ∧ Alike r.2 r'.2) :
    AlikeRun (.ofWrite r) (.ofWrite r') := by
  unfold Run.ofWrite
  rw [h.1]
  exact .done _ h.2

theorem Alike.onPipeRun {s t : State} (h : Alike s t) (a : Byte) {k k' : PipeNo → Run Response}
    (hk : ∀ p, AlikeRun (k p) (k' p)) : AlikeRun (.onPipe a s k) (.onPipe a t k') := by
  unfold Run.onPipe
  cases checkPipe a with
  | none => exact h.raiseRun _
  | some p => exact hk p

/-- A register write's copy: alike when the update gives records alike from records alike. -/
theorem Alike.copyIfWritten {r r' : Bool × State} (h : r'.1 = r.1 ∧ Alike r.2 r'.2) (p : PipeNo) {update : Pipe → Pipe}
    (hu : ∀ q q' : Pipe, q'.forget = q.forget → (update q').forget = (update q).forget) :
    (Machine.copyIfWritten p update r').1 = (Machine.copyIfWritten p update r).1 ∧
      Alike (Machine.copyIfWritten p update r).2 (Machine.copyIfWritten p update r').2 := by
  unfold Machine.copyIfWritten
  rw [h.1]
  split
  · exact ⟨rfl, h.2.setPipe p (hu _ _ (h.2.pipes p))⟩
  · exact h

/-! ### The operations of port H as runs -/

theorem Alike.readField {s t : State} (h : Alike s t) (n : RegName) (f : Field) :
    (Machine.readField n f t).1 = (Machine.readField n f s).1 ∧
      Alike (Machine.readField n f s).2 (Machine.readField n f t).2 :=
  ⟨congrArg (Option.map _) (h.busRead n).1, (h.busRead n).2⟩

theorem Alike.readRole {s t : State} (h : Alike s t) (r : FieldRef) :
    (Machine.readRole r t).1 = (Machine.readRole r s).1 ∧ Alike (Machine.readRole r s).2 (Machine.readRole r t).2 := by
  unfold Machine.readRole
  rw [h.cfg]
  exact h.readField _ _

theorem Alike.writeRoleRun {s t : State} (h : Alike s t) (r : FieldRef) (v : Raw) :
    AlikeRun (Machine.writeRoleRun r v s) (Machine.writeRoleRun r v t) := by
  unfold Machine.writeRoleRun
  rw [h.cfg]
  exact h.writeFieldRun _ _ _

theorem Alike.getRun {s t : State} (h : Alike s t) (a : Byte) : AlikeRun (Machine.getRun a s) (Machine.getRun a t) := by
  unfold Machine.getRun
  rw [h.cfg]
  cases resolveReg s.cfg a with
  | none => exact h.raiseRun _
  | some n => exact .ofRead (h.busRead n)

theorem Alike.setRun {s t : State} (h : Alike s t) (a : Byte) (v : Raw) :
    AlikeRun (Machine.setRun a v s) (Machine.setRun a v t) := by
  unfold Machine.setRun
  rw [h.cfg]
  cases resolveReg s.cfg a with
  | none => exact h.raiseRun _
  | some n =>
    simp only
    split
    · exact .ofWrite (h.busWrite n v)
    · exact h.raiseRun _

theorem Alike.getfRun {s t : State} (h : Alike s t) (a b : Byte) :
    AlikeRun (Machine.getfRun a b s) (Machine.getfRun a b t) := by
  unfold Machine.getfRun
  rw [h.cfg]
  cases resolveReg s.cfg a with
  | none => exact h.raiseRun _
  | some n =>
    simp only
    cases resolveField s.cfg n b with
    | none => exact h.raiseRun _
    | some f => exact .ofRead (h.readField n f)

theorem Alike.setfRun {s t : State} (h : Alike s t) (a b : Byte) (v : Raw) :
    AlikeRun (Machine.setfRun a b v s) (Machine.setfRun a b v t) := by
  unfold Machine.setfRun
  rw [h.cfg]
  cases resolveReg s.cfg a with
  | none => exact h.raiseRun _
  | some n =>
    simp only
    cases resolveField s.cfg n b with
    | none => exact h.raiseRun _
    | some f =>
      simp only
      cases f.access with
      | ro => exact h.raiseRun _
      | rw =>
        simp only
        split
        · exact (h.writeFieldRun n f v).andThen fun _ _ _ g => .ofWrite ⟨rfl, g⟩
        · exact h.raiseRun _

theorem Alike.getchRun {s t : State} (h : Alike s t) : AlikeRun (Machine.getchRun s) (Machine.getchRun t) := by
  unfold Machine.getchRun
  rw [h.cfg]
  exact .ofRead (h.busRead _)

theorem Alike.setchRun {s t : State} (h : Alike s t) (v : Raw) :
    AlikeRun (Machine.setchRun v s) (Machine.setchRun v t) := by
  unfold Machine.setchRun
  rw [h.cfg]
  split
  · exact h.raiseRun _
  · exact (h.writeRoleRun _ v).andThen fun _ _ _ g => .ofWrite ⟨rfl, g⟩

/-- A per-pipe flag write, whatever role of the configuration names the flag. -/
theorem Alike.psetFlagRun {s t : State} (h : Alike s t) (a : Byte) (v : Raw) (role : Config → PipeNo → FieldRef)
    {update : Bool → Pipe → Pipe}
    (hu : ∀ b (q q' : Pipe), q'.forget = q.forget → (update b q').forget = (update b q).forget) :
    AlikeRun (Machine.psetFlagRun a v (role s.cfg) update s) (Machine.psetFlagRun a v (role t.cfg) update t) := by
  rw [h.cfg]
  refine h.onPipeRun a fun p => ?_
  split
  · exact (h.writeRoleRun (role s.cfg p) v).andThen fun ok u u' g =>
      .ofWrite (Alike.copyIfWritten (r := (ok, u)) (r' := (ok, u')) ⟨rfl, g⟩ p (hu _))
  · exact h.raiseRun _

theorem Alike.psetaaRun {s t : State} (h : Alike s t) (a : Byte) (v : Raw) :
    AlikeRun (Machine.psetaaRun a v s) (Machine.psetaaRun a v t) :=
  h.psetFlagRun a v (fun c p => c.role.enAA[p]) fun _ _ _ e => e

theorem Alike.psetdplRun {s t : State} (h : Alike s t) (a : Byte) (v : Raw) :
    AlikeRun (Machine.psetdplRun a v s) (Machine.psetdplRun a v t) :=
  h.psetFlagRun a v (fun c p => c.role.dynPd[p]) fun _ _ _ e => e

theorem Alike.psetenRun {s t : State} (h : Alike s t) (a : Byte) (v : Raw) :
    AlikeRun (Machine.psetenRun a v s) (Machine.psetenRun a v t) :=
  h.psetFlagRun a v (fun c p => c.role.enRx[p]) fun _ _ _ e => e

/-- A per-pipe flag read, whatever role of the configuration names the flag. -/
theorem Alike.pgetFlagRun {s t : State} (h : Alike s t) (a : Byte) (role : Config → PipeNo → FieldRef) :
    AlikeRun (.onPipe a s fun p => .ofRead (Machine.readRole (role s.cfg p) s))
      (.onPipe a t fun p => .ofRead (Machine.readRole (role t.cfg p) t)) := by
  rw [h.cfg]
  exact h.onPipeRun a fun _ => .ofRead (h.readRole _)

theorem Alike.psetaddrRun {s t : State} (h : Alike s t) (a : Byte) (v : Raw) :
    AlikeRun (Machine.psetaddrRun a v s) (Machine.psetaddrRun a v t) :=
  h.onPipeRun a fun p => .ofWrite (Alike.copyIfWritten (h.busWrite _ v) p fun _ _ e => e)

theorem Alike.psetlenRun {s t : State} (h : Alike s t) (a : Byte) (v : Raw) :
    AlikeRun (Machine.psetlenRun a v s) (Machine.psetlenRun a v t) := by
  refine h.onPipeRun a fun p => ?_
  split
  · exact .ofWrite (Alike.copyIfWritten (h.busWrite _ v) p fun _ _ e =>
      congrArg (fun q : Pipe => { q with len := some v.toNat }) e)
  · exact h.raiseRun _

theorem Alike.drainRun {s t : State} (h : Alike s t) (b : Byte) :
    AlikeRun (Machine.drainRun b s) (Machine.drainRun b t) := by
  have e : t.status = s.status := by rw [h.rest]
  unfold Machine.drainRun
  rw [e]
  cases s.status with
  | rx => exact Alike.drainLoopRun _ _ h
  | powerDown | standBy | tx => exact h.raiseRun _

/-! ### GOTO -/

theorem Alike.runPU {s t : State} (h : Alike s t) : AlikeRun (Machine.runPU s) (Machine.runPU t) := by
  unfold Machine.runPU
  rw [h.cfg]
  refine (h.writeRoleRun _ 1).andThen fun ok u v g => ?_
  cases ok with
  | true => exact .point g fun _ _ g => .point (g.driveCe _) fun _ _ g => .done _ ((g.wait _).setStatus _)
  | false => exact .done _ g

theorem Alike.runPD {s t : State} (h : Alike s t) : AlikeRun (Machine.runPD s) (Machine.runPD t) := by
  unfold Machine.runPD
  rw [h.cfg]
  refine (h.writeRoleRun _ 0).andThen fun ok u v g => ?_
  cases ok with
  | true => exact .done _ (g.setStatus _)
  | false => exact .done _ g

theorem Alike.runRX {s t : State} (h : Alike s t) : AlikeRun (Machine.runRX s) (Machine.runRX t) := by
  unfold Machine.runRX
  rw [h.cfg]
  refine (h.writeRoleRun _ 1).andThen fun ok u v g => ?_
  cases ok with
  | true => exact .point g fun _ _ g => .done _ ((g.driveCe _).setStatus _)
  | false => exact .done _ g

theorem Alike.runTX {s t : State} (h : Alike s t) : AlikeRun (Machine.runTX s) (Machine.runTX t) := by
  unfold Machine.runTX
  rw [h.cfg]
  refine (h.writeRoleRun _ 0).andThen fun ok u v g => ?_
  cases ok with
  | true => exact .point g fun _ _ g => .point (g.driveCe _) fun _ _ g => .done _ ((g.wait _).setStatus _)
  | false => exact .done _ g

theorem Alike.runSB {s t : State} (h : Alike s t) : AlikeRun (Machine.runSB s) (Machine.runSB t) :=
  .point (h.driveCe _) fun _ _ g => .done _ ((g.wait _).setStatus _)

theorem Alike.runSBPD {s t : State} (h : Alike s t) : AlikeRun (Machine.runSBPD s) (Machine.runSBPD t) :=
  h.runSB.andThen fun _ _ _ g => .point g fun _ _ g => g.runPD

theorem Alike.edge {s t : State} (h : Alike s t) {source target : Status} {edge : State → Run Bool}
    (he : transition source target = some edge) : AlikeRun (edge s) (edge t) := by
  unfold transition at he
  split at he <;> cases he
  · exact h.runPU
  · exact h.runPD
  · exact h.runRX
  · exact h.runTX
  · exact h.runSB
  · exact h.runSB
  · exact h.runSBPD
  · exact h.runSBPD

theorem Alike.gotoRun {s t : State} (h : Alike s t) (target : Status) :
    AlikeRun (Machine.gotoRun target s) (Machine.gotoRun target t) := by
  have e : t.status = s.status := by rw [h.rest]
  unfold Machine.gotoRun
  rw [e]
  cases he : transition s.status target with
  | none => exact h.raiseRun _
  | some edge =>
    refine (h.edge he).andThen fun ok u v g => ?_
    have e : v.status = u.status := by rw [g.rest]
    rw [e]
    exact .done _ g

/-! ### All operations -/

/-- An operation that uses the bus or a pin is a run, alike from states alike. -/
theorem Alike.boundaryRun {s t : State} (h : Alike s t) {i : Instr} (hb : Instr.atBoundary i = true) :
    ∃ r r' : Run Response, AlikeRun r r' ∧ Machine.exec i s = .next r.answer ∧ Machine.exec i t = .next r'.answer ∧
      Machine.passes i s = r.passes ∧ Machine.passes i t = r'.passes := by
  cases i with
  | get a => exact ⟨_, _, h.getRun a, rfl, rfl, rfl, rfl⟩
  | set a v => exact ⟨_, _, h.setRun a v, rfl, rfl, rfl, rfl⟩
  | getf a b => exact ⟨_, _, h.getfRun a b, rfl, rfl, rfl, rfl⟩
  | setf a b v => exact ⟨_, _, h.setfRun a b v, rfl, rfl, rfl, rfl⟩
  | getch => exact ⟨_, _, h.getchRun, rfl, rfl, rfl, rfl⟩
  | setch v => exact ⟨_, _, h.setchRun v, rfl, rfl, rfl, rfl⟩
  | goto target => exact ⟨_, _, h.gotoRun target, rfl, rfl, rfl, rfl⟩
  | psetaddr a v => exact ⟨_, _, h.psetaddrRun a v, rfl, rfl, rfl, rfl⟩
  | psetlen a v => exact ⟨_, _, h.psetlenRun a v, rfl, rfl, rfl, rfl⟩
  | psetaa a v => exact ⟨_, _, h.psetaaRun a v, rfl, rfl, rfl, rfl⟩
  | psetdpl a v => exact ⟨_, _, h.psetdplRun a v, rfl, rfl, rfl, rfl⟩
  | pseten a v => exact ⟨_, _, h.psetenRun a v, rfl, rfl, rfl, rfl⟩
  | pgetaddr a => exact ⟨_, _, h.onPipeRun a fun p => .ofRead (h.busRead (.rxAddr p)), rfl, rfl, rfl, rfl⟩
  | pgetlen a => exact ⟨_, _, h.onPipeRun a fun p => .ofRead (h.busRead (.rxPw p)), rfl, rfl, rfl, rfl⟩
  | pgetaa a => exact ⟨_, _, h.pgetFlagRun a fun c p => c.role.enAA[p], rfl, rfl, rfl, rfl⟩
  | pgetdpl a => exact ⟨_, _, h.pgetFlagRun a fun c p => c.role.dynPd[p], rfl, rfl, rfl, rfl⟩
  | pgeten a => exact ⟨_, _, h.pgetFlagRun a fun c p => c.role.enRx[p], rfl, rfl, rfl, rfl⟩
  | drain b => exact ⟨_, _, h.drainRun b, rfl, rfl, rfl, rfl⟩
  | state | enq | hasdata | recv | recvw | dstop | shutdown | volume | play | track => cases hb

theorem Alike.raiseStop {s t : State} (h : Alike s t) : Alike s.raiseStop t.raiseStop :=
  h.map State.raiseStop (fun _ _ _ => rfl) fun _ => rfl

theorem Alike.shutdownTry {s t : State} (h : Alike s t) (e : Nat) :
    Alike (Machine.shutdownTry e s) (Machine.shutdownTry e t) := by
  have e1 : t.dec = s.dec := by rw [h.rest]
  have e2 : t.now = s.now := by rw [h.rest]
  unfold Machine.shutdownTry
  rw [e1, e2]
  split
  · exact (h.release .H).map finishShutdown (fun _ _ _ => rfl) fun _ => rfl
  · exact h.map (State.holdShutdown e) (fun _ _ _ => rfl) fun _ => rfl

theorem Alike.enqEffect {s t : State} (h : Alike s t) (a : Byte) (fr : Frame) :
    Alike (Machine.enqEffect a fr s) (Machine.enqEffect a fr t) := by
  unfold Machine.enqEffect
  cases checkPipe a with
  | none => exact h.raise _
  | some p =>
    simp only [(h.enqueue p fr).1]
    exact (h.enqueue p fr).2.respond _

theorem Alike.exec {s t : State} (h : Alike s t) (i : Instr) :
    ∃ u u', Machine.exec i s = .next u ∧ Machine.exec i t = .next u' ∧ Alike u u' := by
  cases hb : Instr.atBoundary i with
  | true =>
    obtain ⟨r, r', hr, e, e', -, -⟩ := h.boundaryRun hb
    exact ⟨_, _, e, e', hr.answer⟩
  | false =>
    cases i with
    | state =>
      have e : t.status = s.status := by rw [h.rest]
      exact ⟨_, _, rfl, rfl, e ▸ h.respond _⟩
    | enq a fr => exact ⟨_, _, rfl, rfl, h.enqEffect a fr⟩
    | hasdata a => exact ⟨_, _, rfl, rfl, h.hasdata a⟩
    | recv a => exact ⟨_, _, rfl, rfl, h.recv a⟩
    | recvw a timeout => exact ⟨_, _, rfl, rfl, h.recvw a timeout⟩
    | dstop => exact ⟨_, _, rfl, rfl, h.raiseStop.respond _⟩
    | shutdown =>
      have e : t.now + t.cfg.tStop = s.now + s.cfg.tStop := by rw [h.rest]
      refine ⟨_, _, rfl, rfl, ?_⟩
      unfold shutdownEffect
      rw [e]
      exact h.raiseStop.shutdownTry _
    | volume arg => exact ⟨_, _, rfl, rfl, h.emit _⟩
    | play arg => exact ⟨_, _, rfl, rfl, h.emit _⟩
    | track arg => exact ⟨_, _, rfl, rfl, h.track arg⟩
    | _ => cases hb

theorem Alike.passes {s t : State} (h : Alike s t) (i : Instr) :
    List.Forall₂ Alike (Machine.passes i s) (Machine.passes i t) := by
  cases hb : Instr.atBoundary i with
  | true =>
    obtain ⟨r, r', hr, -, -, e, e'⟩ := h.boundaryRun hb
    rw [e, e']
    exact hr.passes
  | false =>
    rw [passes_still hb, passes_still hb]
    exact .nil

theorem Alike.getD {s t : State} (h : Alike s t) {l m : List State} (hl : List.Forall₂ Alike l m) :
    ∀ k, Alike (l.getD k s) (m.getD k t) := by
  induction hl with
  | nil => exact fun _ => h
  | cons hx _ ih =>
    intro k
    cases k with
    | zero => exact hx
    | succ k => exact ih k

/-! ### One step -/

theorem Alike.pollOwner {s t : State} (h : Alike s t) : Alike (Machine.pollOwner s) (Machine.pollOwner t) := by
  have e : t.holdH = s.holdH := by rw [h.rest]
  have a := h.setPort (rfl : Port.H = .H)
  unfold Machine.pollOwner
  generalize ({ s with port := .H } : State) = s' at a ⊢
  generalize ({ t with port := .H } : State) = t' at a ⊢
  rw [e]
  cases s.holdH with
  | none => exact h
  | some hold =>
    cases hold with
    | recvw w => exact a.recvwPoll w
    | shutdown e => exact a.shutdownTry e

theorem Alike.doneConstruct {s t : State} (h : Alike s t) : AlikeTurn (.done s.construct) (.done t.construct) := by
  rw [h.construct]
  exact .done (.refl _)

theorem Alike.fetchOwnerReset {s t : State} (h : Alike s t) (word : CmdWord) (fr : Frame) (k : Nat) :
    AlikeTurn (Machine.fetchOwnerReset word fr k s) (Machine.fetchOwnerReset word fr k t) := by
  have f := h.fetchCommand .H word fr
  unfold Machine.fetchOwnerReset
  generalize Machine.fetchCommand .H word fr s = x at f ⊢
  generalize Machine.fetchCommand .H word fr t = y at f ⊢
  cases f with
  | run i hi => exact (hi.getD (hi.passes i) k).doneConstruct
  | done _ => exact h.doneConstruct
  | refuse r => exact .refuse r

theorem Alike.fetch {s t : State} (h : Alike s t) : AlikeTurn (Machine.fetch s) (Machine.fetch t) := by
  have e : t.inputs = s.inputs := by rw [h.rest]
  unfold Machine.fetch
  rw [e]
  cases s.inputs with
  | nil => exact .done h
  | cons i rest =>
    have a : Alike { s with inputs := rest } { t with inputs := rest } :=
      h.map (fun u => { u with inputs := rest }) (fun _ _ _ => rfl) fun _ => rfl
    cases i with
    | owner word fr => exact a.fetchCommand .H word fr
    | pollH => exact .done a.pollOwner
    | act act => exact a.fetchAct act
    | reset => exact a.doneConstruct
    | ownerReset word fr k => exact a.fetchOwnerReset word fr k

/-- From states alike a step comes to the same: states alike, or the same refusal. -/
theorem Alike.step {s t : State} (h : Alike s t) :
    (∃ u u', Machine.step s = .next u ∧ Machine.step t = .next u' ∧ Alike u u') ∨
      ∃ r, Machine.step s = .refused r ∧ Machine.step t = .refused r := by
  have f := h.fetch
  unfold Machine.step
  generalize Machine.fetch s = x at f ⊢
  generalize Machine.fetch t = y at f ⊢
  cases f with
  | run i hi => exact .inl (hi.exec i)
  | done hd => exact .inl ⟨_, _, rfl, rfl, hd⟩
  | refuse r => exact .inr ⟨r, rfl, rfl⟩

/-- Settles O42: states that differ only in what is forgotten are `Alike`, and a step keeps them so. -/
theorem copiesAreNotRead : Obligations.CopiesAreNotRead := by
  intro s s' h
  rcases (alike_of_forget h).step with ⟨u, u', e, e', a⟩ | ⟨r, e, e'⟩
  · refine ⟨fun t ht => ?_, fun r hr => ?_⟩
    · rw [e] at ht
      cases ht
      exact ⟨u', e', a.forget⟩
    · rw [e] at hr
      cases hr
  · refine ⟨fun t ht => ?_, fun r' hr => ?_⟩
    · rw [e] at ht
      cases ht
    · rw [e] at hr
      cases hr
      exact e'

end Sys2Proof.Machine

/-! ## Fields (R20, R21, R99) -/

namespace Sys2Proof.Machine

open Sys2Proof

theorem decodeField_plusOne {f : Field} (hd : f.decode = .plusOne) (hw : f.width ≤ 39) (raw : Raw) :
    (decodeField f raw).toNat = (extract f raw).toNat + 1 := by
  have hlt : (extract f raw).toNat < 2 ^ 39 := by
    rw [extract_toNat]
    exact lt_of_lt_of_le (Nat.mod_lt _ (Nat.two_pow_pos _)) (Nat.pow_le_pow_right (by omega) hw)
  have one : (1 : Raw).toNat = 1 := rfl
  simp only [decodeField, hd]
  rw [BitVec.toNat_add, one, Nat.mod_eq_of_lt (by omega)]

/-- Settles O6. -/
theorem fieldDecodeIsExact : Obligations.FieldDecodeIsExact := by
  refine fun f raw => ⟨extract_toNat f raw, fun hd => by simp only [decodeField, hd],
    fun hd hw => decodeField_plusOne hd hw raw, fun c n => ⟨List.length_map .., fun j g hg => ?_⟩⟩
  rw [decodeAll, List.getElem?_map, hg]
  rfl

theorem insert_lt_two_pow {f : Field} {raw v : Raw} {m : Nat} (hv : v.toNat < 2 ^ f.width)
    (hm : f.off + f.width ≤ m) (hr : raw.toNat < 2 ^ m) :
    (insertField f raw v).toNat < 2 ^ m := by
  rcases Nat.le_total m 40 with h | h
  · exact insert_lt hv hm h hr
  · exact lt_of_lt_of_le (BitVec.isLt _) (Nat.pow_le_pow_right (by omega) h)

theorem extract_insert_same {f : Field} {raw v : Raw} (hv : v.toNat < 2 ^ f.width) (hf : f.off + f.width ≤ 40) :
    extract f (insertField f raw v) = v := by
  refine BitVec.eq_of_getLsbD_eq fun k _ => ?_
  rw [extract_bit, insert_bit f raw v hv hf]
  by_cases hk : k < f.width
  · simp [hk]
  · have hvk : v.getLsbD k = false :=
      Nat.testBit_lt_two_pow (lt_of_lt_of_le hv (Nat.pow_le_pow_right (by omega) (by omega)))
    simp [hk, hvk]

theorem extract_insert_disjoint {f g : Field} {raw v : Raw} (hv : v.toNat < 2 ^ f.width)
    (hf : f.off + f.width ≤ 40) (hd : f.disjoint g = true) : extract g (insertField f raw v) = extract g raw := by
  simp only [Field.disjoint, Bool.or_eq_true, decide_eq_true_eq] at hd
  refine BitVec.eq_of_getLsbD_eq fun k _ => ?_
  rw [extract_bit, extract_bit, insert_bit f raw v hv hf]
  by_cases hk : k < g.width
  · rw [if_neg (by omega)]
  · simp [hk]

/-- Settles O7, law by law. -/
theorem fieldInsertReplacesTheField : Obligations.FieldInsertReplacesTheField := fun f raw v hv hf =>
  ⟨fun k _ => insert_bit f raw v hv hf k, fun _ hm hr => insert_lt_two_pow hv hm hr,
    extract_insert_same hv hf, fun _ hd => extract_insert_disjoint hv hf hd⟩

end Sys2Proof.Machine

/-! ## Invariants (R19, R32, R27, R28): what each move keeps, a step keeps -/

namespace Sys2Proof.Machine

open Sys2Proof

/-- A property that every move keeps and that a reset under the same configuration meets is kept by a step. -/
theorem step_keeps {P : State → Prop} {s t : State} (move : ∀ g a b, P a → Move g a b → P b)
    (reset : ∀ u : State, u.cfg = s.cfg → P u.construct) (hs : P s) (h : step s = .next t) : P t := by
  rcases step_moves s with ⟨u, e, hc, -⟩ | ⟨t', e, m⟩ | ⟨t', -, -, -, -, -, -, e, m⟩ | ⟨r, e⟩ <;>
    rw [e] at h <;> cases h
  · exact reset u hc
  · exact m.keeps (move false) hs
  · exact m.keeps (move true) hs

theorem Move.cfg_eq {g : Bool} {s t : State} (m : Move g s t) : t.cfg = s.cfg := by
  cases m with
  | release p | holdRecvw p _ _ | cancel p _ => cases p <;> rfl
  | enqueue p fr => rw [enqueue_same]
  | _ => rfl

/-! ### Queues and lengths -/

theorem PipesWithinBounds.setPipe {s : State} (h : PipesWithinBounds s) {p : PipeNo} {r : Pipe}
    (hr : Pipe.within s.cfg.cap[p] r) : PipesWithinBounds (s.setPipe p r) := by
  intro q
  by_cases hq : p = q
  · subst hq
    rw [State.setPipe_get]
    exact hr
  · rw [State.setPipe_get_ne hq]
    exact h q

theorem PipesWithinBounds.enqueue {s : State} (h : PipesWithinBounds s) (p : PipeNo) {fr : Frame}
    (hfr : fr.length ≤ 32) : PipesWithinBounds (Machine.enqueue p fr s).2 := by
  obtain ⟨hq, hf, hl⟩ := h p
  rcases enqueue_cases p fr s with ⟨room, e⟩ | ⟨-, e⟩ <;> rw [e]
  · refine h.setPipe ⟨?_, fun x hx => ?_, hl⟩
    · simpa using room
    · rcases List.mem_append.1 hx with hx | hx
      · exact hf x hx
      · rw [List.mem_singleton.1 hx]
        exact hfr
  · exact h.setPipe (r := s.pipe[p].countDrop) ⟨hq, hf, hl⟩

theorem PipesWithinBounds.dequeue {s : State} (h : PipesWithinBounds s) (p : PipeNo) :
    PipesWithinBounds (Machine.dequeue p s) := by
  obtain ⟨hq, hf, hl⟩ := h p
  refine h.setPipe ⟨?_, fun x hx => hf x (List.mem_of_mem_tail hx), hl⟩
  rw [List.length_tail]
  omega

theorem Move.keeps_pipesWithinBounds (g : Bool) (s t : State) (h : PipesWithinBounds s) (m : Move g s t) :
    PipesWithinBounds t := by
  cases m with
  | copy p addr len aa dpl en hlen =>
    obtain ⟨hq, hf, hl⟩ := h p
    refine h.setPipe ⟨hq, hf, fun l hm => ?_⟩
    rcases hlen l hm with e | e
    · exact hl l (e ▸ hm)
    · exact e
  | enqueue p fr hfr => exact h.enqueue p (hfr h)
  | dequeue p => exact h.dequeue p
  | release p | holdRecvw p _ _ | cancel p _ => cases p <;> exact h
  | _ => exact h

theorem pipesWithinBounds_resetFor (c : Config) : PipesWithinBounds (State.resetFor c) := by
  intro p
  have e : (State.resetFor c).pipe[p] = Pipe.initial := by simp [State.resetFor]
  rw [e]
  exact ⟨Nat.zero_le _, nofun, nofun⟩

/-- Settles O53: every move keeps the bounds, and a reset meets them. -/
theorem pipesWithinBoundsKept : Obligations.PipesWithinBoundsKept := fun _ _ hs h =>
  step_keeps Move.keeps_pipesWithinBounds (fun u _ => pipesWithinBounds_resetFor u.cfg) hs h

/-! ### The lifecycle -/

theorem LifecycleInv.release {s : State} (h : LifecycleInv s) (p : Port) : LifecycleInv (s.release p) := by
  cases p with
  | H => exact { h with closedPort := fun _ => rfl, shutdownStop := nofun }
  | C => exact { h with }

theorem LifecycleInv.holdRecvw {s : State} (h : LifecycleInv s) {p : Port} (w : Waiting)
    (ho : p = .H → s.life = .opened) : LifecycleInv (s.holdRecvw p w) := by
  cases p with
  | H =>
    refine { h with closedPort := fun hc => ?_, shutdownStop := nofun }
    rw [State.holdRecvw_life, ho rfl] at hc
    cases hc
  | C => exact { h with }

theorem LifecycleInv.holdShutdown {s : State} (h : LifecycleInv s) (e : Nat) (hs : s.stop = true)
    (ho : s.life = .opened) : LifecycleInv (s.holdShutdown e) := by
  refine { h with closedPort := fun hc => ?_, shutdownStop := fun _ _ => hs }
  rw [State.holdShutdown_life, ho] at hc
  cases hc

theorem Move.keeps_lifecycleInv (g : Bool) (s t : State) (h : LifecycleInv s) (m : Move g s t) : LifecycleInv t := by
  cases m with
  | exit _ => exact { h with noDecoder := fun _ => rfl, closedDecoder := fun _ => rfl }
  | stop => exact { h with closedStop := fun _ => rfl, shutdownStop := fun _ _ => rfl }
  | close hs =>
    exact
      { noDecoder := fun _ => rfl
        closedDecoder := fun _ => rfl
        closedStop := fun _ => hs h
        closedPort := fun _ => rfl
        shutdownStop := nofun }
  | release p => exact h.release p
  | holdRecvw p w ho => exact h.holdRecvw w fun e => ho e h
  | holdShutdown e hs => exact h.holdShutdown e (hs h).1 (hs h).2
  | enqueue p fr => rw [enqueue_same]; exact { h with }
  | cancel p _ => cases p <;> exact { h with }
  | _ => exact { h with }

theorem lifecycleInv_resetFor (c : Config) : LifecycleInv (State.resetFor c) where
  noDecoder h := by
    have h : c.decPipe = none := h
    simp [State.resetFor, h]
  closedDecoder := nofun
  closedStop := nofun
  closedPort := nofun
  shutdownStop := nofun

/-- A reset keeps what belongs to the environment, which the invariant does not speak of. -/
theorem lifecycleInv_construct (u : State) : LifecycleInv u.construct := { lifecycleInv_resetFor u.cfg with }

/-- Settles O56: every move keeps the invariant, and a reset meets it. -/
theorem lifecycleKept : Obligations.LifecycleKept := fun _ _ hs h =>
  step_keeps Move.keeps_lifecycleInv (fun u _ => lifecycleInv_construct u) hs h

/-! ### The mirror -/

theorem RegFile.set_tab_length (f : RegFile) (n : RegName) (v : Raw) : (f.set n v).tab.length = f.tab.length := by
  cases n with
  | tab i => simp [RegFile.set]
  | _ => rfl

theorem RegFile.set_beyond {f : RegFile} {i : Nat} (h : ¬ i < f.tab.length) (v : Raw) : f.set (.tab i) v = f := by
  simp [RegFile.set, List.set_eq_of_length_le (Nat.le_of_not_lt h)]

theorem MirrorFits.set {s : State} (h : MirrorFits s) {n : RegName} {v : Raw}
    (hv : v.toNat < 2 ^ (8 * s.cfg.bytesOf n)) : MirrorFits { s with mirror := s.mirror.set n v } := by
  obtain ⟨hl, hm⟩ := h
  refine ⟨(RegFile.set_tab_length _ _ _).trans hl, fun m hmem => ?_⟩
  by_cases hnm : n = m
  · subst hnm
    by_cases hi : ∀ i, n = .tab i → i < s.mirror.tab.length
    · simpa only [RegFile.get_set_same hi] using hv
    · push Not at hi
      obtain ⟨i, rfl, hi⟩ := hi
      simpa only [RegFile.set_beyond (Nat.not_lt.2 hi)] using hm _ hmem
  · simpa only [RegFile.get_set_ne hnm] using hm m hmem

/-- The mirror fits under a well-formed configuration: what moves keep (R19, R44). -/
def MirrorFitsWf (s : State) : Prop := s.cfg.wf = true ∧ MirrorFits s

theorem Move.keeps_mirrorFitsWf (g : Bool) (s t : State) (h : MirrorFitsWf s) (m : Move g s t) : MirrorFitsWf t := by
  obtain ⟨hw, hm⟩ := h
  refine ⟨m.cfg_eq ▸ hw, ?_⟩
  cases m with
  | mirror n v hv => exact hm.set (hv hw)
  | enqueue p fr => rw [enqueue_same]; exact hm
  | release p | holdRecvw p _ _ | cancel p _ => cases p <;> exact hm
  | _ => exact hm

/-! ### The mirror after reset: a register's default fits the register (R16) -/

theorem Field.dflt_bit {w : RegWidth} {f : Field} (h : f.wf w = true) {k : Nat}
    (hk : (f.dflt <<< f.off).getLsbD k = true) : f.off ≤ k ∧ k < f.off + f.width := by
  simp only [Field.wf, Bool.and_eq_true, decide_eq_true_eq] at h
  simp only [BitVec.getLsbD_shiftLeft, Bool.and_eq_true, Bool.not_eq_true', decide_eq_true_eq,
    decide_eq_false_iff_not, Nat.not_lt] at hk
  refine ⟨hk.1.2, ?_⟩
  by_contra hge
  have : f.dflt.getLsbD (k - f.off) = false :=
    Nat.testBit_lt_two_pow (lt_of_lt_of_le h.2 (Nat.pow_le_pow_right (by omega) (by omega)))
  rw [this] at hk
  exact Bool.false_ne_true hk.2

/-- Adding a field's default where its bits are 0 changes no other bit. -/
theorem add_dflt_bit {w : RegWidth} {f : Field} (h : f.wf w = true) {acc : Raw}
    (hacc : ∀ j, f.off ≤ j → j < f.off + f.width → acc.getLsbD j = false) {k : Nat}
    (hk : ¬ (f.off ≤ k ∧ k < f.off + f.width)) : (acc + (f.dflt <<< f.off)).getLsbD k = acc.getLsbD k := by
  have hor : acc + (f.dflt <<< f.off) = acc ||| (f.dflt <<< f.off) := by
    refine BitVec.add_eq_or_of_and_eq_zero _ _ (BitVec.eq_of_getLsbD_eq fun j _ => ?_)
    cases hj : (f.dflt <<< f.off).getLsbD j with
    | false => simp [hj]
    | true =>
      obtain ⟨h1, h2⟩ := Field.dflt_bit h hj
      simp [hacc j h1 h2]
  have out : (f.dflt <<< f.off).getLsbD k = false := Bool.eq_false_iff.2 fun hb => hk (Field.dflt_bit h hb)
  rw [hor, BitVec.getLsbD_or, out, Bool.or_false]

/-- The sum of the defaults of disjoint fields has no bit beyond the register, when it begins with none there and none
in the fields. -/
theorem foldl_dflt_bit {w : RegWidth} {l : List Field} : ∀ {acc : Raw}, (∀ f ∈ l, f.wf w = true) →
    l.Pairwise (fun f g => f.disjoint g = true) →
    (∀ f ∈ l, ∀ j, f.off ≤ j → j < f.off + f.width → acc.getLsbD j = false) →
    ∀ k, 8 * w.bytes ≤ k → acc.getLsbD k = false →
      (l.foldl (fun acc f => acc + (f.dflt <<< f.off)) acc).getLsbD k = false := by
  induction l with
  | nil => exact fun _ _ _ _ _ h => h
  | cons f l ih =>
    intro acc hwf hpw hacc k hk hak
    obtain ⟨hf, hl⟩ := List.pairwise_cons.1 hpw
    obtain ⟨hwff, hwfl⟩ := List.forall_mem_cons.1 hwf
    obtain ⟨haccf, haccl⟩ := List.forall_mem_cons.1 hacc
    refine ih hwfl hl (fun g hg j h1 h2 => ?_) k hk ?_
    · have hd := hf g hg
      simp only [Field.disjoint, Bool.or_eq_true, decide_eq_true_eq] at hd
      rw [add_dflt_bit hwff haccf (by omega)]
      exact haccl g hg j h1 h2
    · have hb := Field.wf_bound hwff
      rw [add_dflt_bit hwff haccf (by omega)]
      exact hak

theorem RegDesc.dflt_lt {r : RegDesc} (h : r.wf = true) : r.dflt.toNat < 2 ^ (8 * r.width.bytes) := by
  have hf : ∀ f ∈ r.fields, f.wf r.width = true := fun _ => RegDesc.wf_field h
  simp only [RegDesc.wf, Bool.and_eq_true, decide_eq_true_eq] at h
  apply Nat.lt_pow_two_of_testBit
  intro k hk
  exact foldl_dflt_bit hf h.2 (fun _ _ _ _ _ => BitVec.getLsbD_zero) k hk BitVec.getLsbD_zero

theorem Config.wf_rxPw {c : Config} (hw : c.wf = true) (p : PipeNo) : c.pseudo.rxPw[p].dflt.toNat < 256 := by
  simp only [Config.wf, Config.boundsWf, Bool.and_eq_true] at hw
  simpa using List.all_eq_true.1 hw.2.2 c.pseudo.rxPw[p] (by simp)

theorem mirrorFits_resetFor {c : Config} (hw : c.wf = true) : MirrorFits (State.resetFor c) := by
  refine ⟨by simp [State.resetFor, Config.defaults], fun n hn => ?_⟩
  cases n with
  | tab i =>
    have hi : i < c.table.length := by simpa [State.resetFor, Config.names] using hn
    have e : (State.resetFor c).mirror.get (.tab i) = c.table[i].dflt := by
      simp [State.resetFor, Config.defaults, RegFile.get, hi]
    rw [e, Config.bytesOf_tab (c := (State.resetFor c).cfg) (List.getElem?_eq_getElem hi)]
    exact RegDesc.dflt_lt (Config.wf_reg hw (List.getElem_mem hi))
  | rxAddr p => exact BitVec.isLt _
  | txAddr => exact BitVec.isLt _
  | rxPw p =>
    have e : (State.resetFor c).mirror.get (.rxPw p) = c.pseudo.rxPw[p].dflt := by
      simp [State.resetFor, Config.defaults, RegFile.get]
    rw [e]
    exact Config.wf_rxPw hw p

/-- Settles O55: every move keeps the mirror fitting, and a reset under a well-formed configuration meets it. -/
theorem mirrorFitsKept : Obligations.MirrorFitsKept := by
  intro s t hw hm h
  have reset : ∀ u : State, u.cfg = s.cfg → MirrorFitsWf u.construct := by
    intro u hu
    have huw : u.cfg.wf = true := hu ▸ hw
    exact ⟨huw, mirrorFits_resetFor huw⟩
  obtain ⟨-, ht⟩ := step_keeps Move.keeps_mirrorFitsWf reset ⟨hw, hm⟩ h
  exact ht

/-! ### Reset -/

theorem historyAgrees_resetFor (c : Config) : HistoryAgrees (State.resetFor c) where
  brackets := rfl
  csn := rfl
  ce := rfl
  busFault := rfl
  drops p := by simp [State.resetFor, Pipe.initial, dropCount]
  decFail := rfl
  life := by simp [State.resetFor]

/-- Settles O57, invariant by invariant. -/
theorem resetMeetsInvariants : Obligations.ResetMeetsInvariants := fun c =>
  ⟨pipesWithinBounds_resetFor c, historyAgrees_resetFor c, lifecycleInv_resetFor c, mirrorFits_resetFor⟩

/-! ### What never goes back -/

/-- Counters do not decrease, sticky bits stay set, a closed RFB and an exited decoder stay so, and the history grows
(R10, R13, R32). -/
structure Forward (s t : State) : Prop where
  drops : ∀ p : PipeNo, s.pipe[p].drops ≤ t.pipe[p].drops
  decFail : s.decFail ≤ t.decFail
  busFault : s.busFault = true → t.busFault = true
  stop : s.stop = true → t.stop = true
  life : s.life = .closed → t.life = .closed
  dec : s.dec = .exited → t.dec = .exited
  hist : s.hist <+: t.hist

theorem Forward.refl (s : State) : Forward s s := ⟨fun _ => le_rfl, le_rfl, id, id, id, id, List.prefix_rfl⟩

theorem Forward.trans {s t u : State} (h : Forward s t) (g : Forward t u) : Forward s u where
  drops p := (h.drops p).trans (g.drops p)
  decFail := h.decFail.trans g.decFail
  busFault := g.busFault ∘ h.busFault
  stop := g.stop ∘ h.stop
  life := g.life ∘ h.life
  dec := g.dec ∘ h.dec
  hist := h.hist.trans g.hist

theorem Forward.setPipe (s : State) {p : PipeNo} {r : Pipe} (hr : s.pipe[p].drops ≤ r.drops) :
    Forward s (s.setPipe p r) := by
  refine { Forward.refl s with drops := fun q => ?_ }
  by_cases hq : p = q
  · subst hq
    rw [State.setPipe_get]
    exact hr
  · rw [State.setPipe_get_ne hq]

theorem Forward.emit (s : State) (e : Event) : Forward s (s.emit e) :=
  { Forward.refl s with hist := List.prefix_append _ _ }

theorem Forward.enqueue (p : PipeNo) (fr : Frame) (s : State) : Forward s (Machine.enqueue p fr s).2 := by
  rcases enqueue_cases p fr s with ⟨-, e⟩ | ⟨-, e⟩ <;> rw [e]
  · exact .setPipe s le_rfl
  · exact (Forward.setPipe s (r := s.pipe[p].countDrop) (Nat.le_succ _)).trans (.emit _ _)

theorem Move.forward {g : Bool} {s t : State} (m : Move g s t) : Forward s t := by
  have same := Forward.refl s
  cases m with
  | bracket body now draws device _ _ =>
    exact { same with busFault := fun h => by simp [h], hist := List.prefix_append _ _ }
  | wait | ce | player => exact { same with hist := List.prefix_append _ _ }
  | copy p addr len aa dpl en _ => exact .setPipe s le_rfl
  | enqueue p fr _ => exact .enqueue p fr s
  | dequeue p => exact .setPipe s le_rfl
  | decodeFailure fr => exact { same with decFail := Nat.le_succ _, hist := List.prefix_append _ _ }
  | exit _ => exact { same with dec := fun _ => rfl }
  | stop => exact { same with stop := fun _ => rfl }
  | close _ => exact { same with life := fun _ => rfl, dec := fun _ => rfl, hist := List.prefix_append _ _ }
  | release p | holdRecvw p _ _ | cancel p _ => cases p <;> exact { same with }
  | _ => exact { same with }

theorem Moves.forward {g : Bool} {s t : State} (h : Moves g s t) : Forward s t :=
  h.relates Forward.refl Forward.trans fun _ _ => Move.forward

theorem step_cfg {s t : State} (h : step s = .next t) : t.cfg = s.cfg :=
  step_keeps (P := fun u => u.cfg = s.cfg) (fun _ _ _ ha m => m.cfg_eq.trans ha) (fun _ hu => hu) rfl h

/-- Settles O58: a step that is no reset is a sequence of moves, each of which goes forward. -/
theorem neverGoesBack : Obligations.NeverGoesBack := by
  intro s t h
  refine ⟨step_cfg h, fun hreset hownerReset => ?_⟩
  have forward : Forward s t := by
    rcases step_moves s with ⟨-, -, -, ⟨rest, hi⟩ | ⟨w, fr, k, rest, hi⟩⟩ | ⟨t', e, m⟩ |
      ⟨t', -, -, -, -, -, -, e, m⟩ | ⟨r, e⟩
    · exact absurd hi (hreset rest)
    · exact absurd hi (hownerReset w fr k rest)
    · rw [e] at h
      cases h
      exact m.forward
    · rw [e] at h
      cases h
      exact m.forward
    · rw [e] at h
      cases h
  obtain ⟨hdrops, hfail, hfault, hstop, hlife, hdec, hhist⟩ := forward
  exact ⟨hdrops, hfail, hfault, hstop, hlife, hdec, hhist⟩

/-! ### The status and chip-enable -/

theorem Move.status_ce {s t : State} (m : Move false s t) : t.status = s.status ∧ t.ce = s.ce := by
  cases m with
  | ce _ h | status _ h => cases h
  | enqueue p fr => rw [enqueue_same]; exact ⟨rfl, rfl⟩
  | release p | holdRecvw p _ _ | cancel p _ => cases p <;> exact ⟨rfl, rfl⟩
  | _ => exact ⟨rfl, rfl⟩

theorem Moves.status_ce {s t : State} (h : Moves false s t) : t.status = s.status ∧ t.ce = s.ce :=
  h.relates (R := fun a b => b.status = a.status ∧ b.ce = a.ce) (fun _ => ⟨rfl, rfl⟩)
    (fun h g => ⟨g.1.trans h.1, g.2.trans h.2⟩) fun _ _ => Move.status_ce

/-- Settles O28: of the cases of a step, one that is neither a reset nor the owner's GOTO moves neither. -/
theorem onlyGotoChangesStatus : Obligations.OnlyGotoChangesStatus := by
  intro s t h changed
  rcases step_moves s with ⟨-, -, -, hi⟩ | ⟨t', e, m⟩ | ⟨t', w, fr, target, rest, hi, hd, -, -⟩ | ⟨r, e⟩
  · exact .inr hi
  · rw [e] at h
    cases h
    rcases changed with hst | hce
    · exact absurd m.status_ce.1 hst
    · exact absurd m.status_ce.2 hce
  · exact .inl ⟨w, fr, target, rest, hi, hd⟩
  · rw [e] at h
    cases h

end Sys2Proof.Machine

/-! ## Reset (R33, R215) -/

namespace Sys2Proof.Machine

open Sys2Proof

theorem fetch_of_input {s : State} {i : Input} {rest : List Input} (h : s.inputs = i :: rest) :
    fetch s = fetchInput i { s with inputs := rest } := by rw [fetch, h]

theorem step_of_done {s t : State} (h : fetch s = .done t) : step s = .next t := by rw [step, h]

/-- A command word that starts no operation is answered on port H (R75). -/
theorem fetchCommand_H_answers {w : CmdWord} {fr : Frame} {s : State} (hf : s.holdH = none)
    (h : s.life = .closed ∨ ∀ i, decodeWord w fr ≠ .ok i) : ∃ t, fetchCommand .H w fr s = .done t := by
  rcases fetchCommand_cases .H w fr s with ⟨hb, -⟩ | ⟨-, r, e⟩ | ⟨-, ho, i, hd, -⟩
  · simp [State.busy, hf] at hb
  · exact ⟨_, e⟩
  · rcases h with hc | hn
    · rw [ho] at hc
      cases hc
    · exact absurd hd (hn i)

/-- A command word that decodes starts its operation on a free port H of an open RFB (R75). -/
theorem fetchCommand_H_runs {w : CmdWord} {fr : Frame} {s : State} {i : Instr} (hf : s.holdH = none)
    (ho : s.life = .opened) (hd : decodeWord w fr = .ok i) :
    fetchCommand .H w fr s = .run i { s with port := .H } := by
  have hb : s.busy .H = false := by simp [State.busy, hf]
  simp [fetchCommand, hb, ho, hd]

/-- A reset inside an operation of port H: in the state the operation passes, or where it began (R215). -/
theorem step_ownerReset {s : State} {rest : List Input} {w : CmdWord} {fr : Frame} {k : Nat}
    (h : s.inputs = .ownerReset w fr k :: rest) (hf : s.holdH = none) :
    (s.life = .closed ∨ (∀ i, decodeWord w fr ≠ .ok i) →
      step s = .next (State.construct { s with inputs := rest })) ∧
    ∀ i, s.life = .opened → decodeWord w fr = .ok i →
      step s = .next ((passes i { s with inputs := rest, port := .H }).getD k
        { s with inputs := rest, port := .H }).construct := by
  refine ⟨fun hn => step_of_done ?_, fun i ho hd => step_of_done ?_⟩
  · obtain ⟨t, e⟩ := fetchCommand_H_answers (s := { s with inputs := rest }) hf hn
    rw [fetch_of_input h, fetchInput, fetchOwnerReset, e]
  · have e := fetchCommand_H_runs (s := { s with inputs := rest }) hf ho hd
    rw [fetch_of_input h, fetchInput, fetchOwnerReset, e]

/-- The states an operation on the bus or the pins passes are those in which it has done a closed first part of its
events (R215, R42; log entry 23). -/
theorem passes_partDone {i : Instr} (hb : Instr.atBoundary i = true) (s : State) :
    ∃ last r, exec i s = .next (last.respond r) ∧ (passes i s).getLast? = some last ∧
      (∀ u ∈ passes i s, ∃ done, PartDone s u done ∧ ownerEvents u.hist <+: ownerEvents last.hist) ∧
      ∀ done, wellBracketed done = true → ownerEvents s.hist ++ done <+: ownerEvents last.hist →
        done = [] ∨ ∃ u ∈ passes i s, PartDone s u done := by
  obtain ⟨r, es, he, hp, hs⟩ := passes_staged hb s
  have part : ∀ {u : State} {l m : List (List Event)}, es = l ++ m → OwnerRan s u l.flatten →
      PartDone s u l.flatten := fun hl g =>
    ⟨g.events, stretches_closed fun e h => hs.stretches e (by simp [hl, h]), g.replies, g.rest⟩
  have last : ownerEvents r.finish.2.hist = ownerEvents s.hist ++ es.flatten := hs.finish.events
  refine ⟨r.finish.2, r.finish.1, he, hp ▸ r.passes_getLast, fun u hu => ?_, fun done hd hpre => ?_⟩
  · obtain ⟨l, m, hl, g⟩ := hs.passed u (hp ▸ hu)
    refine ⟨l.flatten, part hl g, m.flatten, ?_⟩
    rw [last, g.events, hl, List.flatten_append, List.append_assoc]
  · rw [last, List.prefix_append_right_inj] at hpre
    obtain ⟨more, hmore⟩ := hpre
    obtain ⟨l, m, hl, rfl⟩ := stretches_part hs.stretches hmore.symm hd
    by_cases hnil : l = []
    · exact .inl (by rw [hnil]; rfl)
    · obtain ⟨u, hu, g⟩ := hs.passes_all l m hl hnil
      exact .inr ⟨u, hp ▸ hu, part hl g⟩

/-- Settles O59: a reset step constructs RFB anew, and the states it meets inside an operation are those passed. -/
theorem resetValues : Obligations.ResetValues := by
  refine ⟨fun s rest => ⟨fun h => ?_, fun w fr k h hf => ⟨fun hn => ?_, fun i ho hd => ?_⟩⟩,
    fun i s _ => ⟨fun hb => passes_still hb s, fun hb => passes_partDone hb s⟩⟩
  · exact ⟨_, step_of_done (fetch_of_input h), construct_from _⟩
  · exact ⟨_, (step_ownerReset h hf).1 hn, construct_from _⟩
  · exact ⟨_, (step_ownerReset h hf).2 i ho hd, construct_from _⟩

end Sys2Proof.Machine

/-! ## The history (R13, R23, R28, R42): how what the state records of it grows with it -/

namespace Sys2Proof.Machine

open Sys2Proof

theorem lastCsn_append (l m : List Event) : lastCsn (l ++ m) = (lastCsn m).or (lastCsn l) := by
  induction m using List.reverseRecOn with
  | nil => simp [lastCsn]
  | append_singleton m e ih =>
    rw [← List.append_assoc]
    cases e with
    | csn v => rw [lastCsn_csn, lastCsn_csn, Option.some_or]
    | _ => rw [lastCsn_snoc _ _ (by simp), lastCsn_snoc _ _ (by simp), ih]

theorem lastCe_append (l m : List Event) : lastCe (l ++ m) = (lastCe m).or (lastCe l) := by
  induction m using List.reverseRecOn with
  | nil => simp [lastCe]
  | append_singleton m e ih =>
    rw [← List.append_assoc]
    cases e with
    | ce v => rw [lastCe_ce, lastCe_ce, Option.some_or]
    | _ => rw [lastCe_snoc _ _ (by simp), lastCe_snoc _ _ (by simp), ih]

theorem wellBracketed_append {l m : List Event} (hl : wellBracketed l = true) (hm : Stretch m) :
    wellBracketed (l ++ m) = true := by
  have hf : l.foldl bracketStep (some false) = some false := of_decide_eq_true hl
  rw [wellBracketed, List.foldl_append, hf, hm.closed]
  rfl

/-- When a stretch of events follows and the record takes it in, the state still agrees with the history. By default
the record is the one the stretch's own events compute to. -/
theorem HistoryAgrees.append {s t : State} (h : HistoryAgrees s) {l : List Event} (hl : Stretch l)
    (hist : t.hist = s.hist ++ l := by rfl)
    (csn : t.csn = (lastCsn l).or s.csn := by rfl)
    (ce : t.ce = (lastCe l).or s.ce := by rfl)
    (busFault : t.busFault = (s.busFault || anyFailure l) := by exact (Bool.or_false _).symm)
    (drops : ∀ p : PipeNo, t.pipe[p].drops = s.pipe[p].drops + dropCount p l := by exact fun _ => rfl)
    (decFail : t.decFail = s.decFail + decodeFailureCount l := by rfl)
    (life : t.life = .closed ↔ s.life = .closed ∨ Event.close ∈ l := by simp) : HistoryAgrees t where
  brackets := hist ▸ wellBracketed_append h.brackets hl
  csn := by rw [csn, h.csn, hist, lastCsn_append]
  ce := by rw [ce, h.ce, hist, lastCe_append]
  busFault := by rw [busFault, h.busFault, hist, anyFailure_append]
  drops p := by rw [drops, h.drops, hist, dropCount_append]
  decFail := by rw [decFail, h.decFail, hist, decodeFailureCount_append]
  life := by rw [life, h.life, hist, List.mem_append]

/-! ### Brackets -/

theorem Event.isTransfer_cases {e : Event} (h : Event.isTransfer e = true) :
    (∃ o i, e = .xfer o i) ∨ ∃ o, e = .xferFail o := by
  cases e with
  | xfer o i => exact .inl ⟨o, i, rfl⟩
  | xferFail o => exact .inr ⟨o, rfl⟩
  | _ => cases h

theorem lastCsn_bracketEvents (c : Config) (body : List Event) : lastCsn (bracketEvents c body) = some .high := by
  rw [bracketEvents, lastCsn_append]
  rfl

section Transfers

variable {body : List Event} (h : ∀ e ∈ body, Event.isTransfer e = true) (c : Config)
include h

theorem lastCe_transfers : lastCe body = none := by
  induction body using List.reverseRecOn with
  | nil => rfl
  | append_singleton m e ih =>
    have he : ∀ v, e ≠ .ce v := by
      rintro v rfl
      cases h (.ce v) (by simp)
    rw [lastCe_snoc _ _ he, ih fun x hx => h x (by simp [hx])]

theorem lastCe_bracketEvents : lastCe (bracketEvents c body) = none := by
  rw [bracketEvents, lastCe_append, lastCe_append, lastCe_transfers h]
  rfl

theorem dropCount_bracketEvents (p : PipeNo) : dropCount p (bracketEvents c body) = 0 := by
  rw [bracketEvents, dropCount_append, dropCount_append,
    dropCount_transfers fun e he => Event.isTransfer_cases (h e he)]
  rfl

theorem decodeFailureCount_bracketEvents : decodeFailureCount (bracketEvents c body) = 0 := by
  rw [bracketEvents, decodeFailureCount_append, decodeFailureCount_append,
    decodeFailureCount_transfers fun e he => Event.isTransfer_cases (h e he)]
  rfl

theorem close_not_mem_bracketEvents : Event.close ∉ bracketEvents c body := by
  have hb : Event.close ∉ body := fun hm => Bool.false_ne_true (h _ hm)
  simp [bracketEvents, hb]

end Transfers

theorem anyFailure_bracketEvents (c : Config) (body : List Event) :
    anyFailure (bracketEvents c body) = anyFailure body := by
  simp [bracketEvents, anyFailure]

/-! ### Moves -/

/-- A change of a pipe record that leaves its count of drops alone is not in the history. -/
theorem HistoryAgrees.setPipe {s : State} (h : HistoryAgrees s) {p : PipeNo} {r : Pipe}
    (hr : r.drops = s.pipe[p].drops) : HistoryAgrees (s.setPipe p r) := by
  refine { h with drops := fun q => ?_ }
  by_cases hq : p = q
  · subst hq
    rw [State.setPipe_get, hr]
    exact h.drops p
  · rw [State.setPipe_get_ne hq]
    exact h.drops q

/-- A drop is counted on its own pipe and recorded (R136). -/
theorem HistoryAgrees.drop {s : State} (h : HistoryAgrees s) (p : PipeNo) (fr : Frame) :
    HistoryAgrees ((s.setPipe p s.pipe[p].countDrop).emit (.drop p fr)) := by
  refine h.append (.one (.drop p fr) rfl) (drops := fun q => ?_)
  rw [State.emit_pipe]
  by_cases hq : p = q
  · subst hq
    simp [Pipe.countDrop, dropCount]
  · rw [State.setPipe_get_ne hq]
    simp [dropCount, hq]

theorem HistoryAgrees.enqueue {s : State} (h : HistoryAgrees s) (p : PipeNo) (fr : Frame) :
    HistoryAgrees (Machine.enqueue p fr s).2 := by
  rcases enqueue_cases p fr s with ⟨-, e⟩ | ⟨-, e⟩ <;> rw [e]
  · exact h.setPipe rfl
  · exact h.drop p fr

theorem Move.keeps_historyAgrees (g : Bool) (s t : State) (h : HistoryAgrees s) (m : Move g s t) :
    HistoryAgrees t := by
  cases m with
  | bracket body now draws device hb _ =>
    refine h.append (.bracket s.cfg body hb) (csn := ?_) (ce := ?_) (busFault := ?_) (drops := fun p => ?_)
      (decFail := ?_) (life := ?_)
    · rw [lastCsn_bracketEvents, Option.some_or]
    · rw [lastCe_bracketEvents hb, Option.none_or]
    · rw [anyFailure_bracketEvents]
    · rw [dropCount_bracketEvents hb, Nat.add_zero]
    · rw [decodeFailureCount_bracketEvents hb, Nat.add_zero]
    · simp [close_not_mem_bracketEvents hb]
  | wait d => exact h.append (.one (.wait d) rfl)
  | ce l _ => exact h.append (.one (.ce l) rfl)
  | player a => exact h.append (.one (.player a) rfl)
  | decodeFailure fr => exact h.append (.one (.decodeFailure fr) rfl) (life := by simp [Machine.decodeFailure])
  | close _ => exact h.append (.one .close rfl)
  | copy p addr len aa dpl en _ => exact h.setPipe rfl
  | enqueue p fr _ => exact h.enqueue p fr
  | dequeue p => exact h.setPipe rfl
  | release p | holdRecvw p _ _ | cancel p _ => cases p <;> exact { h with }
  | _ => exact { h with }

/-- A reset keeps what belongs to the environment, which the invariant does not speak of. -/
theorem historyAgrees_construct (u : State) : HistoryAgrees u.construct := { historyAgrees_resetFor u.cfg with }

/-- Settles O54: every move keeps the agreement, and a reset meets it. -/
theorem historyAgreesKept : Obligations.HistoryAgreesKept := fun _ _ hs h =>
  step_keeps Move.keeps_historyAgrees (fun u _ => historyAgrees_construct u) hs h

end Sys2Proof.Machine

/-! ## The bytes of a register access (R43 to R45) -/

namespace Sys2Proof

open Machine

theorem assemble_byte_bit {l : List Byte} {i j : Nat} {b : Byte} (hb : l[i]? = some b) (hi : i < 5) (hj : j < 8) :
    (assemble l).getLsbD (8 * i + j) = b.getLsbD j := by
  have hdiv : (8 * i + j) / 8 = i := by omega
  have hmod : (8 * i + j) % 8 = j := by omega
  rw [assemble_bit l _ (by omega), hdiv, hmod, hb, Option.getD_some]

theorem assemble_toBytes {n : Nat} {v : Raw} (hv : v.toNat < 2 ^ (8 * n)) : assemble (toBytes n v) = v := by
  refine BitVec.eq_of_getLsbD_eq fun k hk => ?_
  rw [assemble_bit _ k hk]
  by_cases hn : k / 8 < n
  · obtain ⟨b, hb, hbit⟩ := toBytes_bit n v (k / 8) (k % 8) hn (by omega)
    rw [hb, Option.getD_some, hbit, Nat.div_add_mod]
  · have beyond : v.getLsbD k = false :=
      Nat.testBit_lt_two_pow (lt_of_lt_of_le hv (Nat.pow_le_pow_right (by omega) (by omega)))
    rw [List.getElem?_eq_none (by rw [toBytes_length]; omega), beyond]
    exact BitVec.getLsbD_zero

theorem Config.addrOf_tab {c : Config} {k : Nat} {r : RegDesc} (h : c.table[k]? = some r) :
    c.addrOf (.tab k) = r.addr := by simp [Config.addrOf, h]

theorem Config.readCommand_of_lookup {c : Config} {addr : Nat} {b : Byte} (h : c.rcmd.lookup addr = some b) :
    c.readCommand addr = b := by rw [Config.readCommand, h, Option.getD_some]

theorem Config.writeCommand_of_lookup {c : Config} {addr : Nat} {b : Byte} (h : c.wcmd.lookup addr = some b) :
    c.writeCommand addr = b := by rw [Config.writeCommand, h, Option.getD_some]

/-- Settles O8, function by function: the data bytes both ways, then the register's address, width and bytes. -/
theorem registerBytesOnTheBus : Obligations.RegisterBytesOnTheBus := by
  refine ⟨fun n v => ⟨toBytes_length n v, toBytes_bit n v⟩, fun _ _ _ _ => assemble_byte_bit, assemble_lt,
    fun _ _ _ => assemble_toBytes, fun c n v => ⟨?table, ?rxAddr, ?txAddr, ?rxPw,
      fun _ => Config.readCommand_of_lookup, fun _ => Config.writeCommand_of_lookup, readBytes_eq c n,
      writeBytes_eq c n v⟩⟩
  case table =>
    rintro k r rfl hr
    refine ⟨Config.addrOf_tab hr, ?_⟩
    rw [Config.bytesOf_tab hr]
    cases r.width <;> rfl
  case rxAddr => rintro p rfl; exact ⟨rfl, rfl⟩
  case txAddr => rintro rfl; exact ⟨rfl, rfl⟩
  case rxPw => rintro p rfl; exact ⟨rfl, rfl⟩

end Sys2Proof

/-! ## Turns of other agents, as steps and inside an operation (R57, R165, R204) -/

namespace Sys2Proof.Machine

open Sys2Proof

/-- An operation that a consumer, or the decoder, runs does as a step what it does inside an operation of port H. -/
theorem exec_of_onPortC {i : Instr} (h : i.onPortC = true) (s : State) : exec i s = .next (guestEffect i s) := by
  cases i with
  | hasdata | recv | recvw => rfl
  | _ => cases h

theorem exec_of_wire {i : Instr} (h : (∃ x, i = .volume x) ∨ (∃ x, i = .play x) ∨ ∃ x, i = .track x) (s : State) :
    exec i s = .next (guestEffect i s) := by
  rcases h with ⟨x, rfl⟩ | ⟨x, rfl⟩ | ⟨x, rfl⟩ <;> rfl

/-- What the turn of an agent other than the owner comes to. -/
theorem fetchAct_cases (a : Act) (s : State) :
    (∃ t, fetchAct a s = .done t) ∨
    (∃ i t, fetchAct a s = .run i t ∧ exec i t = .next (guestEffect i t)) ∨
    fetchAct a s = .refuse (.portBusy .C) := by
  cases a with
  | consumer word =>
    rcases fetchCommand_C word s with ⟨r, e⟩ | ⟨r, e⟩ | ⟨i, hi, e⟩
    · rcases fetchCommand_cases .C word [] s with ⟨-, busy⟩ | ⟨-, _, answered⟩ | ⟨-, -, i, -, runs⟩
      · exact .inr (.inr busy)
      · cases e.symm.trans answered
      · cases e.symm.trans runs
    · exact .inl ⟨_, e⟩
    · exact .inr (.inl ⟨i, _, e, exec_of_onPortC hi _⟩)
  | decoder =>
    rcases fetchDecoder_moves false s with ⟨t, e, -⟩ | ⟨i, dp, e, -, hi⟩
    · exact .inl ⟨t, e⟩
    · exact .inr (.inl ⟨i, _, e, exec_of_wire hi _⟩)
  | pollC | time | cancel => exact .inl ⟨_, rfl⟩

/-- The turn of another agent as a step: what it does inside an operation, or the refusal of a word on a busy port C,
which inside an operation is no turn. -/
theorem step_act {s : State} {a : Act} {rest : List Input} (h : s.inputs = .act a :: rest) :
    step s = .next (runAct { s with inputs := rest } a) ∨
      (step s = .refused (.portBusy .C) ∧ runAct { s with inputs := rest } a = { s with inputs := rest }) := by
  rw [step, fetch_of_input h, fetchInput, runAct]
  rcases fetchAct_cases a { s with inputs := rest } with ⟨t, e⟩ | ⟨i, t, e, hx⟩ | e <;> rw [e]
  · exact .inl rfl
  · exact .inl hx
  · exact .inr ⟨rfl, rfl⟩

theorem runAct_pollC_idle {s : State} (h : s.holdC = none) : runAct s .pollC = s := by
  simp [runAct, fetchAct, pollConsumer, h]

/-- A turn that runs no operation is done in one step. -/
theorem step_act_done {s t : State} {a : Act} {rest : List Input} (h : s.inputs = .act a :: rest)
    (ht : fetchAct a { s with inputs := rest } = .done t) : step s = .next t :=
  step_of_done ((fetch_of_input h).trans ht)

/-- Settles O52: a turn by what it is fetched as, a point by `interleave_guests`, and the environment's turns by what
they compute to. -/
theorem guestsActAsInSteps : Obligations.GuestsActAsInSteps := by
  refine ⟨fun s a rest => step_act, fun s => ⟨interleave_guests s, interleave_quiet, fun acts rest h => ?_⟩,
    fun s d l => ⟨rfl, rfl, rfl, runAct_pollC_idle⟩,
    fun s rest d l => ⟨fun h => step_act_done h rfl, fun h => step_act_done h rfl, fun h => step_act_done h rfl,
      fun h hC => step_act_done h ?_, fun h hH => step_of_done ?_, fun h => step_of_done ?_⟩⟩
  · rw [interleave, h]
  · simp [fetchAct, pollConsumer, hC]
  · rw [fetch_of_input h]
    simp [fetchInput, pollOwner, hH]
  · rw [fetch, h]

end Sys2Proof.Machine

/-! ## Encoding (R66, R73 to R77): a word, its operation, and the fields its row uses -/

namespace Sys2Proof

open Machine

/-- The fields that the operation's row leaves unused ("-", R73) are 0. -/
def Op.UnusedZero (o : Op) (a b : Byte) (v : Raw) : Prop :=
  (o.usesA = false → a = 0) ∧ (o.usesB = false → b = 0) ∧ (o.usesV = false → v = 0)

theorem Op.decode_mk {o : Op} {a b : Byte} {v : Raw} (h : o.UnusedZero a b v) (fr : Frame) :
    decode (.word (CmdWord.mk o.code a b v) fr) = o.build a b v fr := by
  obtain ⟨ha, hb, hv⟩ := h
  exact decodeWord_mk o a b v fr ha hb hv

/-- Decoding a row's word; by default the fields its row leaves unused are given as 0. -/
theorem Op.decode_word (o : Op) (a b : Byte) (v : Raw)
    (h : o.UnusedZero a b v := by exact ⟨by simp [Op.usesA], by simp [Op.usesB], by simp [Op.usesV]⟩) :
    decode (o.word a b v) = o.build a b v [] := Op.decode_mk h []

/-! ### The three rows with constraints of their own (R74) -/

theorem Status.ofCode_eq_some {a : Byte} {t : Status} : Status.ofCode a = some t ↔ a = BitVec.ofNat 8 t.code := by
  revert a
  cases t <;> decide

theorem build_goto_ok {a b : Byte} {v : Raw} {fr : Frame} {i : Instr} :
    Op.goto.build a b v fr = .ok i ↔ ∃ t : Status, a = BitVec.ofNat 8 t.code ∧ i = .goto t := by
  simp only [← Status.ofCode_eq_some, Op.build]
  cases Status.ofCode a with
  | none => simp
  | some t => simp [eq_comm]

theorem build_enq_ok {a b : Byte} {v : Raw} {fr : Frame} {i : Instr} :
    Op.enq.build a b v fr = .ok i ↔ b.toNat ≤ 32 ∧ fr.length = b.toNat ∧ i = .enq a fr := by
  rw [Op.build]
  split_ifs with hb hfr
  · simp [hb]
  · simp [hfr]
  · simp [Nat.not_lt.1 hb, not_not.1 hfr, eq_comm]

theorem build_recvw_ok {a b : Byte} {v : Raw} {fr : Frame} {i : Instr} :
    Op.recvw.build a b v fr = .ok i ↔
      b = 1 ∧ i = .recvw a (some v) ∨ b = 0 ∧ v = 0 ∧ i = .recvw a none := by
  rw [Op.build]
  split_ifs with h1 h0 hv
  · subst h1
    simp [eq_comm (a := i)]
  · simp_all
  · simp_all
  · obtain rfl := not_not.1 h0
    obtain rfl := not_not.1 hv
    simp [eq_comm (a := i)]

/-! ### Decoding the encoding -/

theorem decode_encode_enq {fr : Frame} (h : fr.length ≤ 32) (a : Byte) :
    decode (encode (.enq a fr)) = .ok (.enq a fr) := by
  have hlen : (BitVec.ofNat 8 fr.length).toNat = fr.length := Nat.mod_eq_of_lt (by omega)
  have hz : Op.enq.UnusedZero a (BitVec.ofNat 8 fr.length) 0 := ⟨nofun, nofun, fun _ => rfl⟩
  refine (Op.decode_mk hz fr).trans (build_enq_ok.2 ⟨?_, hlen.symm, rfl⟩)
  rwa [hlen]

/-- Settles O2, row by row: a word's row builds the operation from its fields, a wire command's letter names it. -/
theorem decodeOfEncode : Obligations.DecodeOfEncode := by
  intro i hwf
  cases i with
  | goto t => exact (Op.decode_word .goto _ 0 0).trans (build_goto_ok.2 ⟨t, rfl, rfl⟩)
  | enq a fr => exact decode_encode_enq (of_decide_eq_true hwf) a
  | recvw a timeout =>
    cases timeout with
    | none => exact Op.decode_word .recvw a 0 0
    | some timeout => exact Op.decode_word .recvw a 1 timeout
  | volume | play | track => rfl
  | _ => exact Op.decode_word _ _ _ _

/-! ### Encoding what was decoded -/

theorem decodeWord_ok {w : CmdWord} {fr : Frame} {i : Instr} :
    decodeWord w fr = .ok i ↔ ∃ o : Op, CmdWord.op w = o.code ∧
      o.UnusedZero (CmdWord.a w) (CmdWord.b w) (CmdWord.v w) ∧
      o.build (CmdWord.a w) (CmdWord.b w) (CmdWord.v w) fr = .ok i := by
  constructor
  · intro h
    unfold decodeWord at h
    split at h
    · cases h
    · rename_i o ho
      split at h
      · cases h
      · rename_i hz
        exact ⟨o, (Op.code_of_ofCode ho).symm, by simpa [Op.UnusedZero, and_assoc] using hz, h⟩
  · rintro ⟨o, hop, hz, h⟩
    rw [← h, ← Op.decode_mk hz fr, ← hop, CmdWord.mk_fields]
    rfl

/-- What a row builds encodes to the fields it was built from. -/
theorem encode_of_build {o : Op} {a b : Byte} {v : Raw} {fr : Frame} {i : Instr} (hz : o.UnusedZero a b v)
    (h : o.build a b v fr = .ok i) :
    encode i = .word (CmdWord.mk o.code a b v) (if o = .enq then fr else []) := by
  obtain ⟨ha, hb, hv⟩ := hz
  cases o with
  | goto =>
    obtain ⟨t, rfl, rfl⟩ := build_goto_ok.1 h
    rw [hb rfl, hv rfl]
    rfl
  | enq =>
    obtain ⟨-, hlen, rfl⟩ := build_enq_ok.1 h
    rw [hv rfl, encode, hlen, BitVec.ofNat_toNat, BitVec.setWidth_eq]
    rfl
  | recvw =>
    obtain ⟨rfl, rfl⟩ | ⟨rfl, rfl, rfl⟩ := build_recvw_ok.1 h <;> rfl
  | _ =>
    cases h
    simp_all [encode, Op.word, Op.usesA, Op.usesB, Op.usesV]

theorem Op.code_eq_enq (o : Op) : o.code.toNat = 0x30 ↔ o = .enq := by cases o <;> decide

/-- Settles O3: a word that decodes is its row's code and the fields its operation was built from. -/
theorem encodeOfDecode : Obligations.EncodeOfDecode := by
  intro w fr i h
  obtain ⟨o, hop, hz, hb⟩ := decodeWord_ok.1 h
  refine ⟨decodeWord_wf h, ?_⟩
  simp only [encode_of_build hz hb, opOf_eq, hop, Op.code_eq_enq]
  rw [← hop, CmdWord.mk_fields]

/-! ### Illegal words (R74), clause by clause -/

theorem Op.mem_all (o : Op) : o ∈ Op.all := by cases o <;> decide

theorem legalOps_eq : legalOps = Op.all.map fun o => o.code.toNat := rfl

theorem opOf_mem_legalOps {w : CmdWord} : opOf w ∈ legalOps ↔ ∃ o : Op, CmdWord.op w = o.code := by
  simp [legalOps_eq, Op.mem_all, opOf_eq, BitVec.toNat_inj, eq_comm]

theorem Op.code_inj {o o' : Op} (h : o.code = o'.code) : o = o' := by
  have hs : Op.ofCode o.code = Op.ofCode o'.code := congrArg Op.ofCode h
  rwa [Op.ofCode_code, Op.ofCode_code, Option.some_inj] at hs

theorem Op.usesA_eq_false (o : Op) : o.usesA = false ↔ o.code.toNat ∈ [0x05, 0x06, 0x11, 0x40, 0x50, 0x51] := by
  cases o <;> decide

theorem Op.usesB_eq_false (o : Op) : o.usesB = false ↔ o.code.toNat ∉ [0x03, 0x04, 0x30, 0x33, 0x40] := by
  cases o <;> decide

theorem Op.usesV_eq_false (o : Op) :
    o.usesV = false ↔ o.code.toNat ∉ [0x02, 0x04, 0x06, 0x20, 0x21, 0x22, 0x23, 0x24, 0x33] := by
  cases o <;> decide

theorem Status.exists_code {a : Byte} : (∃ t : Status, a = BitVec.ofNat 8 t.code) ↔ a.toNat < 4 := by
  simp only [← Status.ofCode_eq_some, ← Option.isSome_iff_exists]
  revert a
  decide

/-- A row builds an operation exactly when the constraint it has of its own is met. -/
theorem Op.build_isOk (o : Op) (a b : Byte) (v : Raw) (fr : Frame) :
    (∃ i, o.build a b v fr = .ok i) ↔
      (o.code.toNat = 0x10 → a.toNat < 4) ∧ (o.code.toNat = 0x30 → b.toNat ≤ 32 ∧ fr.length = b.toNat) ∧
        (o.code.toNat = 0x33 → b.toNat < 2 ∧ (b.toNat % 2 = 0 → v.toNat = 0)) := by
  cases o with
  | goto =>
    simp only [build_goto_ok, ← Status.exists_code]
    simp [Op.code]
  | enq => simp [build_enq_ok, Op.code]
  | recvw =>
    have hb1 : b = 1 ↔ b.toNat = 1 := BitVec.toNat_inj.symm
    have hb0 : b = 0 ↔ b.toNat = 0 := BitVec.toNat_inj.symm
    have hv0 : v = 0 ↔ v.toNat = 0 := BitVec.toNat_inj.symm
    simp only [build_recvw_ok, exists_or, exists_and_left, exists_eq, and_true, hb1, hb0, hv0]
    simp [Op.code]
    omega
  | _ => simp [Op.build, Op.code]

/-- A word whose code is an operation's decodes by that operation's row. -/
theorem decodeWord_ok_of_op {w : CmdWord} {o : Op} (ho : CmdWord.op w = o.code) {fr : Frame} {i : Instr} :
    decodeWord w fr = .ok i ↔ o.UnusedZero (CmdWord.a w) (CmdWord.b w) (CmdWord.v w) ∧
      o.build (CmdWord.a w) (CmdWord.b w) (CmdWord.v w) fr = .ok i := by
  refine decodeWord_ok.trans ⟨?_, fun h => ⟨o, ho, h⟩⟩
  rintro ⟨o', ho', h⟩
  rwa [Op.code_inj (ho.symm.trans ho')]

/-- The clauses of R74 are exactly the reasons for which a word decodes to nothing. -/
theorem illegalWord_iff {w : CmdWord} {fr : Frame} : illegalWord w fr ↔ ¬ ∃ i, decodeWord w fr = .ok i := by
  by_cases hop : ∃ o : Op, CmdWord.op w = o.code
  · obtain ⟨o, ho⟩ := hop
    have hcode : opOf w = o.code.toNat := by rw [opOf_eq, ho]
    have hlegal : o.code.toNat ∈ legalOps := hcode ▸ opOf_mem_legalOps.2 ⟨o, ho⟩
    -- both sides are now the same clauses over the fields as numbers, one of them negated
    simp only [decodeWord_ok_of_op ho, exists_and_left, Op.build_isOk, Op.UnusedZero, Op.usesA_eq_false,
      Op.usesB_eq_false, Op.usesV_eq_false, illegalWord, hcode, aOf_eq, bOf_eq, vOf_eq, ← BitVec.toNat_inj]
    grind
  · refine iff_of_true (.inl fun h => hop (opOf_mem_legalOps.1 h)) ?_
    rintro ⟨i, hi⟩
    obtain ⟨o, ho, -⟩ := decodeWord_ok.1 hi
    exact hop ⟨o, ho⟩

theorem onPortC_of_build {o : Op} {a b : Byte} {v : Raw} {fr : Frame} {i : Instr} (h : o.build a b v fr = .ok i) :
    i.onPortC = true ↔ o.code.toNat ∈ [0x31, 0x32, 0x33] := by
  cases o with
  | goto =>
    obtain ⟨t, -, rfl⟩ := build_goto_ok.1 h
    simp [Instr.onPortC, Op.code]
  | enq =>
    obtain ⟨-, -, rfl⟩ := build_enq_ok.1 h
    simp [Instr.onPortC, Op.code]
  | recvw =>
    obtain ⟨-, rfl⟩ | ⟨-, -, rfl⟩ := build_recvw_ok.1 h <;> simp [Instr.onPortC, Op.code]
  | _ =>
    cases h
    simp [Instr.onPortC, Op.code]

theorem onPortC_of_decodeWord {w : CmdWord} {fr : Frame} {i : Instr} (h : decodeWord w fr = .ok i) :
    i.onPortC = true ↔ opOf w ∈ [0x31, 0x32, 0x33] := by
  obtain ⟨o, ho, -, hb⟩ := decodeWord_ok.1 h
  rw [opOf_eq, ho]
  exact onPortC_of_build hb

end Sys2Proof

/-! ## A word on a free port of an open RFB (R72, R74, R75) -/

namespace Sys2Proof.Machine

open Sys2Proof

theorem fetchCommand_runs {p : Port} {w : CmdWord} {fr : Frame} {s : State} {i : Instr} (hf : s.busy p = false)
    (ho : s.life = .opened) (hd : decodeWord w fr = .ok i) (hp : p = .C → i.onPortC = true) :
    fetchCommand p w fr s = .run i { s with port := p } := by
  have hport : ¬ (p = .C ∧ i.onPortC = false) := fun ⟨hC, hi⟩ => Bool.false_ne_true (hi.symm.trans (hp hC))
  simp [fetchCommand, hf, ho, hd, hport]

/-- A word that decodes to nothing, or on port C to an operation that port does not take, is illegal. -/
theorem fetchCommand_illegal {p : Port} {w : CmdWord} {fr : Frame} {s : State} (hf : s.busy p = false)
    (ho : s.life = .opened) (h : ∀ i, decodeWord w fr = .ok i → p = .C ∧ i.onPortC = false) :
    fetchCommand p w fr s = .done (({ s with port := p } : State).raise .illegalCommand) := by
  cases hd : decodeWord w fr with
  | error e => simp [fetchCommand, hf, ho, hd]
  | ok i =>
    obtain ⟨rfl, hi⟩ := h i hd
    simp [fetchCommand, hf, ho, hd, hi]

theorem step_of_run {s t : State} {i : Instr} (h : fetch s = .run i t) : step s = exec i t := by rw [step, h]

theorem unassigned_count : (List.range 256).countP (fun op => op ∉ legalOps) = 231 := by decide +kernel

/-- Settles O4: a word runs when it decodes and its port takes the operation, and is illegal otherwise. -/
theorem illegalWordsAreRejected : Obligations.IllegalWordsAreRejected := by
  refine ⟨unassigned_count, fun s w rest ho => ⟨fun fr h hf => ⟨fun hill => ?_, fun hleg => ?_⟩,
    fun h hf => ⟨fun hill => ?_, fun hleg hC => ?_⟩⟩⟩
  · have hn := illegalWord_iff.1 hill
    refine step_of_done ((fetch_of_input h).trans (fetchCommand_illegal ?_ ho fun i hi => absurd ⟨i, hi⟩ hn))
    simp [State.busy, hf]
  · obtain ⟨i, hi⟩ := not_not.1 fun hn => hleg (illegalWord_iff.2 hn)
    exact ⟨i, hi, step_of_run ((fetch_of_input h).trans (fetchCommand_H_runs hf ho hi))⟩
  · refine step_of_done ((fetch_of_input h).trans (fetchCommand_illegal ?_ ho fun i hi => ⟨rfl, ?_⟩))
    · simp [State.busy, hf]
    · rcases hill with hill | hop
      · exact absurd ⟨i, hi⟩ (illegalWord_iff.1 hill)
      · exact Bool.eq_false_iff.2 fun hC => hop ((onPortC_of_decodeWord hi).1 hC)
  · obtain ⟨i, hi⟩ := not_not.1 fun hn => hleg (illegalWord_iff.2 hn)
    refine ⟨i, hi, step_of_run ((fetch_of_input h).trans (fetchCommand_runs ?_ ho hi fun _ =>
      (onPortC_of_decodeWord hi).2 hC))⟩
    simp [State.busy, hf]

/-! ### A step runs what was decoded (R75, R166) -/

/-- The decoder's step takes the head frame and runs the command it parses to (R166). -/
theorem fetchDecoder_runs {s : State} {dp : PipeNo} {fr : Frame} {tl : List Frame} {i : Instr}
    (hdp : s.cfg.decPipe = some dp) (hr : s.dec = .running) (ho : s.life = .opened) (hs : s.stop = false)
    (hq : s.pipe[dp].q = fr :: tl) (hd : decodeFrame fr = .ok i) : fetchDecoder s = .run i (dequeue dp s) := by
  simp only [fetchDecoder, hdp, hr, ho, hs, hq, hd, and_self, if_true, Bool.false_eq_true, if_false]

/-- Settles O50: each of the three fetches comes to the decoded operation. -/
theorem stepRunsTheDecoded : Obligations.StepRunsTheDecoded := by
  intro s i rest ho
  refine ⟨fun w fr h hf hd => ?_, fun w h hf hd hC => ?_, fun dp fr tl h hdp hr hs hq hd => ?_⟩
  · exact step_of_run ((fetch_of_input h).trans (fetchCommand_H_runs hf ho hd))
  · refine step_of_run ((fetch_of_input h).trans (fetchCommand_runs ?_ ho hd fun _ => hC))
    simp [State.busy, hf]
  · have ht : dequeue dp { s with inputs := rest } =
        { s with inputs := rest, pipe := s.pipe.set dp { s.pipe[dp] with q := tl } } := by
      simp only [dequeue, State.setPipe, hq, List.tail_cons]
    rw [← ht]
    exact step_of_run ((fetch_of_input h).trans (fetchDecoder_runs hdp hr ho hs hq hd))

end Sys2Proof.Machine

/-! ## The worked encodings (R82), and what a register selector names (R68) -/

namespace Sys2Proof

open Machine

/-- A word that decodes without a side-channel frame is its operation's whole encoding. -/
theorem decode_and_encode {w : CmdWord} {i : Instr} (h : decodeWord w [] = .ok i) :
    decodeWord w [] = .ok i ∧ encode i = .word w [] :=
  ⟨h, by simpa using (encodeOfDecode w [] i h).2⟩

/-- Settles O1: each word is decoded by evaluation, and encodes back because decoding drops no bit. -/
theorem workedEncodings : Obligations.WorkedEncodings := by
  refine ⟨by decide, by decide, by decide, by decide, by decide, fun wi h => decode_and_encode ?_, by decide,
    by decide, by decide, by decide, by decide⟩
  revert wi
  decide

/-- The registers a selector names (R68), as numbers. -/
def RegName.SelectedBy (c : Config) (k : Nat) : RegName → Prop
  | .tab i => k = i ∧ i ≤ 0x7F ∧ i < c.table.length
  | .rxAddr p => k = 0x80 + p
  | .txAddr => k = 0x86
  | .rxPw p => k = 0x90 + p

theorem resolveReg_eq_some {c : Config} {a : Byte} {n : RegName} :
    resolveReg c a = some n ↔ n.SelectedBy c a.toNat := by
  unfold resolveReg
  simp only
  cases n with
  | tab i => split_ifs <;> simp [RegName.SelectedBy] <;> omega
  | txAddr => split_ifs <;> simp [RegName.SelectedBy] <;> omega
  | rxAddr p => split_ifs <;> simp [RegName.SelectedBy, Fin.ext_iff] <;> omega
  | rxPw p => split_ifs <;> simp [RegName.SelectedBy, Fin.ext_iff] <;> omega

theorem exec_unknownRegister {s : State} {a : Byte} (h : resolveReg s.cfg a = none) (b : Byte) (v : Raw) :
    exec (.get a) s = .next (s.raise .unknownRegister) ∧ exec (.set a v) s = .next (s.raise .unknownRegister) ∧
    exec (.getf a b) s = .next (s.raise .unknownRegister) ∧
    exec (.setf a b v) s = .next (s.raise .unknownRegister) := by
  have hget := getRun_answer a s
  have hset := setRun_answer a v s
  have hgetf := getfRun_answer a b s
  have hsetf := setfRun_answer a b v s
  rw [h] at hget hset hgetf hsetf
  exact ⟨congrArg _ hget, congrArg _ hset, congrArg _ hgetf, congrArg _ hsetf⟩

/-- Settles O5. -/
theorem registerSelectorsNameRegisters : Obligations.RegisterSelectorsNameRegisters :=
  ⟨fun _ _ => ⟨fun _ => resolveReg_eq_some, fun _ => resolveReg_eq_some, resolveReg_eq_some,
    fun _ => resolveReg_eq_some⟩, fun _ _ b v h => exec_unknownRegister h b v⟩

end Sys2Proof

/-! ## Exactly one response for every operation (R71) -/

namespace Sys2Proof.Machine

open Sys2Proof

/-! ### Operations on the bus or the pins answer without a frame -/

@[simp] theorem readResponse_rfd (v : Option Raw) : (readResponse v).rfd = none := by cases v <;> rfl

@[simp] theorem writeResponse_rfd (ok : Bool) : (writeResponse ok).rfd = none := by cases ok <;> rfl

/-- The run ends with a response that carries no frame. -/
def Run.Frameless (r : Run Response) : Prop := r.finish.1.rfd = none

theorem frameless_raise (c : Code) (s : State) : (Run.raise c s).Frameless := rfl

theorem frameless_ofRead (r : Option Raw × State) : (Run.ofRead r).Frameless := readResponse_rfd _

theorem frameless_ofWrite (r : Bool × State) : (Run.ofWrite r).Frameless := writeResponse_rfd _

theorem Run.Frameless.after {α : Type} (r : Run α) {f : α → State → Run Response}
    (h : ∀ a u, (f a u).Frameless) : (r.andThen f).Frameless := by
  rw [Run.Frameless, Run.finish_andThen]
  exact h _ _

theorem frameless_onPipe {a : Byte} {s : State} {k : PipeNo → Run Response} (h : ∀ p, (k p).Frameless) :
    (Run.onPipe a s k).Frameless := by
  unfold Run.onPipe
  split
  · exact frameless_raise _ _
  · exact h _

theorem frameless_psetFlagRun (a : Byte) (v : Raw) (role : PipeNo → FieldRef) (update : Bool → Pipe → Pipe)
    (s : State) : (psetFlagRun a v role update s).Frameless := by
  refine frameless_onPipe fun p => ?_
  split
  · exact .after _ fun _ _ => frameless_ofWrite _
  · exact frameless_raise _ _

theorem frameless_getRun (a : Byte) (s : State) : (getRun a s).Frameless := by
  unfold getRun
  split
  · exact frameless_raise _ _
  · exact frameless_ofRead _

theorem frameless_setRun (a : Byte) (v : Raw) (s : State) : (setRun a v s).Frameless := by
  unfold setRun
  split
  · exact frameless_raise _ _
  · split
    · exact frameless_ofWrite _
    · exact frameless_raise _ _

theorem frameless_getfRun (a b : Byte) (s : State) : (getfRun a b s).Frameless := by
  unfold getfRun
  split
  · exact frameless_raise _ _
  · split
    · exact frameless_raise _ _
    · exact frameless_ofRead _

theorem frameless_setfRun (a b : Byte) (v : Raw) (s : State) : (setfRun a b v s).Frameless := by
  unfold setfRun
  split
  · exact frameless_raise _ _
  · split
    · exact frameless_raise _ _
    · split
      · exact frameless_raise _ _
      · split
        · exact .after _ fun _ _ => frameless_ofWrite _
        · exact frameless_raise _ _

theorem frameless_setchRun (v : Raw) (s : State) : (setchRun v s).Frameless := by
  unfold setchRun
  split
  · exact frameless_raise _ _
  · exact .after _ fun _ _ => frameless_ofWrite _

theorem frameless_gotoRun (target : Status) (s : State) : (gotoRun target s).Frameless := by
  unfold gotoRun
  split
  · exact frameless_raise _ _
  · refine .after _ fun ok u => ?_
    cases ok <;> rfl

theorem frameless_psetlenRun (a : Byte) (v : Raw) (s : State) : (psetlenRun a v s).Frameless := by
  refine frameless_onPipe fun p => ?_
  split
  · exact frameless_ofWrite _
  · exact frameless_raise _ _

theorem frameless_drainLoopRun (k : Nat) : ∀ (n : Nat) (s : State), (drainLoopRun k n s).Frameless := by
  induction k with
  | zero => exact fun _ _ => rfl
  | succ k ih =>
    intro n s
    unfold drainLoopRun
    split
    · rfl
    · rfl
    · rfl
    · rfl
    · exact ih _ _

theorem frameless_drainRun (b : Byte) (s : State) : (drainRun b s).Frameless := by
  unfold drainRun
  split
  · exact frameless_drainLoopRun _ _ _
  all_goals exact frameless_raise _ _

theorem exec_frameless {i : Instr} (h : Instr.atBoundary i = true) (s : State) :
    ∃ r : Run Response, exec i s = .next r.answer ∧ r.Frameless := by
  cases i with
  | get a => exact ⟨_, rfl, frameless_getRun a s⟩
  | set a v => exact ⟨_, rfl, frameless_setRun a v s⟩
  | getf a b => exact ⟨_, rfl, frameless_getfRun a b s⟩
  | setf a b v => exact ⟨_, rfl, frameless_setfRun a b v s⟩
  | getch => exact ⟨_, rfl, frameless_ofRead _⟩
  | setch v => exact ⟨_, rfl, frameless_setchRun v s⟩
  | goto target => exact ⟨_, rfl, frameless_gotoRun target s⟩
  | psetaddr a v => exact ⟨_, rfl, frameless_onPipe fun _ => frameless_ofWrite _⟩
  | psetlen a v => exact ⟨_, rfl, frameless_psetlenRun a v s⟩
  | psetaa | psetdpl | pseten => exact ⟨_, rfl, frameless_psetFlagRun _ _ _ _ _⟩
  | pgetaddr | pgetlen | pgetaa | pgetdpl | pgeten => exact ⟨_, rfl, frameless_onPipe fun _ => frameless_ofRead _⟩
  | drain b => exact ⟨_, rfl, frameless_drainRun b s⟩
  | state | enq | hasdata | recv | recvw | dstop | shutdown | volume | play | track => cases h

/-! ### One response -/

/-- Only RECV and RECVW answer with a frame, and with one of at most 32 bytes when the queues hold no longer one. -/
def Response.FrameFits (i : Instr) (s : State) (r : Response) : Prop :=
  (r.rfd ≠ none → ∃ a, i = .recv a ∨ ∃ timeout, i = .recvw a timeout) ∧
  (r.rfd = none → r.frameLength = 0) ∧
  ∀ fr, r.rfd = some fr → r.frameLength = fr.length ∧ (PipesWithinBounds s → fr.length ≤ 32)

theorem Response.frameFits_of_none {r : Response} (h : r.rfd = none) (i : Instr) (s : State) : r.FrameFits i s := by
  refine ⟨fun hn => absurd h hn, fun _ => by rw [frameLength, h]; rfl, fun fr hfr => ?_⟩
  rw [h] at hfr
  cases hfr

/-- The oldest frame of a queue as RECV's or RECVW's answer. -/
theorem Response.frameFits_okFrame {i : Instr} {s : State} {p : PipeNo} {fr : Frame} {tl : List Frame}
    (hi : ∃ a, i = .recv a ∨ ∃ timeout, i = .recvw a timeout) (hq : s.pipe[p].q = fr :: tl) :
    (Response.okFrame fr).FrameFits i s := by
  refine ⟨fun _ => hi, nofun, fun fr' h => ?_⟩
  cases h
  refine ⟨rfl, fun hb => ?_⟩
  obtain ⟨-, hlen, -⟩ := hb p
  exact hlen fr (hq ▸ List.mem_cons_self)

/-- The operation has given exactly one response on its own port. -/
def AnsweredOnce (i : Instr) (s t : State) : Prop :=
  ∃ r, t.repliesOn s.port = s.repliesOn s.port ++ [r] ∧ r.FrameFits i s

theorem AnsweredOnce.respond {i : Instr} {s u : State} {r : Response} (hr : r.FrameFits i s)
    (hp : u.port = s.port := by rfl) (hs : u.replies = s.replies := by rfl) : AnsweredOnce i s (u.respond r) := by
  refine ⟨r, ?_, hr⟩
  rw [State.repliesOn_respond, if_pos hp, State.repliesOn_congr hs]

theorem AnsweredOnce.respond_frameless {i : Instr} {s u : State} (r : Response) (h : r.rfd = none := by rfl)
    (hp : u.port = s.port := by rfl) (hs : u.replies = s.replies := by rfl) : AnsweredOnce i s (u.respond r) :=
  .respond (Response.frameFits_of_none h i s) hp hs

theorem AnsweredOnce.raise {i : Instr} {s u : State} (c : Code) (hp : u.port = s.port := by rfl)
    (hs : u.replies = s.replies := by rfl) : AnsweredOnce i s (u.raise c) :=
  .respond_frameless (.ofCode c 0) rfl hp hs

theorem Run.finish_eq_of_answer_eq {r r' : Run Response} (h : r.answer = r'.answer) : r.finish.1 = r'.finish.1 := by
  have hl := congrArg State.replies h
  simp only [Run.answer, State.respond_replies] at hl
  obtain ⟨-, hlast⟩ := List.append_inj' hl rfl
  exact (Prod.mk.inj (List.cons.inj hlast).1).2

theorem answeredOnce_of_atBoundary {i : Instr} (hb : Instr.atBoundary i = true) {s : State} (hp : s.port = .H) :
    ∃ t, exec i s = .next t ∧ AnsweredOnce i s t := by
  obtain ⟨r, es, he, -, hst⟩ := passes_staged hb s
  obtain ⟨r', he', hf⟩ := exec_frameless hb s
  have hrr : r.finish.1 = r'.finish.1 := Run.finish_eq_of_answer_eq (Host.Outcome.next.inj (he.symm.trans he'))
  have hnone : r.finish.1.rfd = none := hrr ▸ hf
  refine ⟨_, he, r.finish.1, ?_, Response.frameFits_of_none hnone i s⟩
  rw [hp]
  exact (hst.finish.respond hp r.finish.1).replies

theorem answeredOnce_enq (a : Byte) (fr : Frame) (s : State) : AnsweredOnce (.enq a fr) s (enqEffect a fr s) := by
  unfold enqEffect
  split
  · exact .raise _
  · refine .respond_frameless _ rfl ?_ ?_ <;> rw [enqueue_same]

theorem answeredOnce_hasdata (a : Byte) (s : State) : AnsweredOnce (.hasdata a) s (hasdataEffect a s) := by
  unfold hasdataEffect
  split
  · exact .raise _
  · exact .respond_frameless _

theorem answeredOnce_recv (a : Byte) (s : State) : AnsweredOnce (.recv a) s (recvEffect a s) := by
  unfold recvEffect
  split
  · exact .raise _
  · split
    · exact .raise _
    · rename_i hq
      exact .respond (Response.frameFits_okFrame ⟨a, .inl rfl⟩ hq)

theorem recvwWait_answers_or_holds {i : Instr} (w : Waiting) (s : State) :
    AnsweredOnce i s (recvwWait w s) ∨ recvwWait w s = s.holdRecvw s.port w := by
  unfold recvwWait
  split
  · exact .inl (.raise _ (by simp) (by simp))
  · split
    · exact .inl (.raise _ (by simp) (by simp))
    · exact .inr rfl

theorem recvw_answers_or_holds (a : Byte) (timeout : Option Raw) (s : State) :
    AnsweredOnce (.recvw a timeout) s (recvwEffect a timeout s) ∨
      ∃ w, recvwEffect a timeout s = s.holdRecvw s.port w := by
  unfold recvwEffect
  split
  · exact .inl (.raise _)
  · unfold recvwTry
    split
    · rename_i hq
      have hf := Response.frameFits_okFrame (i := .recvw a timeout) ⟨a, .inr ⟨timeout, rfl⟩⟩ hq
      exact .inl (.respond hf (by simp [dequeue]) (by simp [dequeue]))
    · exact (recvwWait_answers_or_holds _ s).imp_right fun h => ⟨_, h⟩

theorem shutdown_answers_or_holds (s : State) :
    AnsweredOnce .shutdown s (shutdownEffect s) ∨ ∃ e, shutdownEffect s = s.raiseStop.holdShutdown e := by
  unfold shutdownEffect shutdownTry
  split
  · exact .inl (.respond_frameless _)
  · exact .inr ⟨_, rfl⟩

theorem Instr.atBoundary_of_onPortC {i : Instr} (h : i.onPortC = true) : Instr.atBoundary i = false := by
  cases i with
  | hasdata | recv | recvw => rfl
  | _ => cases h

/-- Settles O60: an operation on the bus or the pins is a run that leaves the owner's responses alone until its end;
the others give their response at once, or hold. -/
theorem everyOperationAnswersOnce : Obligations.EveryOperationAnswersOnce := by
  refine ⟨rfl, fun i s hp hwire => ?_⟩
  cases hb : Instr.atBoundary i with
  | true =>
    have hC : ¬ i.onPortC = true := fun hC => by simp [Instr.atBoundary_of_onPortC hC] at hb
    obtain ⟨t, he, ha⟩ := answeredOnce_of_atBoundary hb (hp.resolve_right hC)
    exact ⟨t, he, .inl ha⟩
  | false =>
    cases i with
    | state => exact ⟨_, rfl, .inl (AnsweredOnce.respond_frameless _)⟩
    | enq a fr => exact ⟨_, rfl, .inl (answeredOnce_enq a fr s)⟩
    | hasdata a => exact ⟨_, rfl, .inl (answeredOnce_hasdata a s)⟩
    | recv a => exact ⟨_, rfl, .inl (answeredOnce_recv a s)⟩
    | recvw a timeout =>
      refine ⟨_, rfl, (recvw_answers_or_holds a timeout s).imp_right ?_⟩
      rintro ⟨w, hw⟩
      exact ⟨State.repliesOn_congr (by rw [hw, State.holdRecvw_replies]) _, .inl ⟨a, timeout, w, rfl, hw⟩⟩
    | dstop => exact ⟨_, rfl, .inl (AnsweredOnce.respond_frameless _)⟩
    | shutdown =>
      refine ⟨_, rfl, (shutdown_answers_or_holds s).imp_right ?_⟩
      rintro ⟨e, he⟩
      exact ⟨State.repliesOn_congr (by rw [he]; rfl) _, .inr ⟨rfl, e, by rw [he]; rfl⟩⟩
    | volume x => exact absurd rfl (hwire x).1
    | play x => exact absurd rfl (hwire x).2.1
    | track x => exact absurd rfl (hwire x).2.2
    | _ => cases hb

end Sys2Proof.Machine

/-! ## RegisterFile (R90 to R98): an operation is one register read, one register write, or one field write -/

namespace Sys2Proof.Machine

open Sys2Proof

/-! ### One register read, one register write -/

@[simp] theorem respondRead_some (v : Raw) (u : State) : respondRead (some v, u) = u.respond (.okay v) := rfl

@[simp] theorem respondRead_none (u : State) : respondRead (none, u) = u.respond (.ofCode .busFault 0) := rfl

@[simp] theorem respondWrite_true (u : State) : respondWrite (true, u) = u.respond (.okay 0) := rfl

@[simp] theorem respondWrite_false (u : State) : respondWrite (false, u) = u.respond (.ofCode .busFault 0) := rfl

/-- An operation that reads a register once and answers `value` of what it read (R43, R90). -/
def ReadsOnce (i : Instr) (n : RegName) (value : Raw → Raw) (s : State) : Prop :=
  (∀ inp, s.answers (readOut s.cfg n) inp →
    ∃ t, exec i s = .next t ∧ OneBracket s t (.xfer (readOut s.cfg n) inp) (.okay (value (assemble inp.tail))) ∧
      t.mirror = s.mirror ∧ t.busFault = s.busFault) ∧
  (s.fails (readOut s.cfg n) →
    ∃ t, exec i s = .next t ∧ OneBracket s t (.xferFail (readOut s.cfg n)) (.ofCode .busFault 0) ∧
      t.mirror = s.mirror ∧ t.busFault = true)

theorem readsOnce {i : Instr} {n : RegName} {value : Raw → Raw} {s : State}
    (hx : exec i s = .next (respondRead ((busRead n s).1.map value, (busRead n s).2))) : ReadsOnce i n value s := by
  refine ⟨fun inp h => ⟨_, hx, ?_⟩, fun h => ⟨_, hx, ?_⟩⟩
  · rw [busRead_ok h, Option.map_some, respondRead_some]
    exact ⟨(s.bracketOk_bracketed _ _).respond (by simp) _, by simp, by simp⟩
  · rw [busRead_fail h, Option.map_none, respondRead_none]
    exact ⟨(s.bracketFail_bracketed _).respond (by simp) _, by simp, by simp⟩

/-- A read of the whole register, neither masked nor shifted (R90, R94). -/
theorem readsOnce_raw {i : Instr} {n : RegName} {s : State} (hx : exec i s = .next (respondRead (busRead n s))) :
    ReadsOnce i n id s := readsOnce (by rw [hx, Option.map_id]; rfl)

/-- An operation that writes a register once; the mirror takes the value only on success (R44, R91). -/
def WritesOnce (i : Instr) (n : RegName) (v : Raw) (s : State) : Prop :=
  (∀ inp, s.answers (writeOut s.cfg n v) inp →
    ∃ t, exec i s = .next t ∧ OneBracket s t (.xfer (writeOut s.cfg n v) inp) (.okay 0) ∧
      t.mirror = s.mirror.set n v ∧ t.busFault = s.busFault) ∧
  (s.fails (writeOut s.cfg n v) →
    ∃ t, exec i s = .next t ∧ OneBracket s t (.xferFail (writeOut s.cfg n v)) (.ofCode .busFault 0) ∧
      t.mirror = s.mirror ∧ t.busFault = true)

theorem writesOnce {i : Instr} {n : RegName} {v : Raw} {s : State}
    (hx : exec i s = .next (respondWrite (busWrite n v s))) : WritesOnce i n v s := by
  unfold WritesOnce
  rw [← writeBytes_eq]
  refine ⟨fun inp h => ⟨_, hx, ?_⟩, fun h => ⟨_, hx, ?_⟩⟩
  · rw [busWrite_ok h, respondWrite_true]
    exact ⟨((s.bracketOk_bracketed _ _).mirror _).respond (by simp) _, by simp, by simp⟩
  · rw [busWrite_fail h, respondWrite_false]
    exact ⟨(s.bracketFail_bracketed _).respond (by simp) _, by simp, by simp⟩

/-! ### A field write -/

/-- The write bracket of a field write, and its response. -/
theorem writeField_oneBracket {n : RegName} {f : Field} {v : Raw} {s : State} {inp inp' : List Byte}
    (h : FieldWriteAnswers n f v s inp inp') (r : Response) :
    OneBracket (between n s) ((writeField n f v s).2.respond r) (.xfer (fieldWriteBytes s.cfg n f v inp) inp') r := by
  rw [writeField_ok h]
  exact (((between n s).bracketOk_bracketed _ _).mirror _).respond (by simp) r

/-- A failed field write ends its operation with `BusFault` (R93, R192). -/
theorem writeField_endsInBusFault {n : RegName} {f : Field} {v : Raw} {s : State} {evs : List Event} {d : Device}
    (h : FieldWriteFails n f v s evs d) (hp : s.port = .H) :
    EndsInBusFault s ((writeField n f v s).2.raise .busFault) evs := by
  obtain ⟨doing, -, mirror, csn, busFault, -⟩ := writeField_failing h
  exact ⟨doing.respond hp _, busFault, csn, mirror, doing.pipes.respond _⟩

/-- An operation that is one field write: a read bracket, a write bracket, `OK(0)`; or `BusFault` (R93). -/
def WritesField (i : Instr) (n : RegName) (f : Field) (v : Raw) (s : State) : Prop :=
  (∀ inp inp', FieldWriteAnswers n f v s inp inp' →
    ∃ t, exec i s = .next t ∧ ReadHalf n s inp ∧
      OneBracket (between n s) t (.xfer (fieldWriteBytes s.cfg n f v inp) inp') (.okay 0) ∧
      t.mirror = s.mirror.set n (insertField f (assemble inp.tail) v) ∧ t.busFault = s.busFault ∧
      ∃ u, passes i s = [between n s, u] ∧ t = u.respond (.okay 0)) ∧
  (∀ evs d, FieldWriteFails n f v s evs d →
    ∃ t, exec i s = .next t ∧ EndsInBusFault s t evs ∧ t.status = s.status ∧ t.ce = s.ce ∧ t.device = d)

theorem writesField {i : Instr} {n : RegName} {f : Field} {v : Raw} {s : State} (hp : s.port = .H)
    (hx : exec i s = .next (respondWrite (writeField n f v s)))
    (hpasses : passes i s = ((writeFieldRun n f v s).andThen fun ok u => .ofWrite (ok, u)).passes) :
    WritesField i n f v s := by
  refine ⟨fun inp inp' h => ?_, fun evs d h => ?_⟩
  · obtain ⟨-, ok, mirror, -, busFault, -⟩ := writeField_doing h
    rw [respondWrite, if_pos ok] at hx
    exact ⟨_, hx, readHalf h.read, writeField_oneBracket h _, mirror, busFault, _,
      hpasses.trans (writeFieldRun_andThen h.read _), rfl⟩
  · obtain ⟨-, failed, -, -, -, status, ce, device⟩ := writeField_failing h
    rw [respondWrite, failed, if_neg Bool.false_ne_true] at hx
    exact ⟨_, hx, writeField_endsInBusFault h hp, status, ce, device⟩

/-! ### The operations, check by check (R96) -/

theorem exec_get {s : State} {a : Byte} {n : RegName} (hn : resolveReg s.cfg a = some n) :
    exec (.get a) s = .next (respondRead (busRead n s)) := by
  simp only [exec, execGet, getRun_answer, hn]

theorem exec_set {s : State} {a : Byte} {n : RegName} (hn : resolveReg s.cfg a = some n) (v : Raw) :
    exec (.set a v) s = .next (if fitsReg s.cfg n v then respondWrite (busWrite n v s)
      else s.raise .invalidConfiguration) := by
  simp only [exec, execSet, setRun_answer, hn]

theorem exec_getch (s : State) : exec .getch s = .next (respondRead (busRead (.tab s.cfg.role.rfCh.reg) s)) :=
  congrArg _ (getchRun_answer s)

theorem exec_setch (v : Raw) (s : State) :
    exec (.setch v) s = .next (if s.cfg.rfChMax < v.toNat then s.raise .invalidConfiguration
      else respondWrite (writeRole s.cfg.role.rfCh v s)) := congrArg _ (setchRun_answer v s)

theorem resolveField_eq_none {c : Config} {n : RegName} {b : Byte} (h : (c.fieldsOf n).length ≤ b.toNat) :
    resolveField c n b = none := List.getElem?_eq_none h

/-- A register outside the table has no fields (R18). -/
theorem fieldsOf_pseudo {n : RegName} (h : ∀ k, n ≠ .tab k) (c : Config) : c.fieldsOf n = [] := by
  cases n with
  | tab k => exact absurd rfl (h k)
  | rxAddr | txAddr | rxPw => rfl

section Field

variable {s : State} {a b : Byte} {n : RegName} {f : Field} {v : Raw} (hn : resolveReg s.cfg a = some n)
include hn

theorem exec_getf_unknownField (hf : resolveField s.cfg n b = none) :
    exec (.getf a b) s = .next (s.raise .unknownField) := by
  simp only [exec, execGetf, getfRun_answer, hn, hf]

theorem exec_setf_unknownField (hf : resolveField s.cfg n b = none) :
    exec (.setf a b v) s = .next (s.raise .unknownField) := by
  simp only [exec, execSetf, setfRun_answer, hn, hf]

variable (hf : resolveField s.cfg n b = some f)
include hf

theorem exec_getf : exec (.getf a b) s = .next (respondRead (readField n f s)) := by
  simp only [exec, execGetf, getfRun_answer, hn, hf]

theorem exec_setf_readOnly (ha : f.access = .ro) : exec (.setf a b v) s = .next (s.raise .readOnlyField) := by
  simp only [exec, execSetf, setfRun_answer, hn, hf, ha]

variable (ha : f.access = .rw)
include ha

theorem exec_setf_tooWide (hv : 2 ^ f.width ≤ v.toNat) :
    exec (.setf a b v) s = .next (s.raise .invalidConfiguration) := by
  simp only [exec, execSetf, setfRun_answer, hn, hf, ha, fitsField, decide_eq_true_eq, if_neg (Nat.not_lt.2 hv)]

variable (hv : v.toNat < 2 ^ f.width)
include hv

theorem exec_setf : exec (.setf a b v) s = .next (respondWrite (writeField n f v s)) := by
  simp only [exec, execSetf, setfRun_answer, hn, hf, ha, fitsField, decide_eq_true_eq, if_pos hv]

theorem passes_setf :
    passes (.setf a b v) s = ((writeFieldRun n f v s).andThen fun ok u => .ofWrite (ok, u)).passes := by
  simp only [passes, setfRun, hn, hf, ha, fitsField, decide_eq_true_eq, if_pos hv]

end Field

/-- Settles O9: GET answers the raw value of its one read. -/
theorem getReadsTheRegister : Obligations.GetReadsTheRegister := fun _ _ =>
  ⟨fun h => (exec_unknownRegister h 0 0).1, fun _ hn => readsOnce_raw (exec_get hn)⟩

/-- Settles O10: the register, then the width, then one write. -/
theorem setWritesTheRegister : Obligations.SetWritesTheRegister := by
  refine fun s _ v => ⟨fun h => (exec_unknownRegister h 0 v).2.1, fun n hn => ⟨fun hv => ?_, fun hv => ?_⟩⟩
  · rw [exec_set hn, if_neg (by simpa [fitsReg] using hv)]
  · exact writesOnce (by rw [exec_set hn, if_pos (by simpa [fitsReg] using hv)])

/-- Settles O11: the register, then the field, then one read. -/
theorem getfAnswersTheField : Obligations.GetfAnswersTheField := by
  refine fun s a b => ⟨fun h => (exec_unknownRegister h b 0).2.2.1, fun n hn =>
    ⟨fun hb => exec_getf_unknownField hn (resolveField_eq_none hb), fun htab => ?_,
      fun f hf => readsOnce (exec_getf hn hf)⟩⟩
  refine exec_getf_unknownField hn (resolveField_eq_none ?_)
  rw [fieldsOf_pseudo htab]
  exact Nat.zero_le _

/-- Settles O12, check by check, then by `writesField`. -/
theorem setfReadsThenWrites : Obligations.SetfReadsThenWrites := fun _ _ b v =>
  ⟨fun h => (exec_unknownRegister h b v).2.2.2, fun _ hn =>
    ⟨fun hb => exec_setf_unknownField hn (resolveField_eq_none hb), fun _ hf =>
      ⟨exec_setf_readOnly hn hf, exec_setf_tooWide hn hf,
        fun ha hv hp => writesField hp (exec_setf hn hf ha hv) (passes_setf hn hf ha hv)⟩⟩⟩

/-- Settles O13: the value answered is the one read, through no field. -/
theorem getchAnswersTheRawByte : Obligations.GetchAnswersTheRawByte := fun s => readsOnce_raw (exec_getch s)

/-- A channel up to `RF_CH_MAX` fits its field (R5, R95). -/
theorem rfChMax_lt {c : Config} (hw : c.wf = true) : c.rfChMax < 2 ^ (c.roleField c.role.rfCh).width := by
  obtain ⟨-, d, h⟩ := c.role_bound hw (c.wf_rfCh hw)
  exact of_decide_eq_true (Bool.and_eq_true_iff.1 h).2

/-- Settles O14: the range, then the field write of the role. -/
theorem setchChecksThenWrites : Obligations.SetchChecksThenWrites := by
  refine fun s v => ⟨fun hv => by rw [exec_setch, if_pos hv], fun hv hp =>
    ⟨fun hw => lt_of_le_of_lt hv (rfChMax_lt hw), writesField hp ?_ ?_⟩⟩
  · rw [exec_setch, if_neg (Nat.not_lt.2 hv), writeRole]
  · simp only [passes, setchRun, if_neg (Nat.not_lt.2 hv), writeRoleRun]

/-- Settles O15: the access check comes before the range check and the bus. -/
theorem readOnlyFieldsAreRejected : Obligations.ReadOnlyFieldsAreRejected := fun _ _ _ _ _ _ hn hf ha =>
  ⟨_, exec_setf_readOnly hn hf ha, rfl, rfl⟩

/-! ### The read-back law (R97) -/

/-- What is written to a register of the map is what the mirror then holds (R19, R44). -/
theorem get_mirror_set_same {s : State} (hm : MirrorFits s) {a : Byte} {n : RegName} (hn : resolveReg s.cfg a = some n)
    (v : Raw) : (s.mirror.set n v).get n = v := by
  obtain ⟨hlen, -⟩ := hm
  refine RegFile.get_set_same fun i hi => ?_
  subst hi
  obtain ⟨-, -, hi⟩ := resolveReg_eq_some.1 hn
  rwa [hlen]

theorem decodeField_eq (f : Field) (raw : Raw) :
    decodeField f raw = if f.decode = .plusOne then extract f raw + 1 else extract f raw := by
  unfold decodeField
  cases f.decode <;> rfl

/-- Settles O16: after the SETF the mirror holds the inserted value, whose field is the value written; the device
returns that field, and GETF decodes it. -/
theorem readBackAfterFieldWrite : Obligations.ReadBackAfterFieldWrite := by
  intro s t s' a b v n f inp inp' back hw hm hp hn hf ha hv hans hx hcfg hmir hback hret
  obtain ⟨written, -⟩ := writesField hp (exec_setf hn hf ha hv) (passes_setf hn hf ha hv)
  obtain ⟨t', hx', -, hone, hmirror, -⟩ := written inp inp' hans
  cases hx.symm.trans hx'
  have hc : s'.cfg = s.cfg := by rw [hcfg, hone.rest, between_cfg]
  have hbound : f.off + f.width ≤ 40 := (resolveField_bound hw hf).trans (bytesOf_le _ _)
  have hfield : extract f (assemble back.tail) = v := by
    rw [hret, hmir, hmirror, get_mirror_set_same hm hn, extract_insert_same hv hbound]
  rw [← hc] at hn hf hback
  obtain ⟨answered, -⟩ := readsOnce (exec_getf hn hf)
  obtain ⟨u, hu, hread, -⟩ := answered back hback
  exact ⟨u, hu, by rw [hread.replies, decodeField_eq, hfield]⟩

end Sys2Proof.Machine

/-! ## GOTO and STATE (R110 to R119): an edge is a field write and a stretch off the bus -/

namespace Sys2Proof.Machine

open Sys2Proof

/-! ### A stretch of an operation that does not use the bus -/

/-- From one state to another by chip-enable events, waits, changes of the recorded status and other agents' turns,
with the owner's events (R111 to R115). -/
inductive OffBus : State → State → List Event → Prop where
  | refl (s : State) : OffBus s s []
  | point {s t : State} {evs : List Event} : OffBus (interleave s) t evs → OffBus s t evs
  | ce {s t : State} {evs : List Event} (l : Level) : OffBus (s.driveCe l) t evs → OffBus s t (.ce l :: evs)
  | wait {s t : State} {evs : List Event} (d : Nat) : OffBus (s.wait d) t evs → OffBus s t (.wait d :: evs)
  | status {s t : State} {evs : List Event} (x : Status) : OffBus (s.setStatus x) t evs → OffBus s t evs

theorem interleave_device (s : State) : (interleave s).device = s.device := by rw [(interleave_guests s).rest]

section OffBus

variable {s t : State} {evs : List Event} (h : OffBus s t evs)
include h

theorem OffBus.doing : OwnerDoing s t evs := by
  induction h with
  | refl s => exact .refl s
  | @point s _ _ _ ih => exact (interleave_doing s).trans ih
  | @ce s _ _ l _ ih => exact (ce_doing l s).trans ih
  | @wait s _ _ d _ ih => exact (wait_doing d s).trans ih
  | @status s _ _ x _ ih => exact (status_doing x s).trans ih

theorem OffBus.keeps :
    t.mirror = s.mirror ∧ t.csn = s.csn ∧ t.busFault = s.busFault ∧ t.device = s.device := by
  induction h with
  | refl => exact ⟨rfl, rfl, rfl, rfl⟩
  | @point s _ _ _ ih =>
    obtain ⟨mirror, csn, busFault, -⟩ := interleave_keeps s
    rwa [mirror, csn, busFault, interleave_device] at ih
  | ce _ _ ih => exact ih
  | wait _ _ ih => exact ih
  | status _ _ ih => exact ih

/-- Chip-enable is where the stretch's events drove it last (R23). -/
theorem OffBus.ce_eq : t.ce = (lastCe evs).or s.ce := by
  induction h with
  | refl => rfl
  | @point s _ _ _ ih =>
    obtain ⟨-, -, -, ce, -⟩ := interleave_keeps s
    rwa [ce] at ih
  | ce _ _ ih =>
    rw [← List.singleton_append, lastCe_append, Option.or_assoc]
    exact ih
  | wait _ _ ih =>
    rw [← List.singleton_append, lastCe_append, Option.or_assoc]
    exact ih
  | status _ _ ih => exact ih

end OffBus

/-! ### An edge that begins with a field write -/

/-- The field write of a role, then `rest` if it succeeded (R111 to R114). -/
def writeThen (r : FieldRef) (v : Raw) (rest : State → Run Bool) (s : State) : Run Bool :=
  (writeRoleRun r v s).andThen fun ok w => if ok then rest w else .done false w

/-- GOTO's response after its edge: the new status, or `BusFault` (R110, R119). -/
def gotoEnd (ok : Bool) (u : State) : Run Response :=
  .done (if ok then .okay (statusValue u.status) else .ofCode .busFault 0) u

/-- From `s` GOTO writes `v` to the field of `r`; when that succeeded it goes on off the bus with these events and
records the target. -/
def WritingEdge (s : State) (target : Status) (r : FieldRef) (v : Raw) (evs : List Event) : Prop :=
  ∃ rest : State → Run Bool, gotoRun target s = (writeThen r v rest s).andThen gotoEnd ∧
    ∀ w, (rest w).finish.1 = true ∧ OffBus w (rest w).finish.2 evs ∧ (rest w).finish.2.status = target

theorem writingEdge_powerDown_standBy {s : State} (hs : s.status = .powerDown) :
    WritingEdge s .standBy s.cfg.role.pwrUp 1 [.ce .low, .wait 1500] :=
  ⟨_, by rw [gotoRun, hs]; rfl, fun _ => ⟨rfl, .point (.ce _ (.point (.wait _ (.status _ (.refl _))))), rfl⟩⟩

theorem writingEdge_standBy_powerDown {s : State} (hs : s.status = .standBy) :
    WritingEdge s .powerDown s.cfg.role.pwrUp 0 [] :=
  ⟨_, by rw [gotoRun, hs]; rfl, fun _ => ⟨rfl, .status _ (.refl _), rfl⟩⟩

theorem writingEdge_standBy_rx {s : State} (hs : s.status = .standBy) :
    WritingEdge s .rx s.cfg.role.primRx 1 [.ce .high] :=
  ⟨_, by rw [gotoRun, hs]; rfl, fun _ => ⟨rfl, .point (.ce _ (.status _ (.refl _))), rfl⟩⟩

theorem writingEdge_standBy_tx {s : State} (hs : s.status = .standBy) :
    WritingEdge s .tx s.cfg.role.primRx 0 [.ce .high, .wait 130] :=
  ⟨_, by rw [gotoRun, hs]; rfl, fun _ => ⟨rfl, .point (.ce _ (.point (.wait _ (.status _ (.refl _))))), rfl⟩⟩

theorem writeThen_finish_ok {r : FieldRef} {v : Raw} {s : State} (h : (writeRole r v s).1 = true)
    (rest : State → Run Bool) : (writeThen r v rest s).finish = (rest (writeRole r v s).2).finish := by
  rw [writeThen, Run.finish_andThen, writeRoleRun_finish, h, if_pos rfl]

theorem writeThen_finish_failed {r : FieldRef} {v : Raw} {s : State} (h : (writeRole r v s).1 = false)
    (rest : State → Run Bool) : (writeThen r v rest s).finish = (false, (writeRole r v s).2) := by
  rw [writeThen, Run.finish_andThen, writeRoleRun_finish, h, if_neg Bool.false_ne_true, Run.finish_done]

/-- Between the two brackets of its field write a reset can meet the run (R215; log entry 23). -/
theorem between_mem_passes {α : Type} {r : FieldRef} {v : Raw} {s : State} {inp : List Byte}
    (h : s.answers (readOut s.cfg (.tab r.reg)) inp) (rest : State → Run Bool) (g : Bool → State → Run α) :
    between (.tab r.reg) s ∈ ((writeThen r v rest s).andThen g).passes := by
  rw [writeThen, writeRoleRun, Run.andThen_assoc, writeFieldRun_andThen h]
  exact List.mem_cons_self

/-- The field write succeeds: the owner's events, the response, the pin, the status and the device (R110 to R114). -/
theorem WritingEdge.succeeds {s : State} {target : Status} {r : FieldRef} {v : Raw} {evs : List Event}
    {inp inp' : List Byte} (e : WritingEdge s target r v evs) (hp : s.port = .H)
    (h : FieldWriteAnswers (.tab r.reg) (s.cfg.roleField r) v s inp inp') :
    ∃ t, exec (.goto target) s = .next t ∧
      EdgeDone s t (fieldWriteEvents s.cfg (.tab r.reg) (s.cfg.roleField r) v inp inp' ++ evs)
        (.okay (statusValue target)) (.tab r.reg) (insertField (s.cfg.roleField r) (assemble inp.tail) v) ∧
      t.ce = (lastCe evs).or s.ce ∧ t.status = target ∧
      t.device = fieldWriteDevice (.tab r.reg) (s.cfg.roleField r) v s inp ∧
      between (.tab r.reg) s ∈ passes (.goto target) s := by
  obtain ⟨rest, hrun, hrest⟩ := e
  obtain ⟨doing, ok, mirror, csn, busFault, -, ce, device⟩ := writeField_doing h
  obtain ⟨completed, off, status⟩ := hrest (writeRole r v s).2
  obtain ⟨hmirror, hcsn, hbusFault, hdevice⟩ := off.keeps
  have whole := doing.trans off.doing
  have hx : exec (.goto target) s =
      .next ((rest (writeRole r v s).2).finish.2.respond (.okay (statusValue target))) := by
    rw [exec, execGoto, hrun, Run.answer, Run.finish_andThen, writeThen_finish_ok ok, completed, gotoEnd,
      Run.finish_done, if_pos rfl, status]
  have hpass : between (.tab r.reg) s ∈ passes (.goto target) s := by
    rw [passes, hrun]
    exact between_mem_passes h.read _ _
  exact ⟨_, hx,
    ⟨whole.respond hp _, hbusFault.trans busFault, hcsn.trans csn, hmirror.trans mirror, whole.pipes.respond _⟩,
    off.ce_eq.trans (congrArg _ ce), status, hdevice.trans device, hpass⟩

/-- The field write fails: the edge ends where it began (R119). -/
theorem WritingEdge.fails {s : State} {target : Status} {r : FieldRef} {v : Raw} {evs done : List Event} {d : Device}
    (e : WritingEdge s target r v evs) (hp : s.port = .H)
    (h : FieldWriteFails (.tab r.reg) (s.cfg.roleField r) v s done d) :
    ∃ t, exec (.goto target) s = .next t ∧ EndsInBusFault s t done ∧ t.status = s.status ∧ t.ce = s.ce ∧
      t.device = d := by
  obtain ⟨rest, hrun, -⟩ := e
  obtain ⟨-, failed, -, -, -, status, ce, device⟩ := writeField_failing h
  have hx : exec (.goto target) s = .next ((writeRole r v s).2.raise .busFault) := by
    rw [exec, execGoto, hrun, Run.answer, Run.finish_andThen, writeThen_finish_failed failed, gotoEnd, Run.finish_done,
      if_neg Bool.false_ne_true, State.raise_eq]
  exact ⟨_, hx, writeField_endsInBusFault h hp, status, ce, device⟩

/-! ### Rx or Tx: the step to StandBy comes first (R115, R116) -/

theorem edgeSB_offBus (s : State) : OffBus s (edgeSB s) [.ce .low, .wait 130] :=
  .ce _ (.point (.wait _ (.status _ (.refl _))))

/-- The step to StandBy as the first of two: other agents have had their turns after it (log entry 6). -/
theorem interleave_edgeSB_offBus (s : State) : OffBus s (interleave (edgeSB s)) [.ce .low, .wait 130] :=
  .ce _ (.point (.wait _ (.status _ (.point (.refl _)))))

theorem interleave_edgeSB_status (s : State) : (interleave (edgeSB s)).status = .standBy := by
  obtain ⟨-, -, -, -, status, -⟩ := interleave_keeps (edgeSB s)
  exact status

theorem interleave_edgeSB_port (s : State) : (interleave (edgeSB s)).port = s.port := by
  rw [(interleave_edgeSB_offBus s).doing.rest.rest]

theorem interleave_edgeSB_cfg (s : State) : (interleave (edgeSB s)).cfg = s.cfg := by
  rw [(interleave_edgeSB_offBus s).doing.rest.rest]

theorem exec_goto_standBy_of_active {s : State} (hs : s.status = .rx ∨ s.status = .tx) :
    exec (.goto .standBy) s = .next ((edgeSB s).respond (.okay 1)) := by
  have h : edgeOf s.status .standBy = some fun s => (true, edgeSB s) := by rcases hs with hs | hs <;> rw [hs] <;> rfl
  exact goto_edge h

/-- GOTO PowerDown from Rx or Tx ends as GOTO PowerDown does from the StandBy its first step came to. -/
theorem exec_goto_powerDown_of_active {s : State} (hs : s.status = .rx ∨ s.status = .tx) :
    exec (.goto .powerDown) s = exec (.goto .powerDown) (interleave (edgeSB s)) := by
  have h : edgeOf s.status .powerDown = some edgeSBPD := by rcases hs with hs | hs <;> rw [hs] <;> rfl
  have h₁ : edgeOf (interleave (edgeSB s)).status .powerDown = some edgePD := by rw [interleave_edgeSB_status]; rfl
  rw [goto_edge h, goto_edge h₁]
  rfl

theorem passes_goto_powerDown_of_active {s : State} (hs : s.status = .rx ∨ s.status = .tx) :
    passes (.goto .powerDown) s =
      interleave (s.driveCe .low) :: interleave (edgeSB s) :: passes (.goto .powerDown) (interleave (edgeSB s)) := by
  have h : transition s.status .powerDown = some runSBPD := by rcases hs with hs | hs <;> rw [hs] <;> rfl
  rw [passes, passes, gotoRun, gotoRun, h, interleave_edgeSB_status]
  rfl

/-- What an operation did after a first stretch of it, seen from where the stretch began. -/
theorem OwnerDoing.thenDid {s u t : State} {l m : List Event} {r : Response} (h : OwnerDoing s u l)
    (g : OwnerDid u t m r) : OwnerDid s t (l ++ m) r where
  events := by rw [g.events, h.events, List.append_assoc]
  replies := by rw [g.replies, h.replies]
  time := by have := h.time; have := g.time; rw [waitTotal_append]; omega
  rest := h.rest.trans g.rest
  quiet w := by
    have hu := h.quiet w
    have ht := g.quiet (hu.within.trans w)
    rw [QuietDoing] at hu
    rw [ht, hu]
    simp

theorem PipesSameButTaken.trans {s u t : State} (h : PipesSameButTaken s u) (g : PipesSameButTaken u t)
    (hw : s.within = [] → u.within = []) : PipesSameButTaken s t where
  taken p := (h.taken p).trans (g.taken p)
  quiet w := (g.quiet (hw w)).trans (h.quiet w)

section OffBus

variable {s u t : State} {evs done : List Event} (h : OffBus s u evs)
include h

theorem OffBus.thenPipes (g : PipesSameButTaken u t) : PipesSameButTaken s t :=
  h.doing.pipes.trans g fun w => (h.doing.quiet w).within.trans w

theorem OffBus.thenEdgeDone {r : Response} {n : RegName} {raw : Raw} (g : EdgeDone u t done r n raw) :
    EdgeDone s t (evs ++ done) r n raw := by
  obtain ⟨mirror, -, busFault, -⟩ := h.keeps
  exact ⟨h.doing.thenDid g.did, g.busFault.trans busFault, g.csn, mirror ▸ g.mirror, h.thenPipes g.pipes⟩

theorem OffBus.thenEndsInBusFault (g : EndsInBusFault u t done) : EndsInBusFault s t (evs ++ done) := by
  obtain ⟨mirror, -⟩ := h.keeps
  exact ⟨h.doing.thenDid g.did, g.busFault, g.csn, g.mirror.trans mirror, h.thenPipes g.pipes⟩

end OffBus

/-! ### The edges (R111 to R116) -/

/-- Settles O19: a writing edge that drives chip-enable low and waits. -/
theorem edgePowerDownToStandBy : Obligations.EdgePowerDownToStandBy := fun _ _ _ hp hs h =>
  (writingEdge_powerDown_standBy hs).succeeds hp h

/-- Settles O20: no event follows the field write, so chip-enable stays. -/
theorem edgeStandByToPowerDown : Obligations.EdgeStandByToPowerDown := by
  intro _ _ _ hp hs _ _ h
  obtain ⟨t, ht, done, others⟩ := (writingEdge_standBy_powerDown hs).succeeds hp h
  rw [List.append_nil] at done
  exact ⟨t, ht, done, others⟩

/-- Settles O21: a writing edge that drives chip-enable high. -/
theorem edgeStandByToRx : Obligations.EdgeStandByToRx := fun _ _ _ hp hs h => (writingEdge_standBy_rx hs).succeeds hp h

/-- Settles O22: a writing edge that drives chip-enable high and waits. -/
theorem edgeStandByToTx : Obligations.EdgeStandByToTx := fun _ _ _ hp hs h => (writingEdge_standBy_tx hs).succeeds hp h

/-- Settles O23: the edge is a stretch off the bus, so no device can make it fail. -/
theorem edgeActiveToStandBy : Obligations.EdgeActiveToStandBy := by
  intro s hp hs
  have off := edgeSB_offBus s
  obtain ⟨mirror, csn, busFault, device⟩ := off.keeps
  exact ⟨_, exec_goto_standBy_of_active hs, off.doing.respond hp _, off.ce_eq, rfl, mirror, csn, busFault, device,
    off.doing.pipes.respond _⟩

/-- Settles O24: after the step to StandBy, O20 in the state that step came to. -/
theorem edgeActiveToPowerDown : Obligations.EdgeActiveToPowerDown := by
  intro s inp inp' hp hs n f s₁
  have off := interleave_edgeSB_offBus s
  have hc : s₁.cfg = s.cfg := interleave_edgeSB_cfg s
  have hce : s₁.ce = some .low := off.ce_eq
  have hs₁ : s₁.status = .standBy := interleave_edgeSB_status s
  refine ⟨off.doing.respond hp _, hs₁, hce, fun h => ?_⟩
  have second := edgeStandByToPowerDown s₁ inp inp' ((interleave_edgeSB_port s).trans hp) hs₁
  simp only [hc] at second
  obtain ⟨t, ht, done, ce, status, device, passed⟩ := second h
  rw [exec_goto_powerDown_of_active hs, passes_goto_powerDown_of_active hs]
  exact ⟨t, ht, off.thenEdgeDone done, ce.trans hce, status, device, by simp [s₁], by simp [s₁, n, passed]⟩

/-! ### Refusals, failures, and the recorded status (R117 to R119) -/

theorem transition_eq_none (source target : Status) : transition source target = none ↔
    (source, target) ∈ ([(.powerDown, .powerDown), (.powerDown, .rx), (.powerDown, .tx), (.standBy, .standBy),
      (.rx, .rx), (.rx, .tx), (.tx, .tx), (.tx, .rx)] : List (Status × Status)) := by
  cases source <;> cases target <;> simp [transition]

/-- A GOTO along an edge answers the new status or `BusFault`, never the refusal. -/
theorem gotoRun_refuses_iff (target : Status) (s : State) :
    (gotoRun target s).finish.1.code = .illegalStateTransition ↔ transition s.status target = none := by
  unfold gotoRun
  cases transition s.status target with
  | none => exact ⟨fun _ => rfl, fun _ => rfl⟩
  | some edge =>
    simp only [Run.finish_andThen, Run.finish_done]
    cases (edge s).finish.1 <;> simp [Response.okay, Response.ofCode]

/-- Settles O25: on the eight pairs GOTO is the refusal; on the others its response is another one. -/
theorem illegalTransitionsAreRefused : Obligations.IllegalTransitionsAreRefused := by
  intro s target _
  rw [← transition_eq_none]
  constructor
  · intro h
    rw [exec, execGoto, gotoRun, h, Run.answer_raise]
  · intro h
    have hr : (gotoRun target s).answer = (Run.raise .illegalStateTransition s).answer := Host.Outcome.next.inj h
    rw [← gotoRun_refuses_iff, Run.finish_eq_of_answer_eq hr]
    rfl

/-- Settles O26: by `WritingEdge.fails`, for the second step from Rx or Tx in the state its first step came to. -/
theorem transitionFailureKeepsTheStatus : Obligations.TransitionFailureKeepsTheStatus := by
  intro s evs d hp
  constructor
  · intro source target r v hmem hs h
    simp only [List.mem_cons, List.not_mem_nil, or_false, Prod.mk.injEq] at hmem
    subst hs
    rcases hmem with ⟨hs, rfl, rfl, rfl⟩ | ⟨hs, rfl, rfl, rfl⟩ | ⟨hs, rfl, rfl, rfl⟩ | ⟨hs, rfl, rfl, rfl⟩
    · exact (writingEdge_powerDown_standBy hs).fails hp h
    · exact (writingEdge_standBy_powerDown hs).fails hp h
    · exact (writingEdge_standBy_rx hs).fails hp h
    · exact (writingEdge_standBy_tx hs).fails hp h
  · intro hs r h
    have off := interleave_edgeSB_offBus s
    have hs₁ := interleave_edgeSB_status s
    have edge := writingEdge_standBy_powerDown hs₁
    rw [interleave_edgeSB_cfg] at edge
    rw [← interleave_edgeSB_cfg s] at h
    obtain ⟨t, ht, ends, status, ce, device⟩ := edge.fails ((interleave_edgeSB_port s).trans hp) h
    exact ⟨t, (exec_goto_powerDown_of_active hs).trans ht, off.thenEndsInBusFault ends, status.trans hs₁,
      ce.trans off.ce_eq, device⟩

/-- Settles O27: STATE is the response and nothing else. -/
theorem stateAnswersTheStatus : Obligations.StateAnswersTheStatus := fun _ => ⟨_, rfl, rfl⟩

end Sys2Proof.Machine

/-! ## RxPipeSet (R125 to R141): the pipe number, then one access to a register or to the pipe's queue -/

namespace Sys2Proof.Machine

open Sys2Proof

/-! ### The pipe number (R125) -/

theorem answer_onPipe_refused {a : Byte} (h : 6 ≤ a.toNat) (s : State) (k : PipeNo → Run Response) :
    (Run.onPipe a s k).answer = s.raise .invalidConfiguration := by rw [Run.answer_onPipe, onPipe_none h]

/-- Settles O29: the operations on the bus begin with `Run.onPipe`, those on a queue with the check itself. -/
theorem pipeNumberCheckedFirst : Obligations.PipeNumberCheckedFirst := by
  intro s a v fr timeout h
  have hbus (k : PipeNo → Run Response) : (.next (Run.onPipe a s k).answer : Host.Outcome State Fault Refusal) =
      .next (s.raise .invalidConfiguration) := by rw [answer_onPipe_refused h]
  have hnone := checkPipe_none h
  simp only [List.forall_mem_cons]
  refine ⟨hbus _, hbus _, hbus _, hbus _, hbus _, hbus _, hbus _, hbus _, hbus _, hbus _, ?enq, ?hasdata, ?recv,
    ?recvw, nofun⟩
  case enq => rw [exec, execEnq, enqEffect, hnone]
  case hasdata => rw [exec, execHasdata, hasdataEffect, hnone]
  case recv => rw [exec, execRecv, recvEffect, hnone]
  case recvw => rw [exec, execRecvw, recvwEffect, hnone]

/-! ### What an operation comes to on a pipe there is -/

section Selected

variable {a : Byte} {p : PipeNo} (h : a.toNat = p) (s : State)
include h

theorem exec_psetaddr (v : Raw) : exec (.psetaddr a v) s =
    .next (respondWrite (copyIfWritten p (fun r => { r with addr := some v }) (busWrite (.rxAddr p) v s))) := by
  rw [exec, execPsetaddr, psetaddrRun_answer, onPipe_some h]

theorem exec_psetlen (v : Raw) : exec (.psetlen a v) s = .next (if isLength v then
      respondWrite (copyIfWritten p (fun r => { r with len := some v.toNat }) (busWrite (.rxPw p) v s))
    else s.raise .invalidConfiguration) := by
  rw [exec, execPsetlen, psetlenRun_answer, onPipe_some h]

theorem psetFlag_some (v : Raw) (role : PipeNo → FieldRef) (update : Bool → Pipe → Pipe) :
    psetFlag a v role update s = if isFlagValue v then
      respondWrite (copyIfWritten p (update (v = 1)) (writeRole (role p) v s)) else s.raise .invalidConfiguration := by
  rw [psetFlag, onPipe_some h]

theorem passes_psetFlag {v : Raw} (hv : isFlagValue v = true) (role : PipeNo → FieldRef)
    (update : Bool → Pipe → Pipe) : (psetFlagRun a v role update s).passes =
      ((writeRoleRun (role p) v s).andThen fun ok u => .ofWrite (copyIfWritten p (update (v = 1)) (ok, u))).passes := by
  rw [psetFlagRun, Run.onPipe, checkPipe_some h]
  simp only [hv, if_true]

theorem exec_pgetaddr : exec (.pgetaddr a) s = .next (respondRead (busRead (.rxAddr p) s)) := by
  rw [exec, execPgetaddr, pgetaddrRun_answer, onPipe_some h]

theorem exec_pgetlen : exec (.pgetlen a) s = .next (respondRead (busRead (.rxPw p) s)) := by
  rw [exec, execPgetlen, pgetlenRun_answer, onPipe_some h]

theorem exec_pgetaa : exec (.pgetaa a) s = .next (respondRead (readRole s.cfg.role.enAA[p] s)) := by
  rw [exec, execPgetaa, pgetaaRun_answer, onPipe_some h]

theorem exec_pgetdpl : exec (.pgetdpl a) s = .next (respondRead (readRole s.cfg.role.dynPd[p] s)) := by
  rw [exec, execPgetdpl, pgetdplRun_answer, onPipe_some h]

theorem exec_pgeten : exec (.pgeten a) s = .next (respondRead (readRole s.cfg.role.enRx[p] s)) := by
  rw [exec, execPgeten, pgetenRun_answer, onPipe_some h]

theorem exec_enq (fr : Frame) : exec (.enq a fr) s =
    .next ((enqueue p fr s).2.respond (.okay (flagValue (enqueue p fr s).1))) := by
  rw [exec, execEnq, enqEffect, checkPipe_some h]

theorem exec_hasdata : exec (.hasdata a) s = .next (s.respond (.okay (flagValue (!s.pipe[p].q.isEmpty)))) := by
  rw [exec, execHasdata, hasdataEffect, checkPipe_some h]

theorem exec_recvw (timeout : Option Raw) :
    exec (.recvw a timeout) s = .next (recvwTry { pipe := p, expiry := s.expiryOf timeout } s) := by
  rw [exec, execRecvw, recvwEffect, checkPipe_some h]

end Selected

/-! ### Register reads (R131 to R135) -/

/-- Settles O33: each is one read of its register, whose value is answered through no field. -/
theorem pgetRegistersReadTheDevice : Obligations.PgetRegistersReadTheDevice := by
  intro op reg bytes hop s a
  simp only [List.mem_cons, List.not_mem_nil, or_false, Prod.mk.injEq] at hop
  have refused := pipeNumberCheckedFirst s a 0 [] none
  rcases hop with ⟨rfl, rfl, rfl⟩ | ⟨rfl, rfl, rfl⟩
  · exact ⟨fun h => refused h _ (by simp), fun p h => readsOnce_raw (exec_pgetaddr h s)⟩
  · exact ⟨fun h => refused h _ (by simp), fun p h => readsOnce_raw (exec_pgetlen h s)⟩

/-- Settles O34: each is one read of the register that holds the pipe's bit. -/
theorem pgetFlagsReadTheDevice : Obligations.PgetFlagsReadTheDevice := by
  intro op role hop s a
  simp only [List.mem_cons, List.not_mem_nil, or_false, Prod.mk.injEq] at hop
  have refused := pipeNumberCheckedFirst s a 0 [] none
  rcases hop with ⟨rfl, rfl⟩ | ⟨rfl, rfl⟩ | ⟨rfl, rfl⟩
  · exact ⟨fun h => refused h _ (by simp), fun p h => readsOnce (exec_pgetaa h s)⟩
  · exact ⟨fun h => refused h _ (by simp), fun p h => readsOnce (exec_pgetdpl h s)⟩
  · exact ⟨fun h => refused h _ (by simp), fun p h => readsOnce (exec_pgeten h s)⟩

/-! ### Register writes and the local copy (R126 to R130, R141) -/

theorem copyIfWritten_true (p : PipeNo) (update : Pipe → Pipe) (u : State) :
    copyIfWritten p update (true, u) = (true, u.setPipe p (update u.pipe[p])) := rfl

theorem copyIfWritten_false (p : PipeNo) (update : Pipe → Pipe) (u : State) :
    copyIfWritten p update (false, u) = (false, u) := rfl

/-- Setting a pipe record before a bracket or after it makes no difference: a bracket does not read the pipes. -/
theorem Bracketed.setPipe {s t : State} {body : Event} (h : Bracketed s t body) (p : PipeNo) (r : Pipe) :
    Bracketed (s.setPipe p r) (t.setPipe p r) body where
  hist := h.hist
  csn := h.csn
  time := h.time
  device := h.device
  draws := h.draws
  rest := congrArg (State.setPipe p r) h.rest

theorem State.bracketOk_pipe (s : State) (out inp : List Byte) : (s.bracketOk out inp).pipe = s.pipe := by
  rw [s.bracketOk_same]

/-- A write bracket that succeeded, the mirror and the local copy after it, and the response. -/
theorem written_oneBracket (s : State) (out inp : List Byte) (m : RegFile) (p : PipeNo) (update : Pipe → Pipe)
    (r : Response) :
    let u : State := { s.bracketOk out inp with mirror := m }
    OneBracket (s.setPipe p (update s.pipe[p])) ((u.setPipe p (update u.pipe[p])).respond r) (.xfer out inp) r := by
  intro u
  have hpipe : u.pipe = s.pipe := s.bracketOk_pipe out inp
  rw [hpipe]
  exact (((s.bracketOk_bracketed out inp).mirror m).setPipe p (update s.pipe[p])).respond (by simp) r

/-- An operation that writes a register once, then the local copy of it, which a bus failure leaves (R126, R141). -/
def WritesThenCopies (i : Instr) (n : RegName) (v : Raw) (p : PipeNo) (update : Pipe → Pipe) (s : State) : Prop :=
  (∀ inp, s.answers (writeOut s.cfg n v) inp →
    ∃ t, exec i s = .next t ∧
      OneBracket (s.setPipe p (update s.pipe[p])) t (.xfer (writeOut s.cfg n v) inp) (.okay 0) ∧
      t.mirror = s.mirror.set n v ∧ t.busFault = s.busFault) ∧
  (s.fails (writeOut s.cfg n v) →
    ∃ t, exec i s = .next t ∧ OneBracket s t (.xferFail (writeOut s.cfg n v)) (.ofCode .busFault 0) ∧
      t.mirror = s.mirror ∧ t.busFault = true)

theorem writesThenCopies {i : Instr} {n : RegName} {v : Raw} {p : PipeNo} {update : Pipe → Pipe} {s : State}
    (hx : exec i s = .next (respondWrite (copyIfWritten p update (busWrite n v s)))) :
    WritesThenCopies i n v p update s := by
  unfold WritesThenCopies
  rw [← writeBytes_eq]
  refine ⟨fun inp h => ⟨_, hx, ?_⟩, fun h => ⟨_, hx, ?_⟩⟩
  · rw [busWrite_ok h, copyIfWritten_true, respondWrite_true]
    exact ⟨written_oneBracket _ _ _ _ _ _ _, by simp, by simp⟩
  · rw [busWrite_fail h, copyIfWritten_false, respondWrite_false]
    exact ⟨(s.bracketFail_bracketed _).respond (by simp) _, by simp, by simp⟩

/-- Settles O30: one write of five bytes, then the copy. -/
theorem psetaddrWritesThenCopies : Obligations.PsetaddrWritesThenCopies := fun s a v =>
  ⟨fun h => pipeNumberCheckedFirst s a v [] none h _ (by simp), fun _ h => writesThenCopies (exec_psetaddr h s v)⟩

/-- The payload length register takes one byte (R18, R44). -/
theorem writeOut_rxPw (c : Config) (p : PipeNo) (v : Raw) :
    writeOut c (.rxPw p) v = [c.writeCommand c.pseudo.rxPw[p].addr, BitVec.ofNat 8 v.toNat] := by
  simp [writeOut, Config.bytesOf, Config.widthOf, RegWidth.bytes, Config.addrOf, List.range_one]

/-- Settles O31: the length is checked before anything is sent; then one write of one byte, then the copy. -/
theorem psetlenWritesThenCopies : Obligations.PsetlenWritesThenCopies := by
  refine fun s a v => ⟨fun h => pipeNumberCheckedFirst s a v [] none h _ (by simp), fun p h => ⟨fun hv => ?_,
    fun hmin hmax => ?_⟩⟩
  · have hlen : ¬ isLength v = true := by
      rw [isLength, Bool.and_eq_true, decide_eq_true_eq, decide_eq_true_eq, Config.lenMin, Config.lenMax]
      omega
    rw [exec_psetlen h, if_neg hlen]
  · have hlen : isLength v = true := by
      rw [isLength, Bool.and_eq_true, decide_eq_true_eq, decide_eq_true_eq]
      exact ⟨hmin, hmax⟩
    have hx := exec_psetlen h s v
    rw [if_pos hlen] at hx
    rw [← writeOut_rxPw]
    exact writesThenCopies hx

/-- An operation that is one field write, then the local copy, which a bus failure leaves (R128 to R130, R141). -/
def WritesFieldThenCopies (i : Instr) (n : RegName) (f : Field) (v : Raw) (p : PipeNo) (update : Pipe → Pipe)
    (s : State) : Prop :=
  (∀ inp inp', FieldWriteAnswers n f v s inp inp' →
    ∃ t, exec i s = .next t ∧ ReadHalf n s inp ∧
      OneBracket ((between n s).setPipe p (update (between n s).pipe[p])) t
        (.xfer (fieldWriteBytes s.cfg n f v inp) inp') (.okay 0) ∧
      t.mirror = s.mirror.set n (insertField f (assemble inp.tail) v) ∧ t.busFault = s.busFault ∧
      ∃ u, passes i s = [between n s, u] ∧ t = u.respond (.okay 0)) ∧
  (∀ evs d, FieldWriteFails n f v s evs d →
    ∃ t, exec i s = .next t ∧ EndsInBusFault s t evs ∧ t.status = s.status ∧ t.ce = s.ce ∧ t.device = d)

theorem writesFieldThenCopies {i : Instr} {n : RegName} {f : Field} {v : Raw} {p : PipeNo} {update : Pipe → Pipe}
    {s : State} (hp : s.port = .H)
    (hx : exec i s = .next (respondWrite (copyIfWritten p update (writeField n f v s))))
    (hpasses : passes i s =
      ((writeFieldRun n f v s).andThen fun ok u => .ofWrite (copyIfWritten p update (ok, u))).passes) :
    WritesFieldThenCopies i n f v p update s := by
  refine ⟨fun inp inp' h => ?_, fun evs d h => ?_⟩
  · obtain ⟨-, -, mirror, -, busFault, -⟩ := writeField_doing h
    have hpassed := hpasses.trans (writeFieldRun_andThen h.read _)
    rw [writeField_ok h] at hx hpassed mirror busFault
    exact ⟨_, hx, readHalf h.read, written_oneBracket _ _ _ _ _ _ _, mirror, busFault, _, hpassed, rfl⟩
  · obtain ⟨-, failed, -, -, -, status, ce, device⟩ := writeField_failing h
    rw [copyIfWritten, respondWrite, failed, if_neg Bool.false_ne_true, failed, if_neg Bool.false_ne_true] at hx
    exact ⟨_, hx, writeField_endsInBusFault h hp, status, ce, device⟩

/-- Settles O32: each is `psetFlagRun` on its own bit and its own copy. -/
theorem psetFlagsWriteThenCopy : Obligations.PsetFlagsWriteThenCopy := by
  intro op role update hop s a v
  have refused := pipeNumberCheckedFirst s a v [] none
  obtain ⟨hnone, hx, hpasses⟩ : (6 ≤ a.toNat → exec (op a v) s = .next (s.raise .invalidConfiguration)) ∧
      exec (op a v) s = .next (psetFlag a v (role s.cfg) update s) ∧
      passes (op a v) s = (psetFlagRun a v (role s.cfg) update s).passes := by
    simp only [List.mem_cons, List.not_mem_nil, or_false, Prod.mk.injEq] at hop
    rcases hop with ⟨rfl, rfl, rfl⟩ | ⟨rfl, rfl, rfl⟩ | ⟨rfl, rfl, rfl⟩
    · exact ⟨fun h => refused h _ (by simp), congrArg _ (psetaaRun_answer a v s), rfl⟩
    · exact ⟨fun h => refused h _ (by simp), congrArg _ (psetdplRun_answer a v s), rfl⟩
    · exact ⟨fun h => refused h _ (by simp), congrArg _ (psetenRun_answer a v s), rfl⟩
  refine ⟨hnone, fun p h => ⟨fun hv => ?_, fun hv hp => ?_⟩⟩
  · have hflag : ¬ isFlagValue v = true := by simpa [isFlagValue] using Nat.not_lt.2 hv
    rw [hx, psetFlag_some h, if_neg hflag]
  · have hflag : isFlagValue v = true := by simpa [isFlagValue] using hv
    rw [psetFlag_some h, if_pos hflag] at hx
    rw [passes_psetFlag h s hflag] at hpasses
    exact writesFieldThenCopies hp hx hpasses

/-! ### Queues (R136 to R138) -/

/-- Settles O35: by the two outcomes of `enqueue`. -/
theorem enqStoresOrDrops : Obligations.EnqStoresOrDrops := by
  refine fun s a fr => ⟨fun h => pipeNumberCheckedFirst s a 0 fr none h _ (by simp), fun p h => ⟨fun hroom => ?_,
    fun hfull => ?_⟩⟩
  · obtain ⟨-, e⟩ := (enqueue_cases p fr s).resolve_right fun ⟨hfull, _⟩ => absurd hroom (Nat.not_lt.2 hfull)
    rw [exec_enq h, e]
    rfl
  · obtain ⟨-, e⟩ := (enqueue_cases p fr s).resolve_left fun ⟨hroom, _⟩ => absurd hroom (Nat.not_lt.2 hfull)
    rw [exec_enq h, e]
    rfl

/-- Settles O36. -/
theorem hasdataTellsIfQueued : Obligations.HasdataTellsIfQueued := by
  refine fun s a => ⟨fun h => pipeNumberCheckedFirst s a 0 [] none h _ (by simp), fun p h => ⟨fun hq => ?_,
    fun hq => ?_⟩⟩
  · rw [exec_hasdata h, List.isEmpty_eq_false_iff.2 hq]
    rfl
  · rw [exec_hasdata h, hq]
    rfl

theorem dequeue_eq {s : State} {p : PipeNo} {fr : Frame} {tl : List Frame} (hq : s.pipe[p].q = fr :: tl) :
    dequeue p s = s.setPipe p { s.pipe[p] with q := tl } := by rw [dequeue, hq, List.tail_cons]

theorem exec_recv_cons {s : State} {a : Byte} {p : PipeNo} {fr : Frame} {tl : List Frame} (h : a.toNat = p)
    (hq : s.pipe[p].q = fr :: tl) :
    exec (.recv a) s = .next ((s.setPipe p { s.pipe[p] with q := tl }).respond (.okFrame fr)) := by
  simp only [exec, execRecv, recvEffect, checkPipe_some h, hq, dequeue_eq hq]

theorem exec_recv_nil {s : State} {a : Byte} {p : PipeNo} (h : a.toNat = p) (hq : s.pipe[p].q = []) :
    exec (.recv a) s = .next (s.raise .noData) := by
  simp only [exec, execRecv, recvEffect, checkPipe_some h, hq]

/-- Settles O37. -/
theorem recvTakesTheOldest : Obligations.RecvTakesTheOldest := fun s a =>
  ⟨fun h => pipeNumberCheckedFirst s a 0 [] none h _ (by simp), fun _ h =>
    ⟨exec_recv_nil h, fun _ _ => exec_recv_cons h⟩⟩

/-! ### RECVW: at acceptance, and at each examination of its hold (R139) -/

theorem recvwTry_cons {s : State} {w : Waiting} {fr : Frame} {tl : List Frame} (hq : s.pipe[w.pipe].q = fr :: tl) :
    recvwTry w s =
      ((s.setPipe w.pipe { s.pipe[w.pipe] with q := tl }).release s.port).respond (.okFrame fr) := by
  simp only [recvwTry, hq, dequeue_eq hq]

theorem recvwTry_nil {s : State} {w : Waiting} (hq : s.pipe[w.pipe].q = []) : recvwTry w s = recvwWait w s := by
  simp only [recvwTry, hq]

theorem State.expired_iff (s : State) (expiry : Option Nat) :
    s.expired expiry = true ↔ ∃ e, expiry = some e ∧ e ≤ s.now := by
  cases expiry <;> simp [State.expired]

/-- What ends a RECVW that has no frame, and what lets it hold (R139, R191). -/
theorem recvwWait_cancelled {s : State} (hc : s.cancel s.port = true) (w : Waiting) :
    recvwWait w s = (s.release s.port).raise .cancelled := by rw [recvwWait, if_pos hc]

theorem recvwWait_timeout {s : State} {w : Waiting} (hc : s.cancel s.port = false)
    (he : ∃ e, w.expiry = some e ∧ e ≤ s.now) : recvwWait w s = (s.release s.port).raise .timeout := by
  rw [recvwWait, hc, if_neg Bool.false_ne_true, if_pos ((s.expired_iff _).2 he)]

theorem recvwWait_holds {s : State} {w : Waiting} (hc : s.cancel s.port = false)
    (he : ∀ e, w.expiry = some e → s.now < e) : recvwWait w s = s.holdRecvw s.port w := by
  have hne : ¬ s.expired w.expiry = true := fun h => by
    obtain ⟨e, hw, hle⟩ := (s.expired_iff _).1 h
    exact absurd hle (Nat.not_le.2 (he e hw))
  rw [recvwWait, hc, if_neg Bool.false_ne_true, if_neg hne]

/-- Settles O38: the first examination, whose expiry is the time of acceptance plus the timeout. -/
theorem recvwAccepted : Obligations.RecvwAccepted := by
  refine fun s a timeout => ⟨fun h => pipeNumberCheckedFirst s a 0 [] timeout h _ (by simp), fun p h => ?_⟩
  rw [exec_recvw h]
  refine ⟨fun fr rest hq => congrArg _ (recvwTry_cons hq), fun hq => ?_⟩
  rw [recvwTry_nil hq]
  refine ⟨fun hc => congrArg _ (recvwWait_cancelled hc _), fun hc ht => congrArg _ (recvwWait_timeout hc ?_),
    fun hc ht => congrArg _ (recvwWait_holds hc ?_)⟩
  · exact ⟨s.now, by rw [ht]; rfl, le_rfl⟩
  · intro e he
    obtain ⟨d, rfl, rfl⟩ := Option.map_eq_some_iff.1 he
    have hd : d.toNat ≠ 0 := fun h0 => ht (congrArg some (BitVec.eq_of_toNat_eq h0))
    omega

/-- A RECVW that holds on a port. -/
def State.Awaits (s : State) (w : Waiting) : Port → Prop
  | .H => s.holdH = some (.recvw w)
  | .C => s.holdC = some w

/-- Holding what is held already changes nothing. -/
theorem State.Awaits.holdRecvw_eq {s : State} {w : Waiting} {p : Port} (h : s.Awaits w p) : s.holdRecvw p w = s := by
  cases p with
  | H => exact congrArg (fun x => { s with holdH := x }) h.symm
  | C => exact congrArg (fun x => { s with holdC := x }) h.symm

theorem recvwPoll_cons {s : State} {w : Waiting} {fr : Frame} {tl : List Frame} (ho : s.life = .opened)
    (hq : s.pipe[w.pipe].q = fr :: tl) : recvwPoll w s =
      ((s.setPipe w.pipe { s.pipe[w.pipe] with q := tl }).release s.port).respond (.okFrame fr) := by
  rw [recvwPoll, ho, recvwTry_cons hq]

/-- No frame is to be had once RFB is closed (R174; log entry 9), or while the queue is empty. -/
theorem recvwPoll_frameless {s : State} {w : Waiting} (h : s.life = .closed ∨ s.pipe[w.pipe].q = []) :
    recvwPoll w s = recvwWait w s := by
  cases ho : s.life with
  | closed => rw [recvwPoll, ho]
  | opened =>
    have hq : s.pipe[w.pipe].q = [] := h.resolve_left (by rw [ho]; nofun)
    rw [recvwPoll, ho, recvwTry_nil hq]

/-- The turn that examines the hold of a port (log entry 5). -/
theorem step_poll {s : State} {p : Port} {w : Waiting} {rest : List Input}
    (h : p = .H ∧ s.inputs = .pollH :: rest ∧ s.holdH = some (.recvw w) ∨
      p = .C ∧ s.inputs = .act .pollC :: rest ∧ s.holdC = some w) :
    s.Awaits w p ∧ step s = .next (recvwPoll w { s with inputs := rest, port := p }) := by
  rcases h with ⟨rfl, hin, hold⟩ | ⟨rfl, hin, hold⟩
  · exact ⟨hold, step_of_done (by rw [fetch_of_input hin]; simp only [fetchInput, pollOwner, hold])⟩
  · exact ⟨hold, step_of_done (by rw [fetch_of_input hin]; simp only [fetchInput, fetchAct, pollConsumer, hold])⟩

/-- Settles O39: by the examination's cases. -/
theorem recvwHolds : Obligations.RecvwHolds := by
  intro s p w rest h s₀
  obtain ⟨hold, hstep⟩ := step_poll h
  have hold₀ : s₀.Awaits w s₀.port := by cases p <;> exact hold
  have hcancel : s₀.cancel s₀.port = s.cancel p := by cases p <;> rfl
  rw [hstep]
  refine ⟨fun fr tl ho hq => congrArg _ (recvwPoll_cons (s := s₀) ho hq), fun hnone => ?_⟩
  rw [recvwPoll_frameless (s := s₀) hnone, ← hcancel]
  exact ⟨fun hc => congrArg _ (recvwWait_cancelled hc w), fun hc he => congrArg _ (recvwWait_timeout hc he),
    fun hc he => congrArg _ ((recvwWait_holds hc he).trans hold₀.holdRecvw_eq)⟩

/-! ### First in, first out (R140) -/

theorem execAll_cons {i : Instr} {s t : State} (h : exec i s = .next t) (is : List Instr) :
    execAll (i :: is) s = execAll is t := by rw [execAll, h]

/-- What ENQs of these frames on a pipe with room for `room` more have come to: the first ones are stored, the rest
dropped and counted (R136, R140). -/
structure Enqueued (p : PipeNo) (frames : List Frame) (room : Nat) (s t : State) : Prop where
  queue : t.pipe[p].q = s.pipe[p].q ++ frames.take room
  drops : t.pipe[p].drops = s.pipe[p].drops + (frames.length - room)
  hist : t.hist = s.hist ++ (frames.drop room).map (Event.drop p)
  others : ∀ q : PipeNo, q ≠ p → t.pipe[q] = s.pipe[q]
  port : t.port = s.port

/-- A frame that was stored, then the others. -/
theorem Enqueued.stored {p : PipeNo} {fr : Frame} {frs : List Frame} {room : Nat} {s t : State} {r : Response}
    (e : Enqueued p frs room ((s.setPipe p { s.pipe[p] with q := s.pipe[p].q ++ [fr] }).respond r) t) :
    Enqueued p (fr :: frs) (room + 1) s t where
  queue := by
    rw [e.queue, State.respond_pipe, State.setPipe_get, List.take_succ_cons]
    exact List.append_assoc s.pipe[p].q [fr] _
  drops := by
    rw [e.drops, State.respond_pipe, State.setPipe_get, List.length_cons, Nat.add_sub_add_right]
  hist := e.hist
  others q hq := (e.others q hq).trans (State.setPipe_get_ne hq.symm _ _)
  port := e.port

/-- A frame that was dropped, then the others, which are dropped too. -/
theorem Enqueued.dropped {p : PipeNo} {fr : Frame} {frs : List Frame} {s t : State} {r : Response}
    (e : Enqueued p frs 0 (((s.setPipe p s.pipe[p].countDrop).emit (.drop p fr)).respond r) t) :
    Enqueued p (fr :: frs) 0 s t where
  queue := by rw [e.queue, State.respond_pipe, State.emit_pipe, State.setPipe_get]; rfl
  drops := by
    rw [e.drops, List.length_cons, State.respond_pipe, State.emit_pipe, State.setPipe_get]
    exact Nat.add_right_comm s.pipe[p].drops 1 frs.length
  hist := by simp [e.hist]
  others q hq := (e.others q hq).trans (State.setPipe_get_ne hq.symm _ _)
  port := e.port

theorem execAll_enq {a : Byte} {p : PipeNo} (h : a.toNat = p) (frames : List Frame) : ∀ s : State,
    ∃ t, execAll (frames.map fun fr => .enq a fr) s = some t ∧
      Enqueued p frames (s.cfg.cap[p] - s.pipe[p].q.length) s t := by
  induction frames with
  | nil => exact fun s => ⟨s, rfl, by simp, by simp, by simp, fun _ _ => rfl, rfl⟩
  | cons fr frs ih =>
    intro s
    rw [List.map_cons, execAll_cons (exec_enq h s fr)]
    rcases enqueue_cases p fr s with ⟨hroom, he⟩ | ⟨hfull, he⟩ <;> rw [he]
    · obtain ⟨t, ht, e⟩ := ih ((s.setPipe p { s.pipe[p] with q := s.pipe[p].q ++ [fr] }).respond
        (.okay (flagValue true)))
      refine ⟨t, ht, ?_⟩
      rw [State.respond_pipe, State.setPipe_get, List.length_append] at e
      rw [← Nat.sub_add_cancel (Nat.sub_pos_of_lt hroom)]
      exact e.stored
    · obtain ⟨t, ht, e⟩ := ih (((s.setPipe p s.pipe[p].countDrop).emit (.drop p fr)).respond
        (.okay (flagValue false)))
      refine ⟨t, ht, ?_⟩
      rw [State.respond_pipe, State.emit_pipe, State.setPipe_get] at e
      rw [Nat.sub_eq_zero_of_le hfull]
      exact Enqueued.dropped (Nat.sub_eq_zero_of_le hfull ▸ e)

/-- What `m` RECVs on a pipe have come to: the oldest frames are answered in order, then `NoData` (R138). -/
theorem execAll_recv {a : Byte} {p : PipeNo} (h : a.toNat = p) (m : Nat) : ∀ s : State,
    ∃ u, execAll (List.replicate m (.recv a)) s = some u ∧
      u.pipe[p].q = s.pipe[p].q.drop m ∧ u.hist = s.hist ∧
      u.replies = s.replies ++ (s.pipe[p].q.take m).map (fun fr => (s.port, .okFrame fr))
        ++ List.replicate (m - s.pipe[p].q.length) (s.port, .ofCode .noData 0) := by
  induction m with
  | zero => exact fun s => ⟨s, rfl, rfl, rfl, by simp⟩
  | succ m ih =>
    intro s
    rw [List.replicate_succ]
    cases hq : s.pipe[p].q with
    | nil =>
      obtain ⟨u, hu, queue, hist, replies⟩ := ih (s.raise .noData)
      rw [State.raise_eq, State.respond_pipe, hq] at queue replies
      exact ⟨u, (execAll_cons (exec_recv_nil h hq) _).trans hu, by rw [queue, List.drop_nil, List.drop_nil], hist,
        by simp [replies, List.replicate_succ]⟩
    | cons fr tl =>
      obtain ⟨u, hu, queue, hist, replies⟩ := ih ((s.setPipe p { s.pipe[p] with q := tl }).respond (.okFrame fr))
      rw [State.respond_pipe, State.setPipe_get] at queue replies
      exact ⟨u, (execAll_cons (exec_recv_cons h hq) _).trans hu, queue, hist, by simp [replies]⟩

/-- Settles O41: an empty queue has room for its capacity; then the RECVs. -/
theorem firstInFirstOut : Obligations.FirstInFirstOut := by
  intro s a p frames h hq
  obtain ⟨t, ht, e⟩ := execAll_enq h frames s
  rw [hq, List.length_nil, Nat.sub_zero] at e
  have hqueue : t.pipe[p].q = frames.take s.cfg.cap[p] := by rw [e.queue, hq, List.nil_append]
  refine ⟨t, ht, hqueue, e.drops, e.hist, e.others, fun m => ?_⟩
  rw [← hqueue, ← e.port]
  exact execAll_recv h m t

end Sys2Proof.Machine

/-! ## DRAIN (R155 to R161): outside Rx the refusal, in Rx what `drainLoop_run` says of the loop with the operand's
cap -/

namespace Sys2Proof.Machine

open Sys2Proof

/-- An invocation may always pop a frame (R155). -/
theorem drainCap_ne_zero (b : Byte) : drainCap b ≠ 0 := by
  unfold drainCap
  split
  case isTrue => decide
  case isFalse hb => exact fun h => hb (BitVec.eq_of_toNat_eq h)

theorem exec_drain_rx {s : State} (hs : s.status = .rx) (b : Byte) :
    exec (.drain b) s = .next ((drainLoop (drainCap b) 0 s).2.respond (drainLoop (drainCap b) 0 s).1) := by
  rw [exec, execDrain, drainRun_answer, hs]

theorem passes_drain_rx {s : State} (hs : s.status = .rx) (b : Byte) :
    passes (.drain b) s = (drainLoopRun (drainCap b) 0 s).passes := by
  rw [passes, drainRun, hs]

/-- An invocation that may pop a frame has closed a bracket when it ends. -/
theorem DrainRun.csn_high {k n : Nat} {s t : State} {r : Response} {popped : List Popped} {code : Code}
    {last : List Event} (d : DrainRun k n s t r popped code last) (hk : k ≠ 0) : t.csn = some .high :=
  d.csn.resolve_right fun ⟨h, _⟩ => hk h

/-- Settles O43: each of the three other statuses is refused. -/
theorem drainOutsideRx : Obligations.DrainOutsideRx := by
  intro s b hs
  rw [exec, execDrain, drainRun_answer]
  cases h : s.status with
  | rx => exact absurd h hs
  | powerDown | standBy | tx => rfl

/-- Settles O44: what `drainLoop_run` says of the loop, and the response. -/
theorem drainPopsUntilItEnds : Obligations.DrainPopsUntilItEnds := by
  intro s b hw hp hs
  obtain ⟨popped, code, last, d⟩ := drainLoop_run (drainCap b) 0 s hw
  obtain ⟨status, ce, mirror⟩ := d.same
  obtain ⟨brackets, transfers⟩ := drain_counts d.count d.ends
  have response := d.response
  rw [Nat.zero_add] at response
  refine ⟨_, _, popped, code, last, exec_drain_rx hs b, d.trace, (passes_drain_rx hs b).trans d.passes,
    congrArg (State.respond · _) response, d.count, d.ok, d.ends, ?did, brackets, transfers, status.trans hs, ce,
    d.csn_high (drainCap_ne_zero b), mirror, d.busFault, d.pipe, d.quiet⟩
  case did => exact response ▸ d.ran.respond hp _

end Sys2Proof.Machine

/-! ## The decoder (R165 to R174): its turn, the wire commands, and how DSTOP and SHUTDOWN end it -/

namespace Sys2Proof

/-- `sext_8` is the two's complement reading of a byte (R6). -/
theorem sext8_eq_toInt (b : Byte) : sext8 b = b.toInt := by
  rw [sext8, BitVec.toInt_eq_toNat_cond]
  split <;> split <;> omega

/-! ### What a frame parses to (R76, R77, R167) -/

theorem decodeFrame_short {fr : Frame} (h : fr.length < 2) : decodeFrame fr = .error .frameTooShort := by
  match fr, h with
  | [], _ => rfl
  | [_], _ => rfl

section Letter

variable {c x : Byte} {more : List Byte}

theorem decodeFrame_volume (h : c.toNat = 0x76) : decodeFrame (c :: x :: more) = .ok (.volume x) := by
  obtain rfl : c = letterV := BitVec.eq_of_toNat_eq h
  rfl

theorem decodeFrame_play (h : c.toNat = 0x70) : decodeFrame (c :: x :: more) = .ok (.play x) := by
  obtain rfl : c = letterP := BitVec.eq_of_toNat_eq h
  rfl

theorem decodeFrame_track (h : c.toNat = 0x74) : decodeFrame (c :: x :: more) = .ok (.track x) := by
  obtain rfl : c = letterT := BitVec.eq_of_toNat_eq h
  rfl

theorem decodeFrame_unknown (h : c.toNat ∉ [0x76, 0x70, 0x74]) :
    decodeFrame (c :: x :: more) = .error .unknownLetter := by
  have hv : c ≠ letterV := by rintro rfl; exact h (by decide)
  have hp : c ≠ letterP := by rintro rfl; exact h (by decide)
  have ht : c ≠ letterT := by rintro rfl; exact h (by decide)
  rw [decodeFrame, if_neg hv, if_neg hp, if_neg ht]

end Letter

end Sys2Proof

namespace Sys2Proof.Machine

open Sys2Proof

/-! ### The wire commands (R168 to R170) -/

theorem exec_volume (arg : Byte) (s : State) :
    exec (.volume arg) s = .next (s.emit (.player (.incrVolume arg.toInt))) := by
  rw [exec, execVolume, volumeEffect, sext8_eq_toInt]

theorem exec_track_zero (s : State) : exec (.track 0) s = .next s := rfl

theorem exec_track {arg : Byte} (h : arg ≠ 0) (s : State) :
    exec (.track arg) s = .next (s.emit (.player (.skipTracks arg.toInt))) := by
  have hi : arg.toInt ≠ 0 := fun h0 => h (BitVec.toInt_inj.1 h0)
  rw [exec, execTrack, trackEffect, sext8_eq_toInt, if_neg hi]

/-- Settles O45: what each wire command comes to. -/
theorem wireCommandsActOnThePlayer : Obligations.WireCommandsActOnThePlayer := fun s arg =>
  ⟨exec_volume arg s, rfl, fun h => h ▸ exec_track_zero s, fun h => exec_track h s⟩

/-! ### The decoder's turn (R165, R166, R171) -/

theorem fetchDecoder_off {s : State} (h : s.cfg.decPipe = none ∨ s.dec = .exited ∨ s.life = .closed) :
    fetchDecoder s = .done s := by
  cases hdp : s.cfg.decPipe with
  | none => rw [fetchDecoder, hdp]
  | some dp =>
    have hoff : ¬ (s.dec = .running ∧ s.life = .opened) := by
      rintro ⟨hr, ho⟩
      simp [hdp, hr, ho] at h
    rw [fetchDecoder, hdp]
    exact if_neg hoff

section Running

variable {s : State} {dp : PipeNo} (hdp : s.cfg.decPipe = some dp) (hr : s.dec = .running) (ho : s.life = .opened)

include hdp hr ho

theorem fetchDecoder_stops (hs : s.stop = true) : fetchDecoder s = .done { s with dec := .exited } := by
  simp only [fetchDecoder, hdp, hr, ho, hs, and_self, if_true]

theorem fetchDecoder_empty (hs : s.stop = false) (hq : s.pipe[dp].q = []) : fetchDecoder s = .done s := by
  simp only [fetchDecoder, hdp, hr, ho, hs, hq, and_self, if_true, Bool.false_eq_true, if_false]

theorem fetchDecoder_fails {fr : Frame} {tl : List Frame} {e : DecodeError} (hs : s.stop = false)
    (hq : s.pipe[dp].q = fr :: tl) (hd : decodeFrame fr = .error e) :
    fetchDecoder s = .done (decodeFailure fr (s.setPipe dp { s.pipe[dp] with q := tl })) := by
  simp only [fetchDecoder, hdp, hr, ho, hs, hq, hd, dequeue_eq hq, and_self, if_true, Bool.false_eq_true, if_false]

end Running

/-- Settles O46: by the branches of the decoder's turn and, for a frame taken, by what it parses to. -/
theorem decoderStepTakesOneFrame : Obligations.DecoderStepTakesOneFrame := by
  intro s rest hin s₀
  refine ⟨fun hoff => step_act_done hin (fetchDecoder_off hoff), fun dp hdp hr ho =>
    ⟨fun hs => step_act_done hin (fetchDecoder_stops hdp hr ho hs), fun hs =>
      ⟨fun hq => step_act_done hin (fetchDecoder_empty hdp hr ho hs hq), fun fr tl hq => ?_⟩⟩⟩
  intro taken failed
  have fails {e : DecodeError} (hd : decodeFrame fr = .error e) : step s = .next failed :=
    step_act_done hin (fetchDecoder_fails (s := s₀) hdp hr ho hs hq hd)
  have runs {i : Instr} (hd : decodeFrame fr = .ok i) : step s = exec i taken := by
    obtain ⟨-, -, wire⟩ := stepRunsTheDecoded s i rest ho
    exact wire dp fr tl hin hdp hr hs hq hd
  refine ⟨fun hl => fails (decodeFrame_short hl), ?letter⟩
  case letter =>
    rintro c x more rfl
    exact ⟨fun hc => (runs (decodeFrame_volume hc)).trans (exec_volume x taken),
      fun hc => runs (decodeFrame_play hc),
      fun hc hx => (runs (decodeFrame_track hc)).trans (hx ▸ exec_track_zero taken),
      fun hc hx => (runs (decodeFrame_track hc)).trans (exec_track hx taken),
      fun hc => fails (decodeFrame_unknown hc)⟩

/-! ### DSTOP (R173) -/

/-- Settles O47: the state DSTOP leaves has `stop` set, which the decoder tests first. -/
theorem dstopStopsTheDecoder : Obligations.DstopStopsTheDecoder := fun _ =>
  ⟨_, rfl, rfl, fun _ _ hdp hr ho => step_act_done rfl (fetchDecoder_stops hdp hr ho rfl)⟩

/-! ### SHUTDOWN (R174) -/

/-- An examination of a SHUTDOWN, which has raised the stop signal, that finds the decoder exited or the wait over. -/
theorem shutdownTry_closes {s : State} {e : Nat} (hp : s.port = .H) (hs : s.stop = true)
    (h : s.dec = .exited ∨ e ≤ s.now) :
    shutdownTry e s = { s with
      stop := true, dec := .exited, life := .closed, holdH := none, port := .H, hist := s.hist ++ [.close]
      replies := s.replies ++ [(.H, .okay 0)] } := by
  rw [shutdownTry, if_pos h]
  simp only [finishShutdown, State.release, State.emit, State.respond, hp, hs]

theorem shutdownTry_holds {s : State} {e : Nat} (hr : s.dec = .running) (hn : s.now < e) :
    shutdownTry e s = s.holdShutdown e := by
  have h : ¬ (s.dec = .exited ∨ e ≤ s.now) := by simp [hr, hn]
  rw [shutdownTry, if_neg h]

/-- Holding what is held already changes nothing. -/
theorem holdShutdown_eq {s : State} {e : Nat} (h : s.holdH = some (.shutdown e)) : s.holdShutdown e = s :=
  congrArg (fun x => { s with holdH := x }) h.symm

theorem exec_shutdown (s : State) : exec .shutdown s = .next (shutdownTry (s.now + s.cfg.tStop) s.raiseStop) := rfl

/-- The turn that examines SHUTDOWN's hold, on port H whichever port the last turn was of (log entry 5). -/
theorem step_poll_shutdown {s : State} {e : Nat} {rest : List Input} (hin : s.inputs = .pollH :: rest)
    (hold : s.holdH = some (.shutdown e)) :
    step s = .next (shutdownTry e { s with inputs := rest, port := .H }) :=
  step_of_done (by rw [fetch_of_input hin]; simp only [fetchInput, pollOwner, hold])

/-- Settles O48: each examination, the one at acceptance included, closes or holds. -/
theorem shutdownWaitsThenCloses : Obligations.ShutdownWaitsThenCloses := by
  intro s closing
  refine ⟨fun hp => ?accepted, fun e rest hin hold hs => ?examined⟩
  case accepted =>
    rw [exec_shutdown]
    refine ⟨fun h => congrArg _ (shutdownTry_closes (s := s.raiseStop) hp rfl (h.imp_right fun ht => ?elapsed)),
      fun hr ht => congrArg _ (shutdownTry_holds (s := s.raiseStop) hr ?pending)⟩
    case elapsed => exact (congrArg (s.now + ·) ht).le
    case pending => exact Nat.lt_add_of_pos_right (Nat.pos_of_ne_zero ht)
  case examined =>
    let s₁ : State := { s with inputs := rest, port := .H }
    rw [step_poll_shutdown hin hold]
    exact ⟨fun h => congrArg _ (shutdownTry_closes (s := s₁) rfl hs h),
      fun hr hn => congrArg _ ((shutdownTry_holds (s := s₁) hr hn).trans (holdShutdown_eq hold))⟩

end Sys2Proof.Machine

/-! ## Errors (R185 to R199): a closed RFB, a busy port, and how an operation that answers an error ends -/

namespace Sys2Proof.Machine

open Sys2Proof

theorem State.busy_H_eq_false {s : State} : s.busy .H = false ↔ s.holdH = none := by simp [State.busy]

theorem State.busy_C_eq_false {s : State} : s.busy .C = false ↔ s.holdC = none := by simp [State.busy]

/-! ### A word on a closed RFB (R196) -/

theorem fetchCommand_closed {p : Port} {s : State} (hf : s.busy p = false) (hc : s.life = .closed) (w : CmdWord)
    (fr : Frame) : fetchCommand p w fr s = .done (({ s with port := p } : State).raise .closed) := by
  simp [fetchCommand, hf, hc]

/-- Settles O49: the word is answered before it is decoded. -/
theorem closedAnswersEveryWord : Obligations.ClosedAnswersEveryWord := by
  intro s w rest hc
  let s₁ : State := { s with inputs := rest }
  refine ⟨fun fr h hf => ?_, fun h hf => ?_⟩
  · have hfree : s₁.busy .H = false := State.busy_H_eq_false.2 hf
    exact step_of_done ((fetch_of_input h).trans (fetchCommand_closed hfree hc w fr))
  · have hfree : s₁.busy .C = false := State.busy_C_eq_false.2 hf
    exact step_of_done ((fetch_of_input h).trans (fetchCommand_closed hfree hc w []))

/-! ### A step is refused on a busy port only (R185, R225) -/

theorem fetchCommand_busy {p : Port} {s : State} (hb : s.busy p = true) (w : CmdWord) (fr : Frame) :
    fetchCommand p w fr s = .refuse (.portBusy p) := by
  rw [fetchCommand, if_pos hb]

theorem fetchCommand_free {p : Port} {s : State} (hf : s.busy p = false) (w : CmdWord) (fr : Frame) (r : Refusal) :
    fetchCommand p w fr s ≠ .refuse r := by
  rcases fetchCommand_cases p w fr s with ⟨hb, -⟩ | ⟨-, _, e⟩ | ⟨-, -, _, -, e⟩
  · exact absurd (hf.symm.trans hb) Bool.false_ne_true
  · rw [e]; nofun
  · rw [e]; nofun

/-- The input is a word for this port: a busy port refuses it, a free one does not. -/
def Input.WordFor (p : Port) (i : Input) : Prop :=
  ∀ s : State, (s.busy p = true → fetchInput i s = .refuse (.portBusy p)) ∧
    (s.busy p = false → ∀ r, fetchInput i s ≠ .refuse r)

theorem wordFor_owner (w : CmdWord) (fr : Frame) : Input.WordFor .H (.owner w fr) := fun _ =>
  ⟨fun hb => fetchCommand_busy hb w fr, fun hf => fetchCommand_free hf w fr⟩

theorem wordFor_consumer (w : CmdWord) : Input.WordFor .C (.act (.consumer w)) := fun _ =>
  ⟨fun hb => fetchCommand_busy hb w [], fun hf => fetchCommand_free hf w []⟩

/-- A word that a reset then meets is presented all the same (R215). -/
theorem wordFor_ownerReset (w : CmdWord) (fr : Frame) (k : Nat) : Input.WordFor .H (.ownerReset w fr k) := by
  refine fun s => ⟨fun hb => ?_, fun hf r => ?_⟩
  · rw [fetchInput, fetchOwnerReset, fetchCommand_busy hb]
  · rw [fetchInput, fetchOwnerReset]
    cases h : fetchCommand .H w fr s with
    | run | done => nofun
    | refuse r' => exact absurd h (fetchCommand_free hf w fr r')

theorem fetchDecoder_not_refused (s : State) (r : Refusal) : fetchDecoder s ≠ .refuse r := by
  rcases fetchDecoder_moves false s with ⟨_, e, -⟩ | ⟨_, _, e, -⟩ <;> rw [e] <;> nofun

/-- No operation faults, and none is left without a meaning (R185). -/
theorem exec_next (i : Instr) (s : State) : ∃ t, exec i s = .next t := by
  cases i with
  | _ => exact ⟨_, rfl⟩

theorem step_of_refuse {s : State} {r : Refusal} (h : fetch s = .refuse r) : step s = .refused r := by rw [step, h]

theorem step_next {s : State} (h : ∀ r, fetch s ≠ .refuse r) : ∃ t, step s = .next t := by
  cases hf : fetch s with
  | run i u =>
    rw [step_of_run hf]
    exact exec_next i u
  | done t => exact ⟨t, step_of_done hf⟩
  | refuse r => exact absurd hf (h r)

theorem Input.WordFor.step {p : Port} {i : Input} (h : i.WordFor p) {s : State} {rest : List Input}
    (hin : s.inputs = i :: rest) :
    (s.busy p = true ∧ Machine.step s = .refused (.portBusy p)) ∨
      (s.busy p = false ∧ ∃ t, Machine.step s = .next t) := by
  obtain ⟨busy, free⟩ := h { s with inputs := rest }
  have hfetch := fetch_of_input hin
  cases hb : s.busy p with
  | true => exact .inl ⟨rfl, step_of_refuse (hfetch.trans (busy hb))⟩
  | false => exact .inr ⟨rfl, step_next fun r hr => free hb r (hfetch.symm.trans hr)⟩

/-- Settles O51: a word is refused when it finds its port busy, and every other turn comes to a next state. -/
theorem everyStepAnswers : Obligations.EveryStepAnswers := by
  intro s
  cases hin : s.inputs with
  | nil => exact .inr (.inr ⟨nofun, nofun, s, step_of_done (by rw [fetch, hin])⟩)
  | cons i rest =>
    cases i with
    | owner w fr =>
      rcases (wordFor_owner w fr).step hin with ⟨hb, hs⟩ | ⟨hf, hs⟩
      · exact .inl ⟨w, fr, rest, .inl rfl, Option.isSome_iff_ne_none.1 hb, hs⟩
      · exact .inr (.inr ⟨fun _ _ _ _ => State.busy_H_eq_false.1 hf, nofun, hs⟩)
    | ownerReset w fr k =>
      rcases (wordFor_ownerReset w fr k).step hin with ⟨hb, hs⟩ | ⟨hf, hs⟩
      · exact .inl ⟨w, fr, rest, .inr ⟨k, rfl⟩, Option.isSome_iff_ne_none.1 hb, hs⟩
      · exact .inr (.inr ⟨fun _ _ _ _ => State.busy_H_eq_false.1 hf, nofun, hs⟩)
    | pollH | reset => exact .inr (.inr ⟨nofun, nofun, _, step_of_done (fetch_of_input hin)⟩)
    | act a =>
      cases a with
      | consumer w =>
        rcases (wordFor_consumer w).step hin with ⟨hb, hs⟩ | ⟨hf, hs⟩
        · exact .inr (.inl ⟨w, rest, rfl, Option.isSome_iff_ne_none.1 hb, hs⟩)
        · exact .inr (.inr ⟨nofun, fun _ _ _ => State.busy_C_eq_false.1 hf, hs⟩)
      | decoder =>
        refine .inr (.inr ⟨nofun, nofun, step_next fun r => ?_⟩)
        rw [fetch_of_input hin]
        exact fetchDecoder_not_refused _ r
      | pollC | time | cancel => exact .inr (.inr ⟨nofun, nofun, _, step_of_done (fetch_of_input hin)⟩)

/-! ### What a failed transfer leaves (R192, R228) -/

/-- The mirror and the configuration copies are as before; frames may have come and gone. -/
structure KeepsCopies (s t : State) : Prop where
  mirror : t.mirror = s.mirror
  copies : ∀ p : PipeNo, t.pipe[p] = { s.pipe[p] with q := t.pipe[p].q, drops := t.pipe[p].drops }

/-- A transfer failed last: the sticky bit is set, the bracket is closed, the copies are kept. -/
structure BusFailed (s t : State) : Prop extends KeepsCopies s t where
  busFault : t.busFault = true
  csn : t.csn = some .high

theorem KeepsCopies.refl {s t : State} (hm : t.mirror = s.mirror) (hp : t.pipe = s.pipe) : KeepsCopies s t :=
  ⟨hm, fun p => by rw [hp]⟩

theorem KeepsCopies.trans {s t u : State} (h : KeepsCopies s t) (g : KeepsCopies t u) : KeepsCopies s u where
  mirror := g.mirror.trans h.mirror
  copies p := by rw [g.copies p, h.copies p]

theorem KeepsCopies.thenFailed {s t u : State} (h : KeepsCopies s t) (g : BusFailed t u) : BusFailed s u :=
  ⟨h.trans g.toKeepsCopies, g.busFault, g.csn⟩

theorem PipesSameButTaken.keepsCopies {s t : State} (h : PipesSameButTaken s t) (hm : t.mirror = s.mirror) :
    KeepsCopies s t where
  mirror := hm
  copies p := by
    obtain ⟨k, e⟩ := h.taken p
    rw [e]

theorem interleave_keepsCopies (s : State) : KeepsCopies s (interleave s) := by
  obtain ⟨mirror, -⟩ := interleave_keeps s
  exact (interleave_doing s).pipes.keepsCopies mirror

theorem enqueue_keepsCopies (p : PipeNo) (fr : Frame) (s : State) : KeepsCopies s (enqueue p fr s).2 where
  mirror := by rw [enqueue_same]
  copies q := by rw [Frame.enqueue_pipe]

theorem OffBus.keepsCopies {s t : State} {evs : List Event} (h : OffBus s t evs) : KeepsCopies s t := by
  obtain ⟨mirror, -⟩ := h.keeps
  exact h.doing.pipes.keepsCopies mirror

theorem State.bracketFail_failed (s : State) (out : List Byte) : BusFailed s (s.bracketFail out) where
  toKeepsCopies := .refl (by simp) (by rw [s.bracketFail_same])
  busFault := by simp
  csn := by simp

theorem busRead_failed {n : RegName} {s : State} (h : (busRead n s).1 = none) : BusFailed s (busRead n s).2 := by
  rcases busRead_cases n s with ⟨inp, -, e⟩ | ⟨-, e⟩ <;> rw [e] at h ⊢
  · cases h
  · exact s.bracketFail_failed _

theorem readField_failed {n : RegName} {f : Field} {s : State} (h : (readField n f s).1 = none) :
    BusFailed s (readField n f s).2 := busRead_failed (Option.map_eq_none_iff.1 h)

theorem busWrite_failed {n : RegName} {v : Raw} {s : State} (h : (busWrite n v s).1 = false) :
    BusFailed s (busWrite n v s).2 := by
  rcases busWrite_cases n v s with ⟨inp, -, e⟩ | ⟨-, e⟩ <;> rw [e] at h ⊢
  · cases h
  · exact s.bracketFail_failed _

theorem writeField_failed {n : RegName} {f : Field} {v : Raw} {s : State} (h : (writeField n f v s).1 = false) :
    BusFailed s (writeField n f v s).2 := by
  rcases fieldWrite_cases n f v s with ⟨inp, inp', answered⟩ | ⟨evs, d, failed⟩
  · obtain ⟨-, ok, -⟩ := writeField_doing answered
    cases h.symm.trans ok
  · obtain ⟨doing, -, mirror, csn, busFault, -⟩ := writeField_failing failed
    exact ⟨doing.pipes.keepsCopies mirror, busFault, csn⟩

/-- What goes on only after a write that succeeded leaves a failed one as it was (R111 to R114, R141). -/
theorem onlyIfWritten_failed {s u : State} {r : Bool × State} (hr : r.1 = false → BusFailed s r.2)
    (h : (if r.1 then (true, u) else r).1 = false) : BusFailed s (if r.1 then (true, u) else r).2 := by
  obtain ⟨_ | _, w⟩ := r
  · exact hr rfl
  · cases h

theorem copyIfWritten_failed {p : PipeNo} {update : Pipe → Pipe} {s : State} {r : Bool × State}
    (hr : r.1 = false → BusFailed s r.2) (h : (copyIfWritten p update r).1 = false) :
    BusFailed s (copyIfWritten p update r).2 := onlyIfWritten_failed hr h

theorem edgePD_failed {s : State} (h : (edgePD s).1 = false) : BusFailed s (edgePD s).2 :=
  onlyIfWritten_failed writeField_failed h

/-- A transition that fails, fails in its field write (R119). -/
theorem edge_failed {source target : Status} {edge : State → Bool × State} (he : edgeOf source target = some edge)
    {s : State} (h : (edge s).1 = false) : BusFailed s (edge s).2 := by
  unfold edgeOf at he
  split at he <;> cases he
  · exact onlyIfWritten_failed writeField_failed h
  · exact edgePD_failed h
  · exact onlyIfWritten_failed writeField_failed h
  · exact onlyIfWritten_failed writeField_failed h
  · cases h
  · cases h
  · exact (interleave_edgeSB_offBus s).keepsCopies.thenFailed (edgePD_failed h)
  · exact (interleave_edgeSB_offBus s).keepsCopies.thenFailed (edgePD_failed h)

/-! ### A failed DRAIN (R157, R161) -/

theorem popPayload_failed {p : PipeNo} {s : State} :
    (popPayload p s).1 = .busFault → (popPayload p s).2.busFault = true := by
  unfold popPayload
  split
  · nofun
  · rename_i len _
    rcases s.transfer_cases (List.replicate len s.cfg.fill) with ⟨inp, -, e⟩ | ⟨-, e⟩ <;> rw [e]
    · nofun
    · exact fun _ => rfl

theorem popBody_failed {s : State} : (popBody s).1 = .busFault → (popBody s).2.busFault = true := by
  unfold popBody
  rcases s.transfer_cases [s.cfg.rxpl] with ⟨inp, -, e⟩ | ⟨-, e⟩ <;> rw [e]
  · simp only
    split
    · nofun
    · nofun
    · exact popPayload_failed
  · exact fun _ => rfl

theorem rxPop_keepsCopies (s : State) : KeepsCopies s (rxPop s).2 := by
  obtain ⟨pipe, -⟩ := rxPop_pipe s
  obtain ⟨body, -, e⟩ := popBody_body s.select
  exact .refl (by rw [rxPop, State.deselect_mirror, e, State.select_mirror]) pipe

theorem rxPop_failed {s : State} (h : (rxPop s).1 = .busFault) : BusFailed s (rxPop s).2 :=
  ⟨rxPop_keepsCopies s, popBody_failed (s := s.select) h, State.deselect_csn _⟩

/-- The mirror and the copies after one iteration that popped a frame. -/
theorem afterFrame_keepsCopies (p : PipeNo) (bytes : Frame) (s : State) : KeepsCopies s (afterFrame p bytes s) :=
  (((rxPop_keepsCopies s).trans (interleave_keepsCopies _)).trans (enqueue_keepsCopies p bytes _)).trans
    (interleave_keepsCopies _)

/-! ### How an operation ends -/

/-- The errors found before anything is done (R186 to R190, R199). -/
def checkedErrors : List Code :=
  [.unknownRegister, .unknownField, .readOnlyField, .illegalStateTransition, .invalidConfiguration]

/-- How an operation that began at `s` ends: with an error found before anything is done (R199), with `BusFault` and
what a failed transfer leaves (R192), with another response, or, for a hold or a wire command, with no response. Only
DRAIN counts in the `val` of its `BusFault`. -/
inductive Ending (i : Instr) (s : State) : State → Prop where
  | refused (c : Code) (hc : c ∈ checkedErrors := by decide) : Ending i s (s.raise c)
  | busFault {u : State} {val : Raw} (hb : Instr.atBoundary i = true) (hval : (∀ b, i ≠ .drain b) → val = 0)
      (h : BusFailed s u) : Ending i s (u.respond (.ofCode .busFault val))
  | otherwise {u : State} {c : Code} {val : Raw} {rfd : Option Frame}
      (hc : c ∉ .busFault :: checkedErrors := by decide) : Ending i s (u.respond ⟨c, val, rfd⟩)
  | unanswered {t : State} (h : t.replies = s.replies) : Ending i s t

theorem ending_onPipe {i : Instr} {s : State} {a : Byte} {k : PipeNo → State} (h : ∀ p, Ending i s (k p)) :
    Ending i s (onPipe a s k) := by
  unfold onPipe
  split
  · exact .refused _
  · exact h _

/-! ### The operations on the bus or the pins -/

section Boundary

variable {i : Instr} {s : State} (hb : Instr.atBoundary i = true)
include hb

theorem ending_respondRead {r : Option Raw × State} (h : r.1 = none → BusFailed s r.2) :
    Ending i s (respondRead r) := by
  obtain ⟨_ | v, u⟩ := r
  · exact .busFault hb (fun _ => rfl) (h rfl)
  · exact .otherwise

theorem ending_respondWrite {r : Bool × State} (h : r.1 = false → BusFailed s r.2) :
    Ending i s (respondWrite r) := by
  obtain ⟨_ | _, u⟩ := r
  · exact .busFault hb (fun _ => rfl) (h rfl)
  · exact .otherwise

theorem ending_psetFlagRun (a : Byte) (v : Raw) (role : PipeNo → FieldRef) (update : Bool → Pipe → Pipe) :
    Ending i s (psetFlagRun a v role update s).answer := by
  rw [psetFlagRun_answer]
  refine ending_onPipe fun p => ?_
  split
  · exact ending_respondWrite hb (copyIfWritten_failed writeField_failed)
  · exact .refused _

theorem ending_onPipeRead {a : Byte} {read : PipeNo → Option Raw × State}
    (h : ∀ p, (read p).1 = none → BusFailed s (read p).2) :
    Ending i s (Run.onPipe a s fun p => .ofRead (read p)).answer := by
  rw [Run.answer_onPipe]
  refine ending_onPipe fun p => ?_
  rw [Run.answer_ofRead]
  exact ending_respondRead hb (h p)

end Boundary

theorem ending_drainLoop {b : Byte} {s : State} (k : Nat) : ∀ (n : Nat) (u : State), KeepsCopies s u →
    Ending (.drain b) s ((drainLoop k n u).2.respond (drainLoop k n u).1) := by
  induction k with
  | zero => exact fun n u _ => .otherwise
  | succ k ih =>
    intro n u hu
    rw [drainLoop]
    split
    · exact .otherwise
    · exact .otherwise
    · exact .otherwise
    next hpop => exact .busFault rfl (fun h => absurd rfl (h b)) (hu.thenFailed (rxPop_failed hpop))
    next p bytes _ => exact ih _ _ (hu.trans (afterFrame_keepsCopies p bytes u))

theorem ending_goto (target : Status) (s : State) : Ending (.goto target) s (gotoRun target s).answer := by
  rw [gotoRun_answer]
  split
  · exact .refused _
  next edge he =>
    split
    · exact .otherwise
    next hfail => exact .busFault rfl (fun _ => rfl) (edge_failed he (Bool.eq_false_iff.2 hfail))

theorem ending_get (a : Byte) (s : State) : Ending (.get a) s (getRun a s).answer := by
  rw [getRun_answer]
  split
  · exact .refused _
  · exact ending_respondRead rfl busRead_failed

theorem ending_set (a : Byte) (v : Raw) (s : State) : Ending (.set a v) s (setRun a v s).answer := by
  rw [setRun_answer]
  split
  · exact .refused _
  · split
    · exact ending_respondWrite rfl busWrite_failed
    · exact .refused _

theorem ending_getf (a b : Byte) (s : State) : Ending (.getf a b) s (getfRun a b s).answer := by
  rw [getfRun_answer]
  split
  · exact .refused _
  · split
    · exact .refused _
    · exact ending_respondRead rfl readField_failed

theorem ending_setf (a b : Byte) (v : Raw) (s : State) : Ending (.setf a b v) s (setfRun a b v s).answer := by
  rw [setfRun_answer]
  split
  · exact .refused _
  · split
    · exact .refused _
    · split
      · exact .refused _
      · split
        · exact ending_respondWrite rfl writeField_failed
        · exact .refused _

theorem ending_getch (s : State) : Ending .getch s (getchRun s).answer := by
  rw [getchRun_answer]
  exact ending_respondRead rfl busRead_failed

theorem ending_setch (v : Raw) (s : State) : Ending (.setch v) s (setchRun v s).answer := by
  rw [setchRun_answer]
  split
  · exact .refused _
  · exact ending_respondWrite rfl writeField_failed

theorem ending_psetaddr (a : Byte) (v : Raw) (s : State) : Ending (.psetaddr a v) s (psetaddrRun a v s).answer := by
  rw [psetaddrRun_answer]
  exact ending_onPipe fun p => ending_respondWrite rfl (copyIfWritten_failed busWrite_failed)

theorem ending_psetlen (a : Byte) (v : Raw) (s : State) : Ending (.psetlen a v) s (psetlenRun a v s).answer := by
  rw [psetlenRun_answer]
  refine ending_onPipe fun p => ?_
  split
  · exact ending_respondWrite rfl (copyIfWritten_failed busWrite_failed)
  · exact .refused _

theorem ending_drain (b : Byte) (s : State) : Ending (.drain b) s (drainRun b s).answer := by
  rw [drainRun_answer]
  split
  · exact ending_drainLoop _ _ _ (.refl rfl rfl)
  all_goals exact .refused _

theorem exec_ending_atBoundary {i : Instr} (hb : Instr.atBoundary i = true) (s : State) :
    ∃ r : Run Response, exec i s = .next r.answer ∧ Ending i s r.answer := by
  cases i with
  | get a => exact ⟨_, rfl, ending_get a s⟩
  | set a v => exact ⟨_, rfl, ending_set a v s⟩
  | getf a b => exact ⟨_, rfl, ending_getf a b s⟩
  | setf a b v => exact ⟨_, rfl, ending_setf a b v s⟩
  | getch => exact ⟨_, rfl, ending_getch s⟩
  | setch v => exact ⟨_, rfl, ending_setch v s⟩
  | goto target => exact ⟨_, rfl, ending_goto target s⟩
  | psetaddr a v => exact ⟨_, rfl, ending_psetaddr a v s⟩
  | psetlen a v => exact ⟨_, rfl, ending_psetlen a v s⟩
  | psetaa | psetdpl | pseten => exact ⟨_, rfl, ending_psetFlagRun hb _ _ _ _⟩
  | pgetaddr | pgetlen => exact ⟨_, rfl, ending_onPipeRead hb fun _ => busRead_failed⟩
  | pgetaa | pgetdpl | pgeten => exact ⟨_, rfl, ending_onPipeRead hb fun _ => readField_failed⟩
  | drain b => exact ⟨_, rfl, ending_drain b s⟩
  | state | enq | hasdata | recv | recvw | dstop | shutdown | volume | play | track => cases hb

/-! ### The operations off the bus -/

theorem ending_enq (a : Byte) (fr : Frame) (s : State) : Ending (.enq a fr) s (enqEffect a fr s) := by
  unfold enqEffect
  split
  · exact .refused _
  · exact .otherwise

theorem ending_hasdata (a : Byte) (s : State) : Ending (.hasdata a) s (hasdataEffect a s) := by
  unfold hasdataEffect
  split
  · exact .refused _
  · exact .otherwise

theorem ending_recv (a : Byte) (s : State) : Ending (.recv a) s (recvEffect a s) := by
  unfold recvEffect
  split
  · exact .refused _
  · split
    · exact .otherwise
    · exact .otherwise

theorem ending_recvwTry {i : Instr} (w : Waiting) (s : State) : Ending i s (recvwTry w s) := by
  unfold recvwTry
  split
  · exact .otherwise
  · unfold recvwWait
    split
    · exact .otherwise
    · split
      · exact .otherwise
      · exact .unanswered (by simp)

theorem ending_recvw (a : Byte) (timeout : Option Raw) (s : State) :
    Ending (.recvw a timeout) s (recvwEffect a timeout s) := by
  unfold recvwEffect
  split
  · exact .refused _
  · exact ending_recvwTry _ s

theorem ending_shutdown (s : State) : Ending .shutdown s (shutdownEffect s) := by
  unfold shutdownEffect shutdownTry
  split
  · exact .otherwise
  · exact .unanswered (by simp)

theorem ending_track (arg : Byte) (s : State) : Ending (.track arg) s (trackEffect arg s) := by
  unfold trackEffect
  split
  · exact .unanswered rfl
  · exact .unanswered rfl

theorem exec_ending (i : Instr) (s : State) : ∃ t, exec i s = .next t ∧ Ending i s t := by
  cases hb : Instr.atBoundary i with
  | true =>
    obtain ⟨r, he, h⟩ := exec_ending_atBoundary hb s
    exact ⟨_, he, h⟩
  | false =>
    cases i with
    | state => exact ⟨_, rfl, .otherwise⟩
    | enq a fr => exact ⟨_, rfl, ending_enq a fr s⟩
    | hasdata a => exact ⟨_, rfl, ending_hasdata a s⟩
    | recv a => exact ⟨_, rfl, ending_recv a s⟩
    | recvw a timeout => exact ⟨_, rfl, ending_recvw a timeout s⟩
    | dstop => exact ⟨_, rfl, .otherwise⟩
    | shutdown => exact ⟨_, rfl, ending_shutdown s⟩
    | volume | play => exact ⟨_, rfl, .unanswered rfl⟩
    | track arg => exact ⟨_, rfl, ending_track arg s⟩
    | _ => cases hb

/-! ### The response an operation ended with -/

/-- The newest response on port H is the one given last. -/
theorem response_eq {s u : State} {r r' : Response} (hp : (u.respond r').port = .H)
    (h : (u.respond r').repliesOn .H = s.repliesOn .H ++ [r]) : r' = r := by
  rw [State.repliesOn_respond, if_pos (show u.port = .H from hp)] at h
  obtain ⟨-, hlast⟩ := List.append_inj' h rfl
  exact (List.cons.inj hlast).1

theorem recvwTry_port (w : Waiting) (s : State) : (recvwTry w s).port = s.port := by
  unfold recvwTry
  split
  · simp [dequeue, State.setPipe]
  · unfold recvwWait
    split
    · simp [State.raise_eq]
    · split
      · simp [State.raise_eq]
      · simp

theorem enqEffect_port (a : Byte) (fr : Frame) (s : State) : (enqEffect a fr s).port = s.port := by
  unfold enqEffect
  split
  · rfl
  · rw [State.respond_port, enqueue_same]

theorem hasdataEffect_port (a : Byte) (s : State) : (hasdataEffect a s).port = s.port := by
  unfold hasdataEffect
  split
  · rfl
  · rfl

theorem recvEffect_port (a : Byte) (s : State) : (recvEffect a s).port = s.port := by
  unfold recvEffect
  split
  · rfl
  · split
    · rfl
    · rfl

theorem recvwEffect_port (a : Byte) (timeout : Option Raw) (s : State) : (recvwEffect a timeout s).port = s.port := by
  unfold recvwEffect
  split
  · rfl
  · exact recvwTry_port _ s

theorem shutdownEffect_port (s : State) : (shutdownEffect s).port = s.port := by
  unfold shutdownEffect shutdownTry
  split
  · rfl
  · rfl

theorem trackEffect_port (arg : Byte) (s : State) : (trackEffect arg s).port = s.port := by
  unfold trackEffect
  split
  · rfl
  · rfl

/-- An operation ends on the port it began on. -/
theorem exec_port {i : Instr} {s t : State} (hx : exec i s = .next t) : t.port = s.port := by
  cases hb : Instr.atBoundary i with
  | true =>
    obtain ⟨r, es, he, -, hst⟩ := passes_staged hb s
    cases he.symm.trans hx
    show r.finish.2.port = s.port
    rw [hst.finish.rest.rest]
  | false =>
    cases i with
    | state | dstop | volume | play => cases hx; rfl
    | enq a fr => cases hx; exact enqEffect_port a fr s
    | hasdata a => cases hx; exact hasdataEffect_port a s
    | recv a => cases hx; exact recvEffect_port a s
    | recvw a timeout => cases hx; exact recvwEffect_port a timeout s
    | shutdown => cases hx; exact shutdownEffect_port s
    | track arg => cases hx; exact trackEffect_port arg s
    | _ => cases hb

/-- What the response of an operation of port H tells of its ending. -/
theorem exec_of_response {i : Instr} {s t : State} {r : Response} (hp : s.port = .H) (hx : exec i s = .next t)
    (hr : t.repliesOn .H = s.repliesOn .H ++ [r]) :
    (r.code ∈ checkedErrors ∧ r = .ofCode r.code 0 ∧ t = s.raise r.code) ∨
    (r.code = .busFault ∧ Instr.atBoundary i = true ∧ ((∀ b, i ≠ .drain b) → r.val = 0) ∧ BusFailed s t) ∨
    r.code ∉ .busFault :: checkedErrors := by
  have hport := (exec_port hx).trans hp
  obtain ⟨t', hx', h⟩ := exec_ending i s
  cases hx.symm.trans hx'
  cases h with
  | refused c hc =>
    obtain rfl : Response.ofCode c 0 = r := response_eq hport hr
    exact .inl ⟨hc, rfl, rfl⟩
  | busFault hb hval h =>
    obtain rfl := response_eq hport hr
    exact .inr (.inl ⟨rfl, hb, hval, ⟨h.mirror, h.copies⟩, h.busFault, h.csn⟩)
  | otherwise hc =>
    obtain rfl := response_eq hport hr
    exact .inr (.inr hc)
  | unanswered h =>
    rw [State.repliesOn_congr h, List.self_eq_append_right] at hr
    cases hr

/-- Settles O17: of the endings only the refusal has one of these codes. -/
theorem cleanErrorsChangeNothing : Obligations.CleanErrorsChangeNothing := by
  intro i s t r hp hx hr hc
  rcases exec_of_response hp hx hr with ⟨-, hval, rfl⟩ | ⟨hbus, -⟩ | hn
  · rw [hval]
    exact ⟨by rw [State.raise_eq, State.respond, hp]; rfl, rfl, rfl⟩
  · rw [hbus] at hc
    exact absurd hc (by decide)
  · exact absurd (List.mem_cons_of_mem _ hc) hn

/-- GOTO StandBy from Rx or Tx uses no bus, so it cannot answer `BusFault` (R115). -/
theorem goto_standBy_no_busFault {s t : State} {r : Response} (hs : s.status = .rx ∨ s.status = .tx)
    (hp : s.port = .H) (hx : exec (.goto .standBy) s = .next t) (hr : t.repliesOn .H = s.repliesOn .H ++ [r]) :
    r.code ≠ .busFault := by
  have hport := (exec_port hx).trans hp
  cases (exec_goto_standBy_of_active hs).symm.trans hx
  obtain rfl := response_eq hport hr
  nofun

/-- Settles O18: of the endings only the failed transfer has this code, and only an operation on the bus or the pins
ends so. -/
theorem busFaultLeavesCopies : Obligations.BusFaultLeavesCopies := by
  intro i s t r hp hx hr hc
  rcases exec_of_response hp hx hr with ⟨hclean, -⟩ | ⟨-, hb, hval, h⟩ | hn
  · rw [hc] at hclean
    exact absurd hclean (by decide)
  · have offBus (j : Instr) (hj : Instr.atBoundary j = false) : i ≠ j := by
      rintro rfl
      exact Bool.false_ne_true (hj.symm.trans hb)
    refine ⟨h.busFault, h.csn, h.mirror, h.copies, hval, offBus _ rfl, offBus _ rfl, offBus _ rfl, ?_,
      fun a fr timeout => ⟨offBus _ rfl, offBus _ rfl, offBus _ rfl, offBus _ rfl⟩⟩
    rintro hs rfl
    exact goto_standBy_no_busFault hs hp hx hr hc
  · exact absurd (hc ▸ List.mem_cons_self) hn

end Sys2Proof.Machine

/-! ## An owner's RECVW that waits without a timeout (R224) -/

namespace Sys2Proof.Machine

open Sys2Proof

/-! ### What another agent's turn leaves of port H and of an empty queue -/

theorem GuestStep.holdH {s t : State} (h : GuestStep s t) : t.holdH = s.holdH := (congrArg State.holdH h.rest :)

theorem GuestStep.repliesOn_H {s t : State} (h : GuestStep s t) : t.repliesOn .H = s.repliesOn .H := h.replies

/-- Other agents only take frames, so an empty queue stays empty. -/
theorem GuestStep.q_nil {s t : State} (h : GuestStep s t) {p : PipeNo} (hq : s.pipe[p].q = []) :
    t.pipe[p].q = [] := by
  obtain ⟨k, taken⟩ := h.pipes p
  calc t.pipe[p].q = s.pipe[p].q.drop k := congrArg Pipe.q taken
    _ = [] := by rw [hq, List.drop_nil]

/-- With port H busy and no reset next, what an answered step can be: an idle turn, an examination of the hold of
port H, or another agent's turn. -/
theorem step_of_busy_H {s t : State} (hb : s.busy .H = true) (h : step s = .next t)
    (hr : ∀ rest, s.inputs ≠ .reset :: rest) :
    t = s ∨ (∃ rest, s.inputs = .pollH :: rest) ∨
      ∃ a rest, s.inputs = .act a :: rest ∧ t = runAct { s with inputs := rest } a := by
  have refused {i : Input} {rest : List Input} (hw : i.WordFor .H) (hin : s.inputs = i :: rest) : False := by
    rcases hw.step hin with ⟨-, hs⟩ | ⟨hf, -⟩
    · cases hs.symm.trans h
    · cases hb.symm.trans hf
  cases hin : s.inputs with
  | nil =>
    have idle : step s = .next s := step_of_done (by rw [fetch, hin])
    cases idle.symm.trans h
    exact .inl rfl
  | cons i rest =>
    cases i with
    | owner w fr => exact (refused (wordFor_owner w fr) hin).elim
    | ownerReset w fr k => exact (refused (wordFor_ownerReset w fr k) hin).elim
    | reset => exact absurd hin (hr rest)
    | pollH => exact .inr (.inl ⟨rest, rfl⟩)
    | act a =>
      rcases step_act hin with hs | ⟨hs, -⟩
      · cases hs.symm.trans h
        exact .inr (.inr ⟨a, rest, rfl, rfl⟩)
      · cases hs.symm.trans h

/-- Settles O40: an examination of the hold finds no frame, no `cancel` and no expiry (`recvwHolds`), and another
agent's turn touches neither port H nor an empty queue. -/
theorem ownerHoldEndsByCancel : Obligations.OwnerHoldEndsByCancel := by
  intro s t w hold hexp hq hcancel h hr
  have hb : s.busy .H = true := by rw [State.busy, hold, Option.isSome_some]
  rcases step_of_busy_H hb h hr with rfl | ⟨rest, hin⟩ | ⟨a, rest, -, rfl⟩
  · exact ⟨hold, hq, rfl⟩
  · obtain ⟨-, -, holds⟩ := (recvwHolds s .H w rest (.inl ⟨rfl, hin, hold⟩)).2 (.inr hq)
    cases (holds hcancel fun e he => by cases hexp.symm.trans he).symm.trans h
    exact ⟨hold, hq, rfl⟩
  · have guest := runAct_guest { s with inputs := rest } a
    exact ⟨guest.holdH.trans hold, guest.q_nil hq, guest.repliesOn_H⟩

end Sys2Proof.Machine
